-- ==== Sys2Proof/Word.lean ====
section
/-!
DEFINITION. The word types of the model: the byte of memory (rule R50), the 64-bit word of an address, a
general register and the instruction pointer (R26, R27, R50), and the 512-bit container of a vector register
(R20; its bits at and above MAXVL are not architectural and are kept at 0, see `Sys2Proof.Machine.State.Inv`).
-/

namespace Sys2Proof

/-- The unit of memory and of the instruction stream (rules R50, R51). -/
abbrev Byte := BitVec 8

/-- A linear address, a general register, the instruction pointer (rules R26, R27, R29, R50). -/
abbrev Word := BitVec 64

/-- The widest vector register, ZMM (rules R20, R21): XMM and YMM are its low 128 and 256 bits. -/
abbrev Vec := BitVec 512

/-- An exception's error code (rule R172; its 32-bit width is PRESUMED, log 12). -/
abbrev ErrCode := BitVec 32

end Sys2Proof
end

