-- ==== Sys2Proof/Config.lean ====
section
/-!
DEFINITION. The configuration of a run: every parameter of rule R7 (`00_scope.md`), as plain data, with the
default the rule gives. R39 calls these "parameters of the step relation"; the model carries them in a field
of State that no step changes (log 1), so that a statement can quantify over every configuration.
`MAXVL`, `NVREG` and `NKREG` are functions of these flags (`Sys2Proof/Machine/Flags.lean`), as R7's own
constraints say.
-/

namespace Sys2Proof

/-- The operating modes the spec names (rules R7, R35, R118). Only `long64` runs; a step in any other mode
is refused (decision D1). -/
inductive Mode where
  /-- 64-bit mode, the one mode admitted -/
  | long64
  /-- compatibility mode -/
  | compatibility
  /-- legacy protected 32-bit mode -/
  | protected32
  /-- real-address mode -/
  | realAddress
  /-- virtual-8086 mode -/
  | virtual8086
  /-- system management mode -/
  | smm
deriving DecidableEq, Repr

/-- `KW`, the width of an opmask register: 16 or 64 (rule R7). -/
inductive MaskWidth where
  | w16
  | w64
deriving DecidableEq, Repr

/-- `LA_BITS`, the number of implemented linear-address bits: 48 or 57 (rules R7, R65). -/
inductive LaBits where
  | la48
  | la57
deriving DecidableEq, Repr

/-- `ATOMIC_GRANULE` in bytes (rules R7, R61): nothing one agent does can observe it. -/
inductive Granule where
  | g1
  | g2
  | g4
  | g8
  | g16
  | g32
  | g64
deriving DecidableEq, Repr

/-- The three kinds of access `Translate` is asked about (rule R66). -/
inductive Access where
  | read
  | write
  | fetch
deriving DecidableEq, Repr

/-- The linear addresses `first, …, first + size - 1`. -/
structure Region where
  first : Nat
  size : Nat
deriving DecidableEq, Repr

/-- One answer of the `Translate` oracle that is not success (rule R66): an access of this kind to a byte of
the region is the page fault `#PF(code)`. -/
structure Denial where
  region : Region
  kind : Access
  code : ErrCode
deriving DecidableEq, Repr

/-- The parameters of rule R7, and the extent of the program text (rules R72, R203). -/
structure Config where
  /-- `HAS_SSE2` -/
  hasSSE2 : Bool
  /-- `HAS_AVX` -/
  hasAVX : Bool
  /-- `HAS_AVX512F` -/
  hasAVX512F : Bool
  /-- `HAS_AVX512VL`; true only if `hasAVX512F` -/
  hasAVX512VL : Bool
  /-- `KW` -/
  maskWidth : MaskWidth
  /-- `MODE` -/
  mode : Mode
  /-- `OS_SSE` (rule R34) -/
  osSSE : Bool
  /-- `OS_AVX` (rule R34) -/
  osAVX : Bool
  /-- `OS_AVX512` (rule R34) -/
  osAVX512 : Bool
  /-- `TS`, that is CR0.TS (rule R34) -/
  ts : Bool
  /-- `Translate`: the accesses it faults; every other access succeeds, physical = linear -/
  denied : List Denial
  /-- `MAPPED`: the addresses backed by ordinary memory -/
  mapped : List Region
  /-- `LA_BITS` -/
  laBits : LaBits
  /-- `ATOMIC_GRANULE` -/
  granule : Granule
  /-- `END_ADDR`, if the launch chose one -/
  endAddr : Option Word
  /-- the bytes of the program text, which no store may touch -/
  text : List Region
deriving DecidableEq, Repr

/-- The full-featured default of rule R7. The two entries "chosen per launch" and the text have no default in
the spec: the whole address space is mapped, no `END_ADDR` and no program text are chosen
(DESIGN CHOICE, log 4). -/
def Config.full : Config where
  hasSSE2 := true
  hasAVX := true
  hasAVX512F := true
  hasAVX512VL := true
  maskWidth := .w64
  mode := .long64
  osSSE := true
  osAVX := true
  osAVX512 := true
  ts := false
  denied := []
  mapped := [⟨0, 2 ^ 64⟩]
  laBits := .la48
  granule := .g1
  endAddr := none
  text := []

end Sys2Proof
end

