-- ==== Sys2Proof/Syntax.lean ====
section
/-!
DEFINITION. The instructions: one constructor for each of the 18 rows of `spec/opcode_table.json` (the 12
encodings of rule R4), with every field the encoding has. Fields stand as the encoding carries them (a
register number is the class's extension bit beside the three ModRM bits), so that the rules that put the
numbers together (R87, R91, R92, R101) are definitions of `Sys2Proof/Machine/Operands.lean`, and so that a
field that must hold one value (`vvvv`, `b`, …) is still there when its #UD is decided (R122, last sentence).
-/

namespace Sys2Proof

/-- The vector length of a form: 128, 256 or 512 bits (rule R150). -/
inductive VL where
  | v128
  | v256
  | v512
deriving DecidableEq, Repr

/-- The segments an override byte can name (rule R81). -/
inductive Segment where
  | cs
  | ss
  | ds
  | es
  | fs
  | gs
deriving DecidableEq, Repr

/-- The REX byte's bits (rule R83). -/
structure Rex where
  w : Bool
  r : Bool
  x : Bool
  b : Bool
deriving DecidableEq, Repr

/-- One byte before the class-telling byte: a legacy prefix of rule R81 or a REX byte (R83). -/
inductive Prefix where
  /-- 66h -/
  | opSize
  /-- 67h -/
  | addrSize
  /-- 2Eh, 36h, 3Eh, 26h, 64h, 65h -/
  | seg (s : Segment)
  /-- F0h -/
  | lock
  /-- F2h -/
  | repne
  /-- F3h -/
  | rep
  /-- 40h to 4Fh -/
  | rex (r : Rex)
deriving DecidableEq, Repr

/-- The fields of a two-byte VEX prefix that the row leaves open (rule R89): R (not inverted), and `vvvv` as
stored. -/
structure Vex2 where
  r : Bool
  vvvv : BitVec 4
deriving DecidableEq, Repr

/-- The fields of a three-byte VEX prefix that the row leaves open (rule R88): R, X, B (not inverted), W, and
`vvvv` as stored. -/
structure Vex3 where
  r : Bool
  x : Bool
  b : Bool
  w : Bool
  vvvv : BitVec 4
deriving DecidableEq, Repr

/-- The fields of an EVEX prefix that the row leaves open (rules R96 to R99): R, X, B, R' (not inverted),
P0[3:2], `vvvv` as stored, P1[2], z, b, V' as stored (`vHi`), `aaa`. -/
structure Evex where
  r : Bool
  x : Bool
  b : Bool
  rHi : Bool
  p0Res : BitVec 2
  vvvv : BitVec 4
  p1Fix : Bool
  z : Bool
  bcast : Bool
  vHi : Bool
  aaa : BitVec 3
deriving DecidableEq, Repr

/-- The displacement that follows ModRM and SIB (rule R86): none, 8 bits, or 32 bits. -/
inductive Disp where
  | none
  | d8 (v : BitVec 8)
  | d32 (v : BitVec 32)
deriving DecidableEq, Repr

/-- The memory forms of ModRM and SIB (rules R108 to R110). -/
inductive MemOperand where
  /-- `mod = 00b, rm = 101b`: RIP-relative -/
  | rip (disp : BitVec 32)
  /-- a base register named by ModRM.rm, no SIB -/
  | base (rm : BitVec 3) (disp : Disp)
  /-- SIB with a base register -/
  | sib (scale : BitVec 2) (index : BitVec 3) (sbase : BitVec 3) (disp : Disp)
  /-- SIB with `base = 101b` and `mod = 00b`: no base, a 32-bit displacement -/
  | sibNoBase (scale : BitVec 2) (index : BitVec 3) (disp : BitVec 32)
deriving DecidableEq, Repr

/-- The r/m operand (rule R84): a register (`mod = 11b`) or memory. -/
inductive RM where
  | reg (rm : BitVec 3)
  | mem (m : MemOperand)
deriving DecidableEq, Repr

/-- One constructor per row of `spec/opcode_table.json`, in the table's order. `pre` are the bytes before the
row's pattern (for the legacy rows it holds the mandatory 66h), `reg` is ModRM.reg, `rm` the r/m operand. -/
inductive Instr where
  /-- `66 0F 28 /r`, no REX (R132) -/
  | movapdLoad (pre : List Prefix) (reg : BitVec 3) (rm : RM)
  /-- `66 REX 0F 28 /r` (R132) -/
  | movapdLoadRex (pre : List Prefix) (rex : Rex) (reg : BitVec 3) (rm : RM)
  /-- `66 0F 29 /r`, no REX (R133) -/
  | movapdStore (pre : List Prefix) (reg : BitVec 3) (rm : RM)
  /-- `66 REX 0F 29 /r` (R133) -/
  | movapdStoreRex (pre : List Prefix) (rex : Rex) (reg : BitVec 3) (rm : RM)
  /-- `VEX.128.66.0F.WIG 28 /r`, two-byte prefix (R141) -/
  | vmovapdVex128LoadC5 (pre : List Prefix) (vex : Vex2) (reg : BitVec 3) (rm : RM)
  /-- `VEX.128.66.0F.WIG 28 /r`, three-byte prefix (R141) -/
  | vmovapdVex128LoadC4 (pre : List Prefix) (vex : Vex3) (reg : BitVec 3) (rm : RM)
  /-- `VEX.128.66.0F.WIG 29 /r`, two-byte prefix (R142) -/
  | vmovapdVex128StoreC5 (pre : List Prefix) (vex : Vex2) (reg : BitVec 3) (rm : RM)
  /-- `VEX.128.66.0F.WIG 29 /r`, three-byte prefix (R142) -/
  | vmovapdVex128StoreC4 (pre : List Prefix) (vex : Vex3) (reg : BitVec 3) (rm : RM)
  /-- `VEX.256.66.0F.WIG 28 /r`, two-byte prefix (R143) -/
  | vmovapdVex256LoadC5 (pre : List Prefix) (vex : Vex2) (reg : BitVec 3) (rm : RM)
  /-- `VEX.256.66.0F.WIG 28 /r`, three-byte prefix (R143) -/
  | vmovapdVex256LoadC4 (pre : List Prefix) (vex : Vex3) (reg : BitVec 3) (rm : RM)
  /-- `VEX.256.66.0F.WIG 29 /r`, two-byte prefix (R144) -/
  | vmovapdVex256StoreC5 (pre : List Prefix) (vex : Vex2) (reg : BitVec 3) (rm : RM)
  /-- `VEX.256.66.0F.WIG 29 /r`, three-byte prefix (R144) -/
  | vmovapdVex256StoreC4 (pre : List Prefix) (vex : Vex3) (reg : BitVec 3) (rm : RM)
  /-- `EVEX.128.66.0F.W1 28 /r` (R153) -/
  | vmovapdEvex128Load (pre : List Prefix) (evex : Evex) (reg : BitVec 3) (rm : RM)
  /-- `EVEX.256.66.0F.W1 28 /r` (R154) -/
  | vmovapdEvex256Load (pre : List Prefix) (evex : Evex) (reg : BitVec 3) (rm : RM)
  /-- `EVEX.512.66.0F.W1 28 /r` (R155) -/
  | vmovapdEvex512Load (pre : List Prefix) (evex : Evex) (reg : BitVec 3) (rm : RM)
  /-- `EVEX.128.66.0F.W1 29 /r` (R156) -/
  | vmovapdEvex128Store (pre : List Prefix) (evex : Evex) (reg : BitVec 3) (rm : RM)
  /-- `EVEX.256.66.0F.W1 29 /r` (R157) -/
  | vmovapdEvex256Store (pre : List Prefix) (evex : Evex) (reg : BitVec 3) (rm : RM)
  /-- `EVEX.512.66.0F.W1 29 /r` (R158) -/
  | vmovapdEvex512Store (pre : List Prefix) (evex : Evex) (reg : BitVec 3) (rm : RM)
deriving DecidableEq, Repr

end Sys2Proof
end

