-- ==== Sys2Proof/Decode.lean ====
section
/-!
DEFINITION. Decoding (rule R117, with the layouts of R80 to R101), total on any bytes: a list of bytes is an
instruction, or an undefined opcode (#UD), or refused by name, or too short to tell. After it, the encoder
(`encode`), written from the same layouts, and the reading of a row of `spec/opcode_table.json`
(`decodeTableWord`).
-/

namespace Sys2Proof

/-! ### Prefix bytes (rules R81 to R83) -/

/-- The prefix a byte is, if it is one: rule R81's bytes and REX, 40h to 4Fh (R83). -/
def prefixOf (b : Byte) : Option Prefix :=
  if b = 0x66#8 then some .opSize
  else if b = 0x67#8 then some .addrSize
  else if b = 0x2E#8 then some (.seg .cs)
  else if b = 0x36#8 then some (.seg .ss)
  else if b = 0x3E#8 then some (.seg .ds)
  else if b = 0x26#8 then some (.seg .es)
  else if b = 0x64#8 then some (.seg .fs)
  else if b = 0x65#8 then some (.seg .gs)
  else if b = 0xF0#8 then some .lock
  else if b = 0xF2#8 then some .repne
  else if b = 0xF3#8 then some .rep
  else if b.extractLsb' 4 4 = 4#4 then
    some (.rex ⟨b.getLsbD 3, b.getLsbD 2, b.getLsbD 1, b.getLsbD 0⟩)
  else none

/-- The byte of a prefix (rules R81, R83). -/
def prefixByte : Prefix → Byte
  | .opSize => 0x66#8
  | .addrSize => 0x67#8
  | .seg .cs => 0x2E#8
  | .seg .ss => 0x36#8
  | .seg .ds => 0x3E#8
  | .seg .es => 0x26#8
  | .seg .fs => 0x64#8
  | .seg .gs => 0x65#8
  | .lock => 0xF0#8
  | .repne => 0xF2#8
  | .rep => 0xF3#8
  | .rex r => 4#4 ++ BitVec.ofBool r.w ++ BitVec.ofBool r.r ++ BitVec.ofBool r.x ++ BitVec.ofBool r.b

/-- The bytes up to the class-telling byte, and the rest (rule R117 step 1). REX bytes are collected here too;
where they may stand is decided per class. -/
def scanPrefixes : List Byte → List Prefix × List Byte
  | [] => ([], [])
  | b :: bs =>
    match prefixOf b with
    | some p => (p :: (scanPrefixes bs).1, (scanPrefixes bs).2)
    | none => ([], b :: bs)

/-- A REX byte in the last place is the instruction's REX (rules R82, R117 step 2). -/
def splitRex : List Prefix → List Prefix × Option Rex
  | [] => ([], none)
  | [.rex r] => ([], some r)
  | p :: ps => (p :: (splitRex ps).1, (splitRex ps).2)

/-- Is this byte a segment override? -/
def Prefix.isSeg : Prefix → Bool
  | .seg _ => true
  | _ => false

/-- Is this byte a REX byte? -/
def Prefix.isRex : Prefix → Bool
  | .rex _ => true
  | _ => false

/-- The bytes rule R82 admits before 0Fh in the legacy class, F0h among them (it raises #UD, R179). -/
def Prefix.legacyAdmitted : Prefix → Bool
  | .repne => false
  | .rep => false
  | .rex _ => false
  | _ => true

/-- The legacy class: no F2h, F3h or misplaced REX, at most one segment override (rule R82). -/
def legacyPrefixesAdmitted (pre : List Prefix) : Bool :=
  pre.all Prefix.legacyAdmitted && decide (pre.countP Prefix.isSeg ≤ 1)

/-- The VEX and EVEX classes: at most one segment override and at most one 67h; the bytes that raise #UD there
(rule R94) are not refused (rule R82). -/
def vexPrefixesAdmitted (pre : List Prefix) : Bool :=
  decide (pre.countP Prefix.isSeg ≤ 1) && decide (pre.countP (· == .addrSize) ≤ 1)

/-! ### ModRM, SIB, displacement (rules R84 to R86) -/

/-- Four bytes, little-endian (rule R86). -/
def le32 (b0 b1 b2 b3 : Byte) : BitVec 32 := b3 ++ b2 ++ b1 ++ b0

/-- A 32-bit displacement at the head of the bytes. -/
def takeDisp32 : List Byte → Option (BitVec 32)
  | b0 :: b1 :: b2 :: b3 :: _ => some (le32 b0 b1 b2 b3)
  | _ => none

/-- The displacement that `mod` calls for, where a base register is present (rule R86). -/
def takeDisp (mod : BitVec 2) (bs : List Byte) : Option Disp :=
  if mod = 0#2 then some .none
  else if mod = 1#2 then
    match bs with
    | b :: _ => some (.d8 b)
    | [] => none
  else (takeDisp32 bs).map .d32

/-- SIB and what follows it (rules R85, R110). -/
def takeSib (mod : BitVec 2) : List Byte → Option MemOperand
  | [] => none
  | sb :: bs =>
    if mod = 0#2 ∧ sb.extractLsb' 0 3 = 5#3 then
      (takeDisp32 bs).map (.sibNoBase (sb.extractLsb' 6 2) (sb.extractLsb' 3 3))
    else
      (takeDisp mod bs).map (.sib (sb.extractLsb' 6 2) (sb.extractLsb' 3 3) (sb.extractLsb' 0 3))

/-- The r/m operand that ModRM's `mod` and `rm` and the bytes after ModRM say (rules R84 to R86, R108). -/
def takeRM (mod : BitVec 2) (rm : BitVec 3) (bs : List Byte) : Option RM :=
  if mod = 3#2 then some (.reg rm)
  else if rm = 4#3 then (takeSib mod bs).map .mem
  else if mod = 0#2 ∧ rm = 5#3 then (takeDisp32 bs).map (.mem ∘ .rip)
  else (takeDisp mod bs).map (.mem ∘ .base rm)

/-- ModRM and all that follows it: ModRM.reg and the r/m operand; `none` if the bytes end too soon. -/
def takeModRM : List Byte → Option (BitVec 3 × RM)
  | [] => none
  | b :: bs =>
    (takeRM (b.extractLsb' 6 2) (b.extractLsb' 0 3) bs).map fun rm => (b.extractLsb' 3 3, rm)

/-- Bytes of a displacement (rule R86). -/
def dispLen : Disp → Nat
  | .none => 0
  | .d8 _ => 1
  | .d32 _ => 4

/-- Bytes of SIB and displacement (rules R85, R86, R114). -/
def rmLen : RM → Nat
  | .reg _ => 0
  | .mem (.rip _) => 4
  | .mem (.base _ d) => dispLen d
  | .mem (.sib _ _ _ d) => 1 + dispLen d
  | .mem (.sibNoBase _ _ _) => 5

/-! ### The classes (rules R87 to R107, R117) -/

/-- Why bytes are refused by the decoder (rule R171): not an encoding of the family, or a prefix sequence
rule R82 does not admit. -/
inductive Reject where
  | unlisted
  | badPrefix
deriving DecidableEq, Repr

/-- What a list of bytes is: an instruction; an undefined opcode with no row of the table (#UD), with its length;
refused; or a beginning whose end is not there. The length is there because #GP(0) for more than 15 bytes comes
before #UD (R185). -/
inductive Decoded where
  | instr (i : Instr)
  | ud (len : Nat)
  | refuse (r : Reject)
  | short
deriving DecidableEq, Repr

/-- Read ModRM and the rest, and go on with `k`. -/
def withModRM (bs : List Byte) (k : BitVec 3 → RM → Decoded) : Decoded :=
  match takeModRM bs with
  | some (reg, rm) => k reg rm
  | none => .short

/-- The legacy class, from the byte after 0Fh (rule R117 steps 1, 2). -/
def decodeLegacy (pre : List Prefix) (rex : Option Rex) : List Byte → Decoded
  | [] => .short
  | op :: bs =>
    if ¬ legacyPrefixesAdmitted pre then .refuse .badPrefix
    else if ¬ pre.contains .opSize then .refuse .unlisted
    else if op = 0x28#8 then
      withModRM bs fun reg rm =>
        match rex with
        | none => .instr (.movapdLoad pre reg rm)
        | some x => .instr (.movapdLoadRex pre x reg rm)
    else if op = 0x29#8 then
      withModRM bs fun reg rm =>
        match rex with
        | none => .instr (.movapdStore pre reg rm)
        | some x => .instr (.movapdStoreRex pre x reg rm)
    else .refuse .unlisted

/-- The two-byte VEX class, from the byte after C5h (rules R89, R90, R117 step 3). -/
def decodeVex2 (pre : List Prefix) : List Byte → Decoded
  | b1 :: op :: bs =>
    if ¬ vexPrefixesAdmitted pre then .refuse .badPrefix
    else if b1.extractLsb' 0 2 ≠ 1#2 then .refuse .unlisted
    else
      let v : Vex2 := ⟨!b1.getLsbD 7, b1.extractLsb' 3 4⟩
      if op = 0x28#8 then
        withModRM bs fun reg rm =>
          .instr (if b1.getLsbD 2 then .vmovapdVex256LoadC5 pre v reg rm else .vmovapdVex128LoadC5 pre v reg rm)
      else if op = 0x29#8 then
        withModRM bs fun reg rm =>
          .instr (if b1.getLsbD 2 then .vmovapdVex256StoreC5 pre v reg rm else .vmovapdVex128StoreC5 pre v reg rm)
      else .refuse .unlisted
  | _ => .short

/-- The three-byte VEX class, from the byte after C4h (rules R88, R90, R117 step 3). -/
def decodeVex3 (pre : List Prefix) : List Byte → Decoded
  | b1 :: b2 :: op :: bs =>
    if ¬ vexPrefixesAdmitted pre then .refuse .badPrefix
    else if b1.extractLsb' 0 5 ≠ 1#5 ∨ b2.extractLsb' 0 2 ≠ 1#2 then .refuse .unlisted
    else
      let v : Vex3 := ⟨!b1.getLsbD 7, !b1.getLsbD 6, !b1.getLsbD 5, b2.getLsbD 7, b2.extractLsb' 3 4⟩
      if op = 0x28#8 then
        withModRM bs fun reg rm =>
          .instr (if b2.getLsbD 2 then .vmovapdVex256LoadC4 pre v reg rm else .vmovapdVex128LoadC4 pre v reg rm)
      else if op = 0x29#8 then
        withModRM bs fun reg rm =>
          .instr (if b2.getLsbD 2 then .vmovapdVex256StoreC4 pre v reg rm else .vmovapdVex128StoreC4 pre v reg rm)
      else .refuse .unlisted
  | _ => .short

/-- Is an EVEX prefix with these P0, P1 and opcode byte an encoding of the family: `mm` = 01b, `pp` = 01b,
W = 1, opcode 28h or 29h (rules R100, R107, R117 step 4)? -/
def evexListed (p0 p1 op : Byte) : Bool :=
  p0.extractLsb' 0 2 == 1#2 && p1.extractLsb' 0 2 == 1#2 && p1.getLsbD 7 && (op == 0x28#8 || op == 0x29#8)

/-- The violations that do not depend on the instruction: P0[3:2] ≠ 00b, P1[2] = 0, `mm` = 00b
(rules R102, R117 step 4). -/
def evexReservedViolated (p0 p1 : Byte) : Bool :=
  p0.extractLsb' 2 2 != 0#2 || !p1.getLsbD 2 || p0.extractLsb' 0 2 == 0#2

/-- The fields of an EVEX prefix (rules R97 to R99). -/
def evexFields (p0 p1 p2 : Byte) : Evex where
  r := !p0.getLsbD 7
  x := !p0.getLsbD 6
  b := !p0.getLsbD 5
  rHi := !p0.getLsbD 4
  p0Res := p0.extractLsb' 2 2
  vvvv := p1.extractLsb' 3 4
  p1Fix := p1.getLsbD 2
  z := p2.getLsbD 7
  bcast := p2.getLsbD 4
  vHi := p2.getLsbD 3
  aaa := p2.extractLsb' 0 3

/-- The length of an EVEX instruction with this r/m operand (rule R114). -/
def evexLen (pre : List Prefix) (rm : RM) : Nat := pre.length + 4 + 1 + 1 + rmLen rm

/-- The EVEX class, from the byte after 62h (rule R117 step 4). L'L = 11b selects no row: it is #UD once the
instruction's bytes are there (R102). Outside the family the spec gives an instruction no length: an undefined
opcode's is then the bytes it is known to have, up to its opcode byte (DEDUCED, log 9). -/
def decodeEvex (pre : List Prefix) : List Byte → Decoded
  | p0 :: p1 :: p2 :: op :: bs =>
    if ¬ vexPrefixesAdmitted pre then .refuse .badPrefix
    else if evexListed p0 p1 op then
      let e := evexFields p0 p1 p2
      let ll := p2.extractLsb' 5 2
      if op = 0x28#8 then
        withModRM bs fun reg rm =>
          if ll = 0#2 then .instr (.vmovapdEvex128Load pre e reg rm)
          else if ll = 1#2 then .instr (.vmovapdEvex256Load pre e reg rm)
          else if ll = 2#2 then .instr (.vmovapdEvex512Load pre e reg rm)
          else .ud (evexLen pre rm)
      else
        withModRM bs fun reg rm =>
          if ll = 0#2 then .instr (.vmovapdEvex128Store pre e reg rm)
          else if ll = 1#2 then .instr (.vmovapdEvex256Store pre e reg rm)
          else if ll = 2#2 then .instr (.vmovapdEvex512Store pre e reg rm)
          else .ud (evexLen pre rm)
    else if evexReservedViolated p0 p1 then .ud (pre.length + 4 + 1)
    else .refuse .unlisted
  | _ => .short

/-- The bytes after the prefixes: the class-telling byte and its class (rules R80, R117 steps 2 to 6). Which prefix
sequences are admitted depends on the class (R82), so a byte that tells no class is refused as unlisted whatever
prefixes stand before it, unadmitted ones too (DESIGN CHOICE, log 17). -/
def decodeClass (pre : List Prefix) : List Byte → Decoded
  | [] => .short
  | b :: bs =>
    if b = 0x0F#8 then decodeLegacy (splitRex pre).1 (splitRex pre).2 bs
    else if b = 0xC5#8 then decodeVex2 pre bs
    else if b = 0xC4#8 then decodeVex3 pre bs
    else if b = 0x62#8 then decodeEvex pre bs
    else .refuse .unlisted

/-- The instruction at the head of the bytes (rule R117). -/
def decode (bs : List Byte) : Decoded :=
  decodeClass (scanPrefixes bs).1 (scanPrefixes bs).2

/-! ### The encoder -/

/-- The bytes of a 32-bit displacement, little-endian (rule R86). -/
def bytesLe32 (v : BitVec 32) : List Byte :=
  [v.extractLsb' 0 8, v.extractLsb' 8 8, v.extractLsb' 16 8, v.extractLsb' 24 8]

/-- The bytes of a displacement (rule R86). -/
def dispBytes : Disp → List Byte
  | .none => []
  | .d8 v => [v]
  | .d32 v => bytesLe32 v

/-- `mod` for a displacement, where a base register is present (rule R86). -/
def dispMod : Disp → BitVec 2
  | .none => 0#2
  | .d8 _ => 1#2
  | .d32 _ => 2#2

/-- Three fields of 2, 3 and 3 bits: the layout of ModRM and of SIB (rules R84, R85). -/
def byte233 (hi : BitVec 2) (mid lo : BitVec 3) : Byte := hi ++ mid ++ lo

/-- ModRM, SIB and displacement. -/
def encodeModRM (reg : BitVec 3) : RM → List Byte
  | .reg rm => [byte233 3#2 reg rm]
  | .mem (.rip d) => byte233 0#2 reg 5#3 :: bytesLe32 d
  | .mem (.base rm d) => byte233 (dispMod d) reg rm :: dispBytes d
  | .mem (.sib sc ix sb d) => byte233 (dispMod d) reg 4#3 :: byte233 sc ix sb :: dispBytes d
  | .mem (.sibNoBase sc ix d) => byte233 0#2 reg 4#3 :: byte233 sc ix 5#3 :: bytesLe32 d

/-- The second byte of the two-byte VEX prefix, pp = 01b (rule R89). -/
def vex2Byte (v : Vex2) (l : Bool) : Byte :=
  BitVec.ofBool (!v.r) ++ v.vvvv ++ BitVec.ofBool l ++ 1#2

/-- The second byte of the three-byte VEX prefix, mmmmm = 00001b (rule R88). -/
def vex3Byte1 (v : Vex3) : Byte :=
  BitVec.ofBool (!v.r) ++ BitVec.ofBool (!v.x) ++ BitVec.ofBool (!v.b) ++ 1#5

/-- The third byte of the three-byte VEX prefix, pp = 01b (rule R88). -/
def vex3Byte2 (v : Vex3) (l : Bool) : Byte :=
  BitVec.ofBool v.w ++ v.vvvv ++ BitVec.ofBool l ++ 1#2

/-- P0 of the EVEX prefix, mm = 01b (rules R96, R97). -/
def evexP0 (e : Evex) : Byte :=
  BitVec.ofBool (!e.r) ++ BitVec.ofBool (!e.x) ++ BitVec.ofBool (!e.b) ++ BitVec.ofBool (!e.rHi) ++ e.p0Res ++ 1#2

/-- P1 of the EVEX prefix, W = 1, pp = 01b (rules R96, R98). -/
def evexP1 (e : Evex) : Byte :=
  1#1 ++ e.vvvv ++ BitVec.ofBool e.p1Fix ++ 1#2

/-- P2 of the EVEX prefix (rules R96, R99). -/
def evexP2 (e : Evex) (ll : BitVec 2) : Byte :=
  BitVec.ofBool e.z ++ ll ++ BitVec.ofBool e.bcast ++ BitVec.ofBool e.vHi ++ e.aaa

/-- A legacy instruction's bytes (rule R87): prefixes, REX if any, 0Fh, opcode, ModRM and the rest. -/
def encodeLegacy (pre : List Prefix) (rex : List Rex) (op : Byte) (reg : BitVec 3) (rm : RM) : List Byte :=
  pre.map prefixByte ++ (rex.map (prefixByte ∘ .rex) ++ 0x0F#8 :: op :: encodeModRM reg rm)

/-- A two-byte VEX instruction's bytes (rules R89, R90). -/
def encodeVex2 (pre : List Prefix) (v : Vex2) (l : Bool) (op : Byte) (reg : BitVec 3) (rm : RM) : List Byte :=
  pre.map prefixByte ++ 0xC5#8 :: vex2Byte v l :: op :: encodeModRM reg rm

/-- A three-byte VEX instruction's bytes (rules R88, R90). -/
def encodeVex3 (pre : List Prefix) (v : Vex3) (l : Bool) (op : Byte) (reg : BitVec 3) (rm : RM) : List Byte :=
  pre.map prefixByte ++ 0xC4#8 :: vex3Byte1 v :: vex3Byte2 v l :: op :: encodeModRM reg rm

/-- An EVEX instruction's bytes (rules R96, R100). -/
def encodeEvex (pre : List Prefix) (e : Evex) (ll : BitVec 2) (op : Byte) (reg : BitVec 3) (rm : RM) : List Byte :=
  pre.map prefixByte ++ 0x62#8 :: evexP0 e :: evexP1 e :: evexP2 e ll :: op :: encodeModRM reg rm

/-- The bytes of an instruction, in stream order (rules R80, R122). -/
def encode : Instr → List Byte
  | .movapdLoad pre reg rm => encodeLegacy pre [] 0x28#8 reg rm
  | .movapdLoadRex pre rex reg rm => encodeLegacy pre [rex] 0x28#8 reg rm
  | .movapdStore pre reg rm => encodeLegacy pre [] 0x29#8 reg rm
  | .movapdStoreRex pre rex reg rm => encodeLegacy pre [rex] 0x29#8 reg rm
  | .vmovapdVex128LoadC5 pre v reg rm => encodeVex2 pre v false 0x28#8 reg rm
  | .vmovapdVex128LoadC4 pre v reg rm => encodeVex3 pre v false 0x28#8 reg rm
  | .vmovapdVex128StoreC5 pre v reg rm => encodeVex2 pre v false 0x29#8 reg rm
  | .vmovapdVex128StoreC4 pre v reg rm => encodeVex3 pre v false 0x29#8 reg rm
  | .vmovapdVex256LoadC5 pre v reg rm => encodeVex2 pre v true 0x28#8 reg rm
  | .vmovapdVex256LoadC4 pre v reg rm => encodeVex3 pre v true 0x28#8 reg rm
  | .vmovapdVex256StoreC5 pre v reg rm => encodeVex2 pre v true 0x29#8 reg rm
  | .vmovapdVex256StoreC4 pre v reg rm => encodeVex3 pre v true 0x29#8 reg rm
  | .vmovapdEvex128Load pre e reg rm => encodeEvex pre e 0#2 0x28#8 reg rm
  | .vmovapdEvex256Load pre e reg rm => encodeEvex pre e 1#2 0x28#8 reg rm
  | .vmovapdEvex512Load pre e reg rm => encodeEvex pre e 2#2 0x28#8 reg rm
  | .vmovapdEvex128Store pre e reg rm => encodeEvex pre e 0#2 0x29#8 reg rm
  | .vmovapdEvex256Store pre e reg rm => encodeEvex pre e 1#2 0x29#8 reg rm
  | .vmovapdEvex512Store pre e reg rm => encodeEvex pre e 2#2 0x29#8 reg rm

/-! ### Rows of the opcode table (log 7) -/

/-- The longest instruction (rule R115). -/
def maxLength : Nat := 15

/-- `n` bytes of `w`, the most significant first: the stream order in which the table writes `match` and
numbers `fixed` and `fields` (R122). -/
def bytesMsbFirst : Nat → Nat → List Byte
  | 0, _ => []
  | n + 1, w => BitVec.ofNat 8 (w / 256 ^ n) :: bytesMsbFirst n w

/-- `n` bytes of `w`, the least significant first. -/
def bytesLsbFirst : Nat → Nat → List Byte
  | 0, _ => []
  | n + 1, w => BitVec.ofNat 8 w :: bytesLsbFirst n (w / 256)

/-- Zero bytes up to the longest instruction. -/
def padded (bs : List Byte) : List Byte := bs ++ List.replicate (maxLength - bs.length) 0#8

/-- Is this a row's instruction? -/
def Decoded.isInstr : Decoded → Bool
  | .instr _ => true
  | _ => false

/-- The byte stream of a table word: the table's own numbering has the first byte in the highest bits; a word
that is no instruction in that order is read with its first byte in the lowest bits (log 7). -/
def tableStream (nbits w : Nat) : List Byte :=
  if (decode (padded (bytesMsbFirst ((nbits + 7) / 8) w))).isInstr
  then padded (bytesMsbFirst ((nbits + 7) / 8) w)
  else padded (bytesLsbFirst ((nbits + 7) / 8) w)

/-- The instruction the decoder reads from a table word. -/
def decodeTableWord (nbits w : Nat) : Option Instr :=
  match decode (tableStream nbits w) with
  | .instr i => some i
  | _ => none

end Sys2Proof
end

