-- ==== Sys2Proof/Machine/State.lean ====
section
/-!
DEFINITION. The state of the machine (rule R39 and, beside it, the configuration of R7), the reasons a step
can stop, and the state after reset. INVENTORY.md's '## State' lists every field with the rule that names it.
-/

namespace Sys2Proof.Machine

/-- Memory: bytes by linear address, in the canonical form of `Memory.wf` (addresses strictly rising, no entry
equal to what an unlisted address reads as). -/
abbrev Memory := List Host.Cell

/-- The exceptions of the family (rule R172). Each is terminal (R15, R170, R187), leaves the state before the
instruction, and records the address of the instruction's first byte. -/
inductive Fault where
  /-- #UD, invalid opcode: raised by the decoder for the reserved EVEX fields and by every meaning at stage 3
  of the step frame (rules R174 to R179). Safe: the hardware stops the instruction too. -/
  | ud (pc : Word)
  /-- #NM, device not available: raised by every meaning when `TS` (rule R180). Safe, as above. -/
  | nm (pc : Word)
  /-- #SS, stack-segment fault: raised by a meaning whose accessed byte is non-canonical under the SS segment
  (rule R182). Safe, as above. -/
  | ss (code : ErrCode) (pc : Word)
  /-- #GP, general protection: raised by fetch from a non-canonical address, by a length over 15, by a
  misaligned operand and by a non-canonical accessed byte (rules R181, R182). Safe, as above. -/
  | gp (code : ErrCode) (pc : Word)
  /-- #PF, page fault: raised where `Translate` faults a fetched or accessed byte; `addr` is the faulting linear
  address (rules R172, R182). Safe, as above; which byte of an access is recorded is log 11. -/
  | pf (code : ErrCode) (addr : Word) (pc : Word)
deriving DecidableEq, Repr

/-- The situations the spec gives no meaning (rule R171), each refused by name. All are safe: a refused run
proves nothing about the chip. -/
inductive Refusal where
  /-- an instruction this model gives no meaning; no arm of `exec` uses it. Safe. -/
  | notModelled (mnemonic : String)
  /-- `unlisted`: the decoder, on bytes that are no encoding of the family (R117, R171). Safe. -/
  | unlisted
  /-- `prefix`: the decoder, on a prefix sequence rule R82 does not admit. Safe. -/
  | badPrefix
  /-- `mode`: a step or a meaning, in a mode other than 64-bit mode (decision D1). Safe. -/
  | mode
  /-- `unmapped`: a fetch or an access of a byte outside `MAPPED` (R64). Safe. -/
  | unmapped
  /-- `code_write`: a store any byte of which falls on the program text (R72). Safe. -/
  | codeWrite
  /-- `pc_range`: an instruction after which the pc would wrap or be non-canonical (R26, D19). Safe. -/
  | pcRange
  /-- the pc is `END_ADDR`: the run is over and nothing is fetched (R207; log 6). Safe. -/
  | runOver
deriving DecidableEq, Repr

/-- Why a step has no next state. -/
inductive Stop where
  | fault (f : Fault)
  | refuse (r : Refusal)
deriving DecidableEq, Repr

/-- The machine: rule R39's record, the two registers R30 and R31 name beside it (log 3), and the configuration
of rule R7 (log 1). -/
structure State where
  /-- the parameters of rule R7; no step changes them -/
  cfg : Config
  /-- `v[0..31]` (R20), in 512-bit containers (log 16) -/
  v : Vector Vec 32
  /-- `k[0..7]` (R24), in 64-bit containers (log 16) -/
  k : Vector Word 8
  /-- `x[0..15]` (R27) -/
  x : Vector Word 16
  /-- RIP (R26) -/
  pc : Word
  /-- `FS_BASE` (R29) -/
  fsBase : Word
  /-- `GS_BASE` (R29) -/
  gsBase : Word
  /-- RFLAGS (R30): neither read nor written -/
  rflags : Word
  /-- MXCSR (R31): neither read nor written -/
  mxcsr : BitVec 32
  /-- memory (R37, R50) -/
  mem : Memory
deriving DecidableEq, Repr

/-- What a step answers. -/
abbrev Result := Host.Outcome State Fault Refusal

/-- The state after reset. Rule R45 gives no value ("launch parameter") and forbids building in the general-
knowledge ones: zero everywhere (DESIGN CHOICE, log 2), RFLAGS and MXCSR the family's (PRESUMED, log 3), memory
with nothing listed (log 5), the configuration R7's default (log 4). -/
def State.reset : State where
  cfg := Config.full
  v := Vector.replicate 32 0#512
  k := Vector.replicate 8 0#64
  x := Vector.replicate 16 0#64
  pc := 0#64
  fsBase := 0#64
  gsBase := 0#64
  rflags := 2#64
  mxcsr := 0x1F80#32
  mem := []

end Sys2Proof.Machine
end

