-- ==== Sys2Proof/Machine/Flags.lean ====
section
/-!
DEFINITION. Flags. The family computes no status flag and no MXCSR flag (rules R30, R31, R184), so there is no
flag computation here. What the spec gives are the flags the family TESTS: the CPUID feature flags and what
follows from them (R7, R36), and the operating-system enables with the control-register bits they stand for
(R33, R34).
-/

namespace Sys2Proof.Machine

/-! ### CPUID feature flags (rules R7, R36) -/

/-- `MAXVL`: 512 iff AVX512F, else 256 iff AVX, else 128 (rule R7). -/
def maxvl (c : Config) : Nat :=
  if c.hasAVX512F then 512 else if c.hasAVX then 256 else 128

/-- `NVREG`: 32 in 64-bit mode with AVX512F, else 16 in 64-bit mode, 8 outside (rule R7). -/
def nvreg (c : Config) : Nat :=
  if c.mode = .long64 then (if c.hasAVX512F then 32 else 16) else 8

/-- `KW` in bits (rule R7). -/
def maskBits (c : Config) : Nat :=
  match c.maskWidth with
  | .w16 => 16
  | .w64 => 64

/-- `LA_BITS` (rule R7). -/
def laBitsOf (c : Config) : Nat :=
  match c.laBits with
  | .la48 => 48
  | .la57 => 57

/-- SSE2 is CPUID.01H:EDX[26] (rule R36). -/
def sse2Of (edx1 : BitVec 32) : Bool := edx1.getLsbD 26

/-- AVX is CPUID.01H:ECX[28] (rule R36). -/
def avxOf (ecx1 : BitVec 32) : Bool := ecx1.getLsbD 28

/-- AVX512F is CPUID.(EAX=07H, ECX=0):EBX[16] (rule R36). -/
def avx512fOf (ebx7 : BitVec 32) : Bool := ebx7.getLsbD 16

/-- AVX512VL is CPUID.(EAX=07H, ECX=0):EBX[31] (rule R36). -/
def avx512vlOf (ebx7 : BitVec 32) : Bool := ebx7.getLsbD 31

/-- The configuration with the feature flags CPUID reports (rule R36). -/
def withCpuid (c : Config) (edx1 ecx1 ebx7 : BitVec 32) : Config :=
  { c with
    hasSSE2 := sse2Of edx1
    hasAVX := avxOf ecx1
    hasAVX512F := avx512fOf ebx7
    hasAVX512VL := avx512vlOf ebx7 }

/-! ### Operating-system enables (rules R33, R34) -/

/-- `OS_SSE` = (CR0.EM = 0 and CR4.OSFXSR = 1) (rule R34; bits 2 and 9, R33). -/
def osSSEOf (cr0 cr4 : Word) : Bool := !cr0.getLsbD 2 && cr4.getLsbD 9

/-- `OS_AVX` = (CR4.OSXSAVE = 1 and XCR0[2:1] = 11b) (rule R34; CR4 bit 18, R33). -/
def osAVXOf (cr4 xcr0 : Word) : Bool := cr4.getLsbD 18 && xcr0.getLsbD 1 && xcr0.getLsbD 2

/-- `OS_AVX512` = (`OS_AVX` and XCR0[7:5] = 111b) (rules R33, R34). -/
def osAVX512Of (cr4 xcr0 : Word) : Bool :=
  osAVXOf cr4 xcr0 && xcr0.getLsbD 5 && xcr0.getLsbD 6 && xcr0.getLsbD 7

/-- `TS` = CR0.TS, bit 3 (rules R33, R34). -/
def tsOf (cr0 : Word) : Bool := cr0.getLsbD 3

/-- The configuration with the enables that CR0, CR4 and XCR0 stand for (rule R34). -/
def withControlRegisters (c : Config) (cr0 cr4 xcr0 : Word) : Config :=
  { c with
    osSSE := osSSEOf cr0 cr4
    osAVX := osAVXOf cr4 xcr0
    osAVX512 := osAVX512Of cr4 xcr0
    ts := tsOf cr0 }

/-- The constraints on a configuration: AVX512VL only with AVX512F (R7), OS_AVX512 only with OS_AVX (R34). -/
def configOk (c : Config) : Bool :=
  (!c.hasAVX512VL || c.hasAVX512F) && (!c.osAVX512 || c.osAVX)

end Sys2Proof.Machine
end

