-- ==== Sys2Proof/Machine/Memory.lean ====
section
/-!
DEFINITION. Memory: reading and writing one byte of the canonical list, its canonical form, and the primitives
of rules R52 to R54 over it, in the byte order of rule R55. The checks of R52 to R54 (canonical, `Translate`,
`MAPPED`) are `accessStop` of `Sys2Proof/Machine/Ops.lean`.
-/

namespace Sys2Proof.Machine

/-- What an address the list does not name reads as: 0 (DESIGN CHOICE, log 5). -/
def unlistedByte : Byte := 0#8

/-- The byte at an address. -/
def Memory.read : Memory → Nat → Byte
  | [], _ => unlistedByte
  | (b, y) :: rest, a => if a = b then y else Memory.read rest a

/-- An entry for an address below all others of the list, unless it says what an unlisted address reads as. -/
def Memory.cons (a : Nat) (y : Byte) (m : Memory) : Memory :=
  if y = unlistedByte then m else (a, y) :: m

/-- Write one byte, keeping the canonical form. -/
def Memory.write : Memory → Nat → Byte → Memory
  | [], a, y => Memory.cons a y []
  | (b, z) :: rest, a, y =>
    if a < b then Memory.cons a y ((b, z) :: rest)
    else if a = b then Memory.cons a y rest
    else (b, z) :: Memory.write rest a y

/-- The list from an address on is canonical: addresses strictly rising from `lo` and below 2^64 (R50), no entry
equal to what an unlisted address reads as. -/
def Memory.wfFrom : Nat → Memory → Bool
  | _, [] => true
  | lo, (a, y) :: rest =>
    decide (lo ≤ a) && decide (a < 2 ^ 64) && decide (y ≠ unlistedByte) && Memory.wfFrom (a + 1) rest

/-- The canonical form. -/
def Memory.wf (m : Memory) : Bool := Memory.wfFrom 0 m

/-- The address of offset `t` of an operand, modulo 2^64 (rule R52). -/
def byteAddr (addr : Word) (t : Nat) : Word := addr + BitVec.ofNat 64 t

/-- The byte at offset `t` of an operand. -/
def readAt (m : Memory) (addr : Word) (t : Nat) : Byte := Memory.read m (byteAddr addr t).toNat

/-- Bytes joined with the first in the lowest bits: little-endian (rules R52, R55). -/
def joinBytes : List Byte → Vec
  | [] => 0#512
  | b :: bs => (joinBytes bs <<< 8) ||| b.setWidth 512

/-- Byte `t` of a value (rules R53, R55). -/
def byteOf (val : Vec) (t : Nat) : Byte := val.extractLsb' (8 * t) 8

/-- `MemReadMasked(addr, n, bm)`: the enabled bytes of the operand, 0 elsewhere (rule R54). -/
def memReadMasked (m : Memory) (addr : Word) (n : Nat) (bm : Nat → Bool) : Vec :=
  joinBytes ((List.range n).map fun t => if bm t then readAt m addr t else 0#8)

/-- `MemRead(addr, n)` (rule R52). -/
def memRead (m : Memory) (addr : Word) (n : Nat) : Vec := memReadMasked m addr n fun _ => true

/-- Write the listed offsets of an operand, one after the other. -/
def writeOffsets (addr : Word) (val : Vec) : List Nat → Memory → Memory
  | [], m => m
  | t :: ts, m => writeOffsets addr val ts (Memory.write m (byteAddr addr t).toNat (byteOf val t))

/-- `MemWriteMasked(addr, n, val, bm)`: writes the enabled bytes of the operand and nothing else (rule R54). -/
def memWriteMasked (m : Memory) (addr : Word) (n : Nat) (val : Vec) (bm : Nat → Bool) : Memory :=
  writeOffsets addr val ((List.range n).filter bm) m

/-- `MemWrite(addr, n, val)` (rule R53). -/
def memWrite (m : Memory) (addr : Word) (n : Nat) (val : Vec) : Memory := memWriteMasked m addr n val fun _ => true

end Sys2Proof.Machine
end

