-- ==== Sys2Proof/Machine/Ops.lean ====
section
/-!
DEFINITION. The named operations over registers and memory: raising an exception (rule R170), register access
(R10), lanes of a vector register (R150), canonical addresses (R65), translation (R66), the address map (R64,
R72), the checks of an access in their order (R185), and the advance of the pc (R26).
-/

namespace Sys2Proof.Machine

/-! ### Exceptions (rules R15, R170 to R172) -/

/-- `raise #XX(code)`: taking an exception. The instruction ends with it, no register and no memory byte has
changed, and the address of the instruction's first byte is recorded; delivery to a handler is out of scope, so
the outcome is terminal (R170, R187). There is no return from one (R188). -/
def raise (exc : Word → Fault) (s : State) : Stop := .fault (exc s.pc)

/-- The step outcome of a stop (rule R15). -/
def Stop.out : Stop → Result
  | .fault f => .fault f
  | .refuse r => .refused r

/-- The vector number (rule R172). -/
def Fault.vector : Fault → Nat
  | .ud _ => 6
  | .nm _ => 7
  | .ss _ _ => 12
  | .gp _ _ => 13
  | .pf _ _ _ => 14

/-- The error code, where the exception has one (rule R172). -/
def Fault.errorCode : Fault → Option ErrCode
  | .ud _ => none
  | .nm _ => none
  | .ss c _ => some c
  | .gp c _ => some c
  | .pf c _ _ => some c

/-- The recorded instruction pointer (rules R170, R172). -/
def Fault.faultingPc : Fault → Word
  | .ud p => p
  | .nm p => p
  | .ss _ p => p
  | .gp _ p => p
  | .pf _ _ p => p

/-! ### Registers (rules R10, R20, R24, R27) -/

/-- `v[n]`: the whole vector register. -/
def State.readV (s : State) (n : BitVec 5) : Vec := s.v[n.toNat]'n.isLt

/-- `v[n] <- e`: the whole vector register; no other state. -/
def State.writeV (s : State) (n : BitVec 5) (e : Vec) : State := { s with v := s.v.set n.toNat e n.isLt }

/-- `k[a]`: an opmask register. -/
def State.readK (s : State) (a : BitVec 3) : Word := s.k[a.toNat]'a.isLt

/-- `x[i]`: a general register; none is hard-wired. -/
def State.readX (s : State) (i : BitVec 4) : Word := s.x[i.toNat]'i.isLt

/-- XMMn, the low 128 bits of vector register n (rule R21). -/
def State.xmm (s : State) (n : BitVec 5) : BitVec 128 := (s.readV n).extractLsb' 0 128

/-- YMMn, the low 256 bits of vector register n (rule R21). -/
def State.ymm (s : State) (n : BitVec 5) : BitVec 256 := (s.readV n).extractLsb' 0 256

/-! ### Lanes (rule R150) -/

/-- Element j: bits 64j+63 to 64j. -/
def lane (a : Vec) (j : Nat) : Word := a.extractLsb' (64 * j) 64

/-- The register whose element j is `f j`. -/
def ofLanes (f : Nat → Word) : Vec :=
  f 7 ++ f 6 ++ f 5 ++ f 4 ++ f 3 ++ f 2 ++ f 1 ++ f 0

/-! ### Addresses (rules R64 to R66, R72) -/

/-- Bits 63 down to LA_BITS-1 are all equal (rule R65). -/
def canonical (c : Config) (a : Word) : Bool :=
  decide (a.toNat < 2 ^ (laBitsOf c - 1)) || decide (2 ^ 64 - 2 ^ (laBitsOf c - 1) ≤ a.toNat)

/-- Is the address in the region? -/
def inRegion (a : Word) (r : Region) : Bool := decide (r.first ≤ a.toNat) && decide (a.toNat < r.first + r.size)

/-- Is the address in `MAPPED` (rule R64)? -/
def isMapped (c : Config) (a : Word) : Bool := c.mapped.any (inRegion a)

/-- Is the address a byte of the program text (rule R72)? -/
def isText (c : Config) (a : Word) : Bool := c.text.any (inRegion a)

/-- `Translate` for one byte: the page fault it answers, if it does not succeed (rule R66; log 11). -/
def translateFault (c : Config) (kind : Access) (a : Word) : Option ErrCode :=
  (c.denied.find? fun d => d.kind == kind && inRegion a d.region).map Denial.code

/-- The linear addresses an access touches: the enabled bytes of the operand (rules R54, R130 stage 5). -/
def accessed (addr : Word) (n : Nat) (bm : Nat → Bool) : List Word :=
  ((List.range n).filter bm).map (byteAddr addr)

/-- The first byte of the list that `Translate` faults, with the fault. -/
def firstPageFault (c : Config) (kind : Access) : List Word → Option (ErrCode × Word)
  | [] => none
  | a :: rest =>
    match translateFault c kind a with
    | some code => some (code, a)
    | none => firstPageFault c kind rest

/-- Alignment (rule R57): of the operand, whatever the mask (R58). -/
def alignStop (addr : Word) (n : Nat) (s : State) : Option Stop :=
  if addr.toNat % n = 0 then none else some (raise (.gp 0) s)

/-- A non-canonical accessed byte: #SS(0) under the SS segment, else #GP(0) (rules R65, R181, R182). -/
def canonicalStop (bytes : List Word) (stack : Bool) (s : State) : Option Stop :=
  if bytes.all (canonical s.cfg) then none else some (raise (if stack then .ss 0 else .gp 0) s)

/-- A byte `Translate` faults (rules R66, R182). -/
def pageStop (kind : Access) (bytes : List Word) (s : State) : Option Stop :=
  (firstPageFault s.cfg kind bytes).map fun e => raise (.pf e.1 e.2) s

/-- A byte outside `MAPPED` (rule R64). -/
def mapStop (bytes : List Word) (s : State) : Option Stop :=
  if bytes.all (isMapped s.cfg) then none else some (.refuse .unmapped)

/-- A store onto the program text (rule R72). -/
def textStop (kind : Access) (bytes : List Word) (s : State) : Option Stop :=
  if kind = .write ∧ bytes.any (isText s.cfg) then some (.refuse .codeWrite) else none

/-- The checks of a memory operand, in the order of rule R185 (5) to (8). -/
def accessStop (kind : Access) (addr : Word) (n : Nat) (bm : Nat → Bool) (stack : Bool) (s : State) : Option Stop :=
  alignStop addr n s
    <|> canonicalStop (accessed addr n bm) stack s
    <|> pageStop kind (accessed addr n bm) s
    <|> mapStop (accessed addr n bm) s
    <|> textStop kind (accessed addr n bm) s

/-! ### The end of an instruction (rule R26) -/

/-- The pc after an instruction of `len` bytes neither wraps nor is non-canonical (rule R26, decision D19). -/
def pcFits (s : State) (len : Nat) : Bool :=
  decide (s.pc.toNat + len < 2 ^ 64) && canonical s.cfg (s.pc + BitVec.ofNat 64 len)

/-- `pc <- pc + L` on the state that holds the instruction's other effects, or `refuse(pc_range)`. -/
def advance (len : Nat) (t : State) : Result :=
  if pcFits t len then .next { t with pc := t.pc + BitVec.ofNat 64 len } else .refused .pcRange

end Sys2Proof.Machine
end

