-- ==== Sys2Proof/Machine/Operands.lean ====
section
/-!
DEFINITION. Operands: what decoding gives the step frame (stage 1 of rule R130), for every class and every
operand form: register numbers (R87, R91, R92, R101), the length (R114), the effective and the linear address
(R108 to R112, R119), the segment (R113), the element mask (R151), and the stops of stages 2 to 5.
-/

namespace Sys2Proof.Machine

/-- The three encoding classes (rule R80). -/
inductive EncClass where
  | legacy
  | vex
  | evex
deriving DecidableEq, Repr

/-- The register-extension bits of an instruction (not inverted): R, X, B and, in the EVEX class, R'. -/
structure Ext where
  r : Bool
  x : Bool
  b : Bool
  rHi : Bool
deriving DecidableEq, Repr

/-- No REX byte: the extension bits are 0 (rule R87). -/
def extNone : Ext := ⟨false, false, false, false⟩

/-- REX.R, REX.X, REX.B (rule R83). -/
def extRex (p : Rex) : Ext := ⟨p.r, p.x, p.b, false⟩

/-- The two-byte VEX prefix implies X = B = 0 (rules R89, R92). -/
def extVex2 (p : Vex2) : Ext := ⟨p.r, false, false, false⟩

/-- VEX.R, VEX.X, VEX.B (rule R91). -/
def extVex3 (p : Vex3) : Ext := ⟨p.r, p.x, p.b, false⟩

/-- EVEX.R, EVEX.X, EVEX.B, EVEX.R' (rule R101). -/
def extEvex (p : Evex) : Ext := ⟨p.r, p.x, p.b, p.rHi⟩

/-- VL in bits (rule R150). -/
def vlBits : VL → Nat
  | .v128 => 128
  | .v256 => 256
  | .v512 => 512

/-- KL = VL/64, the number of elements (rule R150). -/
def vlLanes : VL → Nat
  | .v128 => 2
  | .v256 => 4
  | .v512 => 8

/-- n = VL/8, the memory operand's size in bytes (rule R150). -/
def vlBytes : VL → Nat
  | .v128 => 16
  | .v256 => 32
  | .v512 => 64

/-! ### Register numbers -/

/-- `reg_num`: R' ++ R ++ ModRM.reg (rules R87, R91, R92, R101; R' = 0 outside the EVEX class). -/
def regNum (e : Ext) (reg : BitVec 3) : BitVec 5 := BitVec.ofBool e.rHi ++ BitVec.ofBool e.r ++ reg

/-- `rm_num` when `mod = 11b`: B ++ ModRM.rm, and in the EVEX class X ++ B ++ ModRM.rm (rules R87, R91, R92,
R101). -/
def rmNum (cls : EncClass) (e : Ext) (rm : BitVec 3) : BitVec 5 :=
  match cls with
  | .legacy => 0#1 ++ BitVec.ofBool e.b ++ rm
  | .vex => 0#1 ++ BitVec.ofBool e.b ++ rm
  | .evex => BitVec.ofBool e.x ++ BitVec.ofBool e.b ++ rm

/-- The base register's number: B ++ rm or B ++ SIB.base (rules R108, R110). -/
def baseNum (e : Ext) (rm : BitVec 3) : BitVec 4 := BitVec.ofBool e.b ++ rm

/-- The index register's number: X ++ SIB.index (rule R110). -/
def indexNum (e : Ext) (index : BitVec 3) : BitVec 4 := BitVec.ofBool e.x ++ index

/-! ### What decoding gives (stage 1 of rule R130) -/

/-- One instruction as the step frame sees it: the class, VL, the bytes before the pattern, the extension bits,
ModRM.reg, the r/m operand, `aaa`, z, the length L, and whether an encoding reason for #UD holds (R174, R179). -/
structure Form where
  cls : EncClass
  vl : VL
  pre : List Prefix
  ext : Ext
  reg : BitVec 3
  rm : RM
  aaa : BitVec 3
  z : Bool
  len : Nat
  badEncoding : Bool
deriving DecidableEq, Repr

/-- The prefixes that raise #UD before VEX or EVEX: LOCK, 66h, F2h, F3h, REX (rules R94, R179). -/
def vexForbidden : Prefix → Bool
  | .lock => true
  | .opSize => true
  | .repne => true
  | .rep => true
  | .rex _ => true
  | .addrSize => false
  | .seg _ => false

/-- A legacy form: 128 bits, no mask; the only encoding reason for #UD is LOCK (rules R87, R134, R179). `rexLen`
is 1 if a REX byte is there. -/
def legacyForm (pre : List Prefix) (rexLen : Nat) (ext : Ext) (reg : BitVec 3) (rm : RM) : Form where
  cls := .legacy
  vl := .v128
  pre := pre
  ext := ext
  reg := reg
  rm := rm
  aaa := 0
  z := false
  len := pre.length + rexLen + 2 + 1 + rmLen rm
  badEncoding := pre.contains .lock

/-- A VEX form with a prefix of `prefixLen` bytes: no mask; #UD on a forbidden prefix or `vvvv ≠ 1111b`
(rules R93, R94, R140). -/
def vexForm (prefixLen : Nat) (vl : VL) (pre : List Prefix) (ext : Ext) (vvvv : BitVec 4) (reg : BitVec 3) (rm : RM) : Form where
  cls := .vex
  vl := vl
  pre := pre
  ext := ext
  reg := reg
  rm := rm
  aaa := 0
  z := false
  len := pre.length + prefixLen + 1 + 1 + rmLen rm
  badEncoding := pre.any vexForbidden || vvvv != 15#4

/-- Is the r/m operand memory? -/
def rmIsMem : RM → Bool
  | .reg _ => false
  | .mem _ => true

/-- The encoding reasons for #UD of an EVEX form: `vvvv ≠ 1111b`, V' ≠ 1, P0[3:2] ≠ 00b, P1[2] ≠ 1 (R102),
b = 1 (R105), z = 1 with a memory destination or without a writemask (R104). `store` says opcode 29h. -/
def evexViolated (e : Evex) (store : Bool) (rm : RM) : Bool :=
  e.vvvv != 15#4 || !e.vHi || e.p0Res != 0#2 || !e.p1Fix || e.bcast
    || (e.z && (e.aaa == 0#3 || (store && rmIsMem rm)))

/-- An EVEX form (rules R100, R101, R161). -/
def evexForm (vl : VL) (store : Bool) (pre : List Prefix) (e : Evex) (reg : BitVec 3) (rm : RM) : Form where
  cls := .evex
  vl := vl
  pre := pre
  ext := extEvex e
  reg := reg
  rm := rm
  aaa := e.aaa
  z := e.z
  len := pre.length + 4 + 1 + 1 + rmLen rm
  badEncoding := pre.any vexForbidden || evexViolated e store rm

/-- The form of each instruction of the table. -/
def formOf : Instr → Form
  | .movapdLoad pre reg rm => legacyForm pre 0 extNone reg rm
  | .movapdLoadRex pre rex reg rm => legacyForm pre 1 (extRex rex) reg rm
  | .movapdStore pre reg rm => legacyForm pre 0 extNone reg rm
  | .movapdStoreRex pre rex reg rm => legacyForm pre 1 (extRex rex) reg rm
  | .vmovapdVex128LoadC5 pre v reg rm => vexForm 2 .v128 pre (extVex2 v) v.vvvv reg rm
  | .vmovapdVex128LoadC4 pre v reg rm => vexForm 3 .v128 pre (extVex3 v) v.vvvv reg rm
  | .vmovapdVex128StoreC5 pre v reg rm => vexForm 2 .v128 pre (extVex2 v) v.vvvv reg rm
  | .vmovapdVex128StoreC4 pre v reg rm => vexForm 3 .v128 pre (extVex3 v) v.vvvv reg rm
  | .vmovapdVex256LoadC5 pre v reg rm => vexForm 2 .v256 pre (extVex2 v) v.vvvv reg rm
  | .vmovapdVex256LoadC4 pre v reg rm => vexForm 3 .v256 pre (extVex3 v) v.vvvv reg rm
  | .vmovapdVex256StoreC5 pre v reg rm => vexForm 2 .v256 pre (extVex2 v) v.vvvv reg rm
  | .vmovapdVex256StoreC4 pre v reg rm => vexForm 3 .v256 pre (extVex3 v) v.vvvv reg rm
  | .vmovapdEvex128Load pre e reg rm => evexForm .v128 false pre e reg rm
  | .vmovapdEvex256Load pre e reg rm => evexForm .v256 false pre e reg rm
  | .vmovapdEvex512Load pre e reg rm => evexForm .v512 false pre e reg rm
  | .vmovapdEvex128Store pre e reg rm => evexForm .v128 true pre e reg rm
  | .vmovapdEvex256Store pre e reg rm => evexForm .v256 true pre e reg rm
  | .vmovapdEvex512Store pre e reg rm => evexForm .v512 true pre e reg rm

/-! ### Memory operands -/

/-- The displacement as a 64-bit value: disp8 is scaled by N = the operand's size in the EVEX class only, disp32
never (rule R111). -/
def dispVal (cls : EncClass) (vl : VL) : Disp → Word
  | .none => 0#64
  | .d8 v => if cls = .evex then v.signExtend 64 * BitVec.ofNat 64 (vlBytes vl) else v.signExtend 64
  | .d32 v => v.signExtend 64

/-- `index_val * 2^scale`; index number 0100b is no index (rule R110). -/
def indexVal (s : State) (e : Ext) (scale : BitVec 2) (index : BitVec 3) : Word :=
  if indexNum e index = 4#4 then 0#64 else s.readX (indexNum e index) <<< scale.toNat

/-- The address of the next instruction, `pc + L` (rules R26, R109). -/
def nextPc (s : State) (len : Nat) : Word := s.pc + BitVec.ofNat 64 len

/-- The effective address in 64-bit addressing, modulo 2^64 (rules R108 to R110). -/
def effectiveAddr64 (f : Form) (m : MemOperand) (s : State) : Word :=
  match m with
  | .rip d => nextPc s f.len + d.signExtend 64
  | .base rm d => s.readX (baseNum f.ext rm) + dispVal f.cls f.vl d
  | .sib sc ix sb d => s.readX (baseNum f.ext sb) + indexVal s f.ext sc ix + dispVal f.cls f.vl d
  | .sibNoBase sc ix d => indexVal s f.ext sc ix + d.signExtend 64

/-- The effective address: under 67h its low 32 bits, zero-extended (rule R119; sums modulo 2^64 taken modulo
2^32 are sums of the low 32 bits). -/
def effectiveAddr (f : Form) (m : MemOperand) (s : State) : Word :=
  if f.pre.contains .addrSize then ((effectiveAddr64 f m s).setWidth 32).setWidth 64 else effectiveAddr64 f m s

/-- Is there an FS or GS override? -/
def fsGsOverride (f : Form) : Bool := f.pre.contains (.seg .fs) || f.pre.contains (.seg .gs)

/-- The segment base added: FS_BASE, GS_BASE or 0 (rule R112). -/
def segBase (f : Form) (s : State) : Word :=
  if f.pre.contains (.seg .fs) then s.fsBase
  else if f.pre.contains (.seg .gs) then s.gsBase
  else 0#64

/-- `addr`, the linear address of the memory operand (rule R112). -/
def linearAddr (f : Form) (m : MemOperand) (s : State) : Word := segBase f s + effectiveAddr f m s

/-- The number of the base register, if the addressing form has one (rules R108, R110). -/
def baseOf (f : Form) : MemOperand → Option (BitVec 4)
  | .rip _ => none
  | .base rm _ => some (baseNum f.ext rm)
  | .sib _ _ sb _ => some (baseNum f.ext sb)
  | .sibNoBase _ _ _ => none

/-- Does the access use the SS segment: base register 4 (RSP) or 5 (RBP) and no FS/GS override (rule R113)? -/
def usesStack (f : Form) (m : MemOperand) : Bool :=
  !fsGsOverride f && (baseOf f m == some 4#4 || baseOf f m == some 5#4)

/-! ### The writemask -/

/-- `m[j]` (rule R151): 1 without a writemask (`aaa` = 000b, and the legacy and VEX classes), else bit j of
`k[aaa]`. -/
def elemMask (f : Form) (s : State) (j : Nat) : Bool := f.aaa == 0#3 || (s.readK f.aaa).getLsbD j

/-- The byte mask of an element mask: `bm[8j+b] = m[j]` (rule R54). -/
def byteMask (f : Form) (s : State) (t : Nat) : Bool := elemMask f s (t / 8)

/-! ### The stops of stages 2 to 5 (rule R130) -/

/-- Only 64-bit mode is admitted (decision D1). -/
def modeStop (s : State) : Option Stop := if s.cfg.mode = .long64 then none else some (.refuse .mode)

/-- Stage 2: an instruction longer than 15 bytes raises #GP(0) (rule R115). -/
def lengthStop (f : Form) (s : State) : Option Stop := if f.len ≤ maxLength then none else some (raise (.gp 0) s)

/-- The CPUID flags the form needs (rules R106, R175). -/
def featureOk (f : Form) (c : Config) : Bool :=
  match f.cls with
  | .legacy => c.hasSSE2
  | .vex => c.hasAVX
  | .evex => c.hasAVX512F && (f.vl == .v512 || c.hasAVX512VL)

/-- The operating-system enable the form needs (rule R178). -/
def osOk (f : Form) (c : Config) : Bool :=
  match f.cls with
  | .legacy => c.osSSE
  | .vex => c.osAVX
  | .evex => c.osAVX512

/-- Stage 3: every reason for #UD (rules R174 to R179). -/
def udStop (f : Form) (s : State) : Option Stop :=
  if f.badEncoding || !featureOk f s.cfg || !osOk f s.cfg then some (raise .ud s) else none

/-- Stage 4: #NM (rule R180). -/
def nmStop (s : State) : Option Stop := if s.cfg.ts then some (raise .nm s) else none

/-- Stage 5: the checks of a memory operand; a register operand has none (rules R57 to R59, R130). -/
def operandStop (f : Form) (kind : Access) (s : State) : Option Stop :=
  match f.rm with
  | .reg _ => none
  | .mem m => accessStop kind (linearAddr f m s) (vlBytes f.vl) (byteMask f s) (usesStack f m) s

/-- Stages 2 to 5 in order (rules R130, R185); `kind` is the access a memory operand makes. -/
def stopOf (f : Form) (kind : Access) (s : State) : Option Stop :=
  modeStop s <|> lengthStop f s <|> udStop f s <|> nmStop s <|> operandStop f kind s

end Sys2Proof.Machine
end

