-- ==== Sys2Proof/Machine/Move.lean ====
section
/-!
DEFINITION. The move, shared by all forms: what a register destination becomes in each class (rules R131, R132,
R141, R152), and the two directions, opcode 28h and opcode 29h (R116, R130 stages 6 and 7).
-/

namespace Sys2Proof.Machine

/-- Legacy: the low KL elements are the source's, the bits above keep their value (rule R132). -/
def keepAbove (kl : Nat) (old src : Vec) : Vec :=
  ofLanes fun j => if j < kl then lane src j else lane old j

/-- VEX: the low KL elements are the source's, every bit above is 0 (rules R141, R143). -/
def zeroAbove (kl : Nat) (src : Vec) : Vec :=
  ofLanes fun j => if j < kl then lane src j else 0#64

/-- EVEX: an enabled element is the source's; a masked-off one keeps its value (merging) or becomes 0 (zeroing);
every bit above is 0 (rule R152). -/
def blend (kl : Nat) (old src : Vec) (m : Nat → Bool) (z : Bool) : Vec :=
  ofLanes fun j => if j < kl then (if m j then lane src j else if z then 0#64 else lane old j) else 0#64

/-- The new value of a register destination that held `old` (rule R23). -/
def destValue (f : Form) (s : State) (old src : Vec) : Vec :=
  match f.cls with
  | .legacy => keepAbove (vlLanes f.vl) old src
  | .vex => zeroAbove (vlLanes f.vl) src
  | .evex => blend (vlLanes f.vl) old src (elemMask f s) f.z

/-- The state with register destination `d` written. -/
def writeDest (f : Form) (d : BitVec 5) (src : Vec) (s : State) : State :=
  s.writeV d (destValue f s (s.readV d) src)

/-- The r/m operand as a source: a register, or the enabled bytes of memory (rules R132, R160). -/
def rmSource (f : Form) (s : State) : Vec :=
  match f.rm with
  | .reg rm => s.readV (rmNum f.cls f.ext rm)
  | .mem m => memReadMasked s.mem (linearAddr f m s) (vlBytes f.vl) (byteMask f s)

/-- Opcode 28h: the destination is register `reg_num`, the source the r/m operand (rule R116). -/
def moveToReg (f : Form) (s : State) : Result :=
  match stopOf f .read s with
  | some st => st.out
  | none => advance f.len (writeDest f (regNum f.ext f.reg) (rmSource f s) s)

/-- Opcode 29h: the source is register `reg_num`; the destination is a register, a register copy (C5), or
memory, a store of the enabled bytes (rules R116, R133, R159). -/
def moveFromReg (f : Form) (s : State) : Result :=
  match stopOf f .write s with
  | some st => st.out
  | none =>
    match f.rm with
    | .reg rm => advance f.len (writeDest f (rmNum f.cls f.ext rm) (s.readV (regNum f.ext f.reg)) s)
    | .mem m =>
      advance f.len
        { s with
          mem := memWriteMasked s.mem (linearAddr f m s) (vlBytes f.vl) (s.readV (regNum f.ext f.reg)) (byteMask f s) }

end Sys2Proof.Machine
end

