-- ==== Sys2Proof/Machine/Evex.lean ====
section
/-!
DEFINITION. VMOVAPD, the EVEX forms with opmask merging and zeroing (`42_vmovapd_evex.md`).
-/

namespace Sys2Proof.Machine

/-- `EVEX.128.66.0F.W1 28 /r` (rule R153). -/
def execVmovapdEvex128Load (pre : List Prefix) (evex : Evex) (reg : BitVec 3) (rm : RM) (s : State) : Result :=
  moveToReg (evexForm .v128 false pre evex reg rm) s

/-- `EVEX.256.66.0F.W1 28 /r` (rule R154). -/
def execVmovapdEvex256Load (pre : List Prefix) (evex : Evex) (reg : BitVec 3) (rm : RM) (s : State) : Result :=
  moveToReg (evexForm .v256 false pre evex reg rm) s

/-- `EVEX.512.66.0F.W1 28 /r` (rule R155). -/
def execVmovapdEvex512Load (pre : List Prefix) (evex : Evex) (reg : BitVec 3) (rm : RM) (s : State) : Result :=
  moveToReg (evexForm .v512 false pre evex reg rm) s

/-- `EVEX.128.66.0F.W1 29 /r` (rule R156). -/
def execVmovapdEvex128Store (pre : List Prefix) (evex : Evex) (reg : BitVec 3) (rm : RM) (s : State) : Result :=
  moveFromReg (evexForm .v128 true pre evex reg rm) s

/-- `EVEX.256.66.0F.W1 29 /r` (rule R157). -/
def execVmovapdEvex256Store (pre : List Prefix) (evex : Evex) (reg : BitVec 3) (rm : RM) (s : State) : Result :=
  moveFromReg (evexForm .v256 true pre evex reg rm) s

/-- `EVEX.512.66.0F.W1 29 /r` (rule R158). -/
def execVmovapdEvex512Store (pre : List Prefix) (evex : Evex) (reg : BitVec 3) (rm : RM) (s : State) : Result :=
  moveFromReg (evexForm .v512 true pre evex reg rm) s

end Sys2Proof.Machine
end

