-- ==== Sys2Proof/Machine/Legacy.lean ====
section
/-!
DEFINITION. MOVAPD, the legacy SSE2 forms (`40_movapd_sse.md`).
-/

namespace Sys2Proof.Machine

/-- `66 0F 28 /r` (rule R132). -/
def execMovapdLoad (pre : List Prefix) (reg : BitVec 3) (rm : RM) (s : State) : Result :=
  moveToReg (legacyForm pre 0 extNone reg rm) s

/-- `66 REX 0F 28 /r` (rule R132); REX.W is ignored (R83). -/
def execMovapdLoadRex (pre : List Prefix) (rex : Rex) (reg : BitVec 3) (rm : RM) (s : State) : Result :=
  moveToReg (legacyForm pre 1 (extRex rex) reg rm) s

/-- `66 0F 29 /r` (rule R133). -/
def execMovapdStore (pre : List Prefix) (reg : BitVec 3) (rm : RM) (s : State) : Result :=
  moveFromReg (legacyForm pre 0 extNone reg rm) s

/-- `66 REX 0F 29 /r` (rule R133); REX.W is ignored (R83). -/
def execMovapdStoreRex (pre : List Prefix) (rex : Rex) (reg : BitVec 3) (rm : RM) (s : State) : Result :=
  moveFromReg (legacyForm pre 1 (extRex rex) reg rm) s

end Sys2Proof.Machine
end

