-- ==== Sys2Proof/Machine/Vex.lean ====
section
/-!
DEFINITION. VMOVAPD, the VEX forms (`41_vmovapd_vex.md`). W is ignored (rule R90).
-/

namespace Sys2Proof.Machine

/-- `VEX.128.66.0F.WIG 28 /r` with the two-byte prefix (rule R141). -/
def execVmovapdVex128LoadC5 (pre : List Prefix) (vex : Vex2) (reg : BitVec 3) (rm : RM) (s : State) : Result :=
  moveToReg (vexForm 2 .v128 pre (extVex2 vex) vex.vvvv reg rm) s

/-- `VEX.128.66.0F.WIG 28 /r` with the three-byte prefix (rule R141). -/
def execVmovapdVex128LoadC4 (pre : List Prefix) (vex : Vex3) (reg : BitVec 3) (rm : RM) (s : State) : Result :=
  moveToReg (vexForm 3 .v128 pre (extVex3 vex) vex.vvvv reg rm) s

/-- `VEX.128.66.0F.WIG 29 /r` with the two-byte prefix (rule R142). -/
def execVmovapdVex128StoreC5 (pre : List Prefix) (vex : Vex2) (reg : BitVec 3) (rm : RM) (s : State) : Result :=
  moveFromReg (vexForm 2 .v128 pre (extVex2 vex) vex.vvvv reg rm) s

/-- `VEX.128.66.0F.WIG 29 /r` with the three-byte prefix (rule R142). -/
def execVmovapdVex128StoreC4 (pre : List Prefix) (vex : Vex3) (reg : BitVec 3) (rm : RM) (s : State) : Result :=
  moveFromReg (vexForm 3 .v128 pre (extVex3 vex) vex.vvvv reg rm) s

/-- `VEX.256.66.0F.WIG 28 /r` with the two-byte prefix (rule R143). -/
def execVmovapdVex256LoadC5 (pre : List Prefix) (vex : Vex2) (reg : BitVec 3) (rm : RM) (s : State) : Result :=
  moveToReg (vexForm 2 .v256 pre (extVex2 vex) vex.vvvv reg rm) s

/-- `VEX.256.66.0F.WIG 28 /r` with the three-byte prefix (rule R143). -/
def execVmovapdVex256LoadC4 (pre : List Prefix) (vex : Vex3) (reg : BitVec 3) (rm : RM) (s : State) : Result :=
  moveToReg (vexForm 3 .v256 pre (extVex3 vex) vex.vvvv reg rm) s

/-- `VEX.256.66.0F.WIG 29 /r` with the two-byte prefix (rule R144). -/
def execVmovapdVex256StoreC5 (pre : List Prefix) (vex : Vex2) (reg : BitVec 3) (rm : RM) (s : State) : Result :=
  moveFromReg (vexForm 2 .v256 pre (extVex2 vex) vex.vvvv reg rm) s

/-- `VEX.256.66.0F.WIG 29 /r` with the three-byte prefix (rule R144). -/
def execVmovapdVex256StoreC4 (pre : List Prefix) (vex : Vex3) (reg : BitVec 3) (rm : RM) (s : State) : Result :=
  moveFromReg (vexForm 3 .v256 pre (extVex3 vex) vex.vvvv reg rm) s

end Sys2Proof.Machine
end

