-- ==== Sys2Proof/Machine/Dispatch.lean ====
section
/-!
DEFINITION. Dispatch: one arm per constructor of Instr, each a call of that instruction's meaning.
-/

namespace Sys2Proof.Machine

def exec (i : Instr) (s : State) : Host.Outcome State Fault Refusal :=
  match i with
  | .movapdLoad pre reg rm => Sys2Proof.Machine.execMovapdLoad pre reg rm s
  | .movapdLoadRex pre rex reg rm => Sys2Proof.Machine.execMovapdLoadRex pre rex reg rm s
  | .movapdStore pre reg rm => Sys2Proof.Machine.execMovapdStore pre reg rm s
  | .movapdStoreRex pre rex reg rm => Sys2Proof.Machine.execMovapdStoreRex pre rex reg rm s
  | .vmovapdVex128LoadC5 pre vex reg rm => Sys2Proof.Machine.execVmovapdVex128LoadC5 pre vex reg rm s
  | .vmovapdVex128LoadC4 pre vex reg rm => Sys2Proof.Machine.execVmovapdVex128LoadC4 pre vex reg rm s
  | .vmovapdVex128StoreC5 pre vex reg rm => Sys2Proof.Machine.execVmovapdVex128StoreC5 pre vex reg rm s
  | .vmovapdVex128StoreC4 pre vex reg rm => Sys2Proof.Machine.execVmovapdVex128StoreC4 pre vex reg rm s
  | .vmovapdVex256LoadC5 pre vex reg rm => Sys2Proof.Machine.execVmovapdVex256LoadC5 pre vex reg rm s
  | .vmovapdVex256LoadC4 pre vex reg rm => Sys2Proof.Machine.execVmovapdVex256LoadC4 pre vex reg rm s
  | .vmovapdVex256StoreC5 pre vex reg rm => Sys2Proof.Machine.execVmovapdVex256StoreC5 pre vex reg rm s
  | .vmovapdVex256StoreC4 pre vex reg rm => Sys2Proof.Machine.execVmovapdVex256StoreC4 pre vex reg rm s
  | .vmovapdEvex128Load pre evex reg rm => Sys2Proof.Machine.execVmovapdEvex128Load pre evex reg rm s
  | .vmovapdEvex256Load pre evex reg rm => Sys2Proof.Machine.execVmovapdEvex256Load pre evex reg rm s
  | .vmovapdEvex512Load pre evex reg rm => Sys2Proof.Machine.execVmovapdEvex512Load pre evex reg rm s
  | .vmovapdEvex128Store pre evex reg rm => Sys2Proof.Machine.execVmovapdEvex128Store pre evex reg rm s
  | .vmovapdEvex256Store pre evex reg rm => Sys2Proof.Machine.execVmovapdEvex256Store pre evex reg rm s
  | .vmovapdEvex512Store pre evex reg rm => Sys2Proof.Machine.execVmovapdEvex512Store pre evex reg rm s

end Sys2Proof.Machine
end

