-- ==== Sys2Proof/Machine/Fetch.lean ====
section
/-!
DEFINITION. Fetch and decode (stage 1 of rule R130), and the placing of instructions and programs in memory.
-/

namespace Sys2Proof.Machine

/-- One instruction byte: canonical, translated for a fetch, mapped (rules R51, R130 stage 1, R182). -/
def fetchByte (s : State) (a : Word) : Option Stop :=
  canonicalStop [a] false s <|> pageStop .fetch [a] s <|> mapStop [a] s

/-- At most `n` instruction bytes from `a` on, one at a time in increasing address order (rule R51), up to the
first that cannot be fetched, with its stop. An instruction that starts before `END_ADDR` and whose bytes reach it
is fetched through it and runs: D19 gives no outcome there (DESIGN CHOICE, log 6). -/
def fetchFrom : Nat → Word → State → List Byte × Option Stop
  | 0, _, _ => ([], none)
  | n + 1, a, s =>
    match fetchByte s a with
    | some st => ([], some st)
    | none =>
      let r := fetchFrom n (a + 1#64) s
      (Memory.read s.mem a.toNat :: r.1, r.2)

/-- As many bytes as an instruction at the pc can have. An instruction may begin with any number of prefix bytes
(rule R82); none of them is what an unlisted address reads as, so there are at most as many as memory has entries,
and at most 11 bytes follow (62h P0 P1 P2, opcode, ModRM, SIB, disp32). `decode_fetchBytes_ne_short` of
`Sys2Proof/Laws/Fetch.lean` says that they suffice (log 8). -/
def fetchWindow (s : State) : Nat := s.mem.length + maxLength

/-- The bytes at the pc, up to the first that cannot be fetched, with its stop. -/
def fetchBytes (s : State) : List Byte × Option Stop := fetchFrom (fetchWindow s) s.pc s

/-- Why the decoder refuses, as the machine's refusal (rule R171). -/
def refusalOf : Reject → Refusal
  | .unlisted => .unlisted
  | .badPrefix => .badPrefix

/-- Stage 1's answer: an instruction to run, or a stop. -/
inductive Fetched where
  | run (i : Instr)
  | stop (st : Stop)
deriving DecidableEq, Repr

/-- An undefined opcode of `len` bytes: #GP(0) for a length over 15 comes before #UD (rules R115, R185). -/
def undefinedStop (len : Nat) (s : State) : Stop :=
  if len ≤ maxLength then raise .ud s else raise (.gp 0) s

/-- Fetch and decode, whatever the length (stage 1 of rule R130 comes before the length check of stage 2). Bytes that
end too soon are the stop of the byte that could not be fetched. The last line is never reached: the window
suffices. -/
def fetchDecode (s : State) : Fetched :=
  match decode (fetchBytes s).1 with
  | .instr i => .run i
  | .ud len => .stop (undefinedStop len s)
  | .refuse r => .stop (.refuse (refusalOf r))
  | .short =>
    match (fetchBytes s).2 with
    | some st => .stop st
    | none => .stop (raise (.gp 0) s)

/-- Before any fetch: only 64-bit mode runs (decision D1), and at `END_ADDR` the run is over and nothing is
fetched (rule R207; log 6). -/
def stepStop (s : State) : Option Stop :=
  modeStop s <|> (if s.cfg.endAddr = some s.pc then some (.refuse .runOver) else none)

/-- The memory with bytes written at consecutive addresses (modulo 2^64). -/
def placeBytes : Word → List Byte → Memory → Memory
  | _, [], m => m
  | a, b :: bs, m => placeBytes (a + 1#64) bs (Memory.write m a.toNat b)

/-- Do two extents of addresses meet? -/
def regionsMeet (r q : Region) : Bool := decide (r.first < q.first + q.size) && decide (q.first < r.first + r.size)

/-- The configuration under which the bytes of the region can be fetched: 64-bit mode, no `END_ADDR` at the pc,
the region mapped, no fetch fault in it. What already allows the fetch is left as it is. -/
def fetchable (c : Config) (pc : Word) (r : Region) : Config :=
  { c with
    mode := .long64
    endAddr := if c.endAddr = some pc then none else c.endAddr
    mapped := if c.mapped.any (fun q => decide (q.first ≤ r.first) && decide (r.first + r.size ≤ q.first + q.size))
      then c.mapped else c.mapped ++ [r]
    denied := c.denied.filter fun d => !(d.kind == .fetch && regionsMeet d.region r) }

/-- The instruction of a table word placed where the next step fetches (log 7). -/
def placeFetchWord (s : State) (nbits w : Nat) : State :=
  { s with
    mem := placeBytes s.pc (tableStream nbits w) s.mem
    cfg := fetchable s.cfg s.pc ⟨s.pc.toNat, maxLength⟩ }

/-- The launch of a program (rule R203): its bytes stand in `MAPPED` from `base` on and are the program text,
`pc = base`, `END_ADDR` = `base` plus the program's length. For a program that would pass 2^64 the spec says nothing:
the bytes past it are placed modulo 2^64 and are neither mapped by the launch nor program text (DESIGN CHOICE,
log 19). -/
def State.launch (s : State) (base : Word) (program : List Byte) : State :=
  { s with
    mem := placeBytes base program s.mem
    pc := base
    cfg :=
      { s.cfg with
        mapped := ⟨base.toNat, program.length⟩ :: s.cfg.mapped
        text := [⟨base.toNat, program.length⟩]
        endAddr := some (base + BitVec.ofNat 64 program.length) } }

end Sys2Proof.Machine
end

