-- ==== Sys2Proof/Machine/Step.lean ====
section
/-!
DEFINITION. One step (rules R15, R130, R207): before any fetch the mode and the end of the run, then fetch and
decode, then the instruction's meaning.
-/

namespace Sys2Proof.Machine

/-- One step of the machine. -/
def step (s : State) : Host.Outcome State Fault Refusal :=
  match stepStop s with
  | some st => st.out
  | none =>
    match fetchDecode s with
    | .stop st => st.out
    | .run i => exec i s

/-- The state with the instruction of a table word stored where `step` fetches its next instruction (log 7). -/
def State.withFetchWord (s : State) (nbits w : Nat) : State := placeFetchWord s nbits w

end Sys2Proof.Machine
end

