-- ==== Sys2Proof/WellFormed.lean ====
section
/-!
DEFINITION. Which terms of `Instr` are instructions: those a byte sequence stands for. The checks are the
admitted prefix sequences (rule R82; `legacyPrefixesAdmitted` and `vexPrefixesAdmitted` of
`Sys2Proof/Decode.lean`) and the shapes ModRM and SIB can express (rules R85, R86, R108, R110). A field that must hold one value and raises #UD
otherwise is NOT a check here: such bytes decode, and executing them raises #UD (rule R120).
-/

namespace Sys2Proof

/-- The shapes ModRM and SIB can express: `rm = 100b` means SIB; with `mod = 00b`, `rm = 101b` means
RIP-relative and SIB.base = 101b means no base (rules R85, R86, R108, R110). -/
def MemOperand.wf : MemOperand → Bool
  | .rip _ => true
  | .base rm d => rm != 4#3 && (d != .none || rm != 5#3)
  | .sib _ _ sbase d => d != .none || sbase != 5#3
  | .sibNoBase _ _ _ => true

/-- A register r/m operand has no shape to check. -/
def RM.wf : RM → Bool
  | .reg _ => true
  | .mem m => m.wf

/-- The legacy rows: the mandatory 66h stands among admitted prefixes (rule R82). -/
def legacyWf (pre : List Prefix) (rm : RM) : Bool :=
  legacyPrefixesAdmitted pre && pre.contains .opSize && rm.wf

/-- The VEX and EVEX rows. -/
def vexWf (pre : List Prefix) (rm : RM) : Bool :=
  vexPrefixesAdmitted pre && rm.wf

/-- The well-formed instructions. -/
def Instr.wf : Instr → Bool
  | .movapdLoad pre _ rm => legacyWf pre rm
  | .movapdLoadRex pre _ _ rm => legacyWf pre rm
  | .movapdStore pre _ rm => legacyWf pre rm
  | .movapdStoreRex pre _ _ rm => legacyWf pre rm
  | .vmovapdVex128LoadC5 pre _ _ rm => vexWf pre rm
  | .vmovapdVex128LoadC4 pre _ _ rm => vexWf pre rm
  | .vmovapdVex128StoreC5 pre _ _ rm => vexWf pre rm
  | .vmovapdVex128StoreC4 pre _ _ rm => vexWf pre rm
  | .vmovapdVex256LoadC5 pre _ _ rm => vexWf pre rm
  | .vmovapdVex256LoadC4 pre _ _ rm => vexWf pre rm
  | .vmovapdVex256StoreC5 pre _ _ rm => vexWf pre rm
  | .vmovapdVex256StoreC4 pre _ _ rm => vexWf pre rm
  | .vmovapdEvex128Load pre _ _ rm => vexWf pre rm
  | .vmovapdEvex256Load pre _ _ rm => vexWf pre rm
  | .vmovapdEvex512Load pre _ _ rm => vexWf pre rm
  | .vmovapdEvex128Store pre _ _ rm => vexWf pre rm
  | .vmovapdEvex256Store pre _ _ rm => vexWf pre rm
  | .vmovapdEvex512Store pre _ _ rm => vexWf pre rm

end Sys2Proof
end

