-- ==== Sys2Proof/Safety.lean ====
section
/-!
DEFINITION. The terms claims are stated in: the invariant of the state, when an instruction of each class
executes normally, what an instruction changes and leaves, and when a run is over.
-/

namespace Sys2Proof.Machine

/-! ### The invariant -/

/-- What every state of a run is: memory canonical; the configuration's constraints (R7, R34); the pc canonical
(R26); bits at and above MAXVL and registers at and above NVREG, which do not exist, are 0 (R20, log 16); bits
at and above KW are 0, and without AVX512F there are no opmask registers (R24, log 16). -/
structure State.Inv (s : State) : Prop where
  mem_wf : Memory.wf s.mem = true
  cfg_ok : configOk s.cfg = true
  pc_canonical : canonical s.cfg s.pc = true
  above_maxvl : ∀ (n : BitVec 5) (j : Nat), j < 8 → maxvl s.cfg ≤ 64 * j → lane (s.readV n) j = 0#64
  above_nvreg : ∀ n : BitVec 5, nvreg s.cfg ≤ n.toNat → s.readV n = 0#512
  above_kw : ∀ a : BitVec 3, (s.readK a).toNat < 2 ^ maskBits s.cfg
  no_opmask : s.cfg.hasAVX512F = false → ∀ a : BitVec 3, s.readK a = 0#64

/-! ### When an instruction executes normally -/

/-- The prefixes that do not make a VEX or EVEX form #UD: 67h and the segment overrides (rules R82, R94). -/
def plainPrefix : Prefix → Bool
  | .addrSize => true
  | .seg _ => true
  | .opSize => false
  | .lock => false
  | .repne => false
  | .rep => false
  | .rex _ => false

/-- No reason for #UD in a legacy form: no LOCK, SSE2 there and enabled (rules R175, R178, R179). -/
abbrev LegacySound (pre : List Prefix) (c : Config) : Prop :=
  Prefix.lock ∉ pre ∧ c.hasSSE2 = true ∧ c.osSSE = true

/-- No reason for #UD in a VEX form: no forbidden prefix, `vvvv` = 1111b, AVX there and enabled (rules R93, R94,
R175, R178, R179). -/
abbrev VexSound (pre : List Prefix) (vvvv : BitVec 4) (c : Config) : Prop :=
  (∀ p ∈ pre, plainPrefix p = true) ∧ vvvv = 15#4 ∧ c.hasAVX = true ∧ c.osAVX = true

/-- The EVEX fields that must hold one value do: `vvvv` = 1111b and V' = 1, P0[3:2] = 00b, P1[2] = 1, b = 0
(rules R102, R105). -/
abbrev EvexFieldsSound (e : Evex) : Prop :=
  e.vvvv = 15#4 ∧ e.vHi = true ∧ e.p0Res = 0#2 ∧ e.p1Fix = true ∧ e.bcast = false

/-- No reason for #UD in an EVEX form: no forbidden prefix, the fields sound, z only with a writemask and a
register destination, AVX512F (and AVX512VL below 512 bits) there and enabled (rules R94, R102, R104, R105, R175,
R178, R179). -/
abbrev EvexSound (vl : VL) (store : Bool) (pre : List Prefix) (e : Evex) (rm : RM) (c : Config) : Prop :=
  (∀ p ∈ pre, plainPrefix p = true) ∧ EvexFieldsSound e ∧
    (e.z = true → e.aaa ≠ 0#3 ∧ (store = true → rmIsMem rm = false)) ∧
      c.hasAVX512F = true ∧ (vl ≠ .v512 → c.hasAVX512VL = true) ∧ c.osAVX512 = true

/-- No #UD condition of rules R174 to R179 holds for the instruction. -/
abbrev NoUndefined (i : Instr) (c : Config) : Prop :=
  match i with
  | .movapdLoad pre _ _ => LegacySound pre c
  | .movapdLoadRex pre _ _ _ => LegacySound pre c
  | .movapdStore pre _ _ => LegacySound pre c
  | .movapdStoreRex pre _ _ _ => LegacySound pre c
  | .vmovapdVex128LoadC5 pre v _ _ => VexSound pre v.vvvv c
  | .vmovapdVex128LoadC4 pre v _ _ => VexSound pre v.vvvv c
  | .vmovapdVex128StoreC5 pre v _ _ => VexSound pre v.vvvv c
  | .vmovapdVex128StoreC4 pre v _ _ => VexSound pre v.vvvv c
  | .vmovapdVex256LoadC5 pre v _ _ => VexSound pre v.vvvv c
  | .vmovapdVex256LoadC4 pre v _ _ => VexSound pre v.vvvv c
  | .vmovapdVex256StoreC5 pre v _ _ => VexSound pre v.vvvv c
  | .vmovapdVex256StoreC4 pre v _ _ => VexSound pre v.vvvv c
  | .vmovapdEvex128Load pre e _ rm => EvexSound .v128 false pre e rm c
  | .vmovapdEvex256Load pre e _ rm => EvexSound .v256 false pre e rm c
  | .vmovapdEvex512Load pre e _ rm => EvexSound .v512 false pre e rm c
  | .vmovapdEvex128Store pre e _ rm => EvexSound .v128 true pre e rm c
  | .vmovapdEvex256Store pre e _ rm => EvexSound .v256 true pre e rm c
  | .vmovapdEvex512Store pre e _ rm => EvexSound .v512 true pre e rm c

/-- The r/m operand of an instruction. -/
def rmOperand : Instr → RM
  | .movapdLoad _ _ rm => rm
  | .movapdLoadRex _ _ _ rm => rm
  | .movapdStore _ _ rm => rm
  | .movapdStoreRex _ _ _ rm => rm
  | .vmovapdVex128LoadC5 _ _ _ rm => rm
  | .vmovapdVex128LoadC4 _ _ _ rm => rm
  | .vmovapdVex128StoreC5 _ _ _ rm => rm
  | .vmovapdVex128StoreC4 _ _ _ rm => rm
  | .vmovapdVex256LoadC5 _ _ _ rm => rm
  | .vmovapdVex256LoadC4 _ _ _ rm => rm
  | .vmovapdVex256StoreC5 _ _ _ rm => rm
  | .vmovapdVex256StoreC4 _ _ _ rm => rm
  | .vmovapdEvex128Load _ _ _ rm => rm
  | .vmovapdEvex256Load _ _ _ rm => rm
  | .vmovapdEvex512Load _ _ _ rm => rm
  | .vmovapdEvex128Store _ _ _ rm => rm
  | .vmovapdEvex256Store _ _ _ rm => rm
  | .vmovapdEvex512Store _ _ _ rm => rm

/-- The size in bytes of the memory operand of each row, VL/8 (the table of rule R57). -/
def operandBytes : Instr → Nat
  | .movapdLoad _ _ _ => 16
  | .movapdLoadRex _ _ _ _ => 16
  | .movapdStore _ _ _ => 16
  | .movapdStoreRex _ _ _ _ => 16
  | .vmovapdVex128LoadC5 _ _ _ _ => 16
  | .vmovapdVex128LoadC4 _ _ _ _ => 16
  | .vmovapdVex128StoreC5 _ _ _ _ => 16
  | .vmovapdVex128StoreC4 _ _ _ _ => 16
  | .vmovapdVex256LoadC5 _ _ _ _ => 32
  | .vmovapdVex256LoadC4 _ _ _ _ => 32
  | .vmovapdVex256StoreC5 _ _ _ _ => 32
  | .vmovapdVex256StoreC4 _ _ _ _ => 32
  | .vmovapdEvex128Load _ _ _ _ => 16
  | .vmovapdEvex256Load _ _ _ _ => 32
  | .vmovapdEvex512Load _ _ _ _ => 64
  | .vmovapdEvex128Store _ _ _ _ => 16
  | .vmovapdEvex256Store _ _ _ _ => 32
  | .vmovapdEvex512Store _ _ _ _ => 64

/-- The access a memory operand makes: opcode 28h reads, opcode 29h writes (rule R116). -/
def operandAccess : Instr → Access
  | .movapdLoad _ _ _ => .read
  | .movapdLoadRex _ _ _ _ => .read
  | .movapdStore _ _ _ => .write
  | .movapdStoreRex _ _ _ _ => .write
  | .vmovapdVex128LoadC5 _ _ _ _ => .read
  | .vmovapdVex128LoadC4 _ _ _ _ => .read
  | .vmovapdVex128StoreC5 _ _ _ _ => .write
  | .vmovapdVex128StoreC4 _ _ _ _ => .write
  | .vmovapdVex256LoadC5 _ _ _ _ => .read
  | .vmovapdVex256LoadC4 _ _ _ _ => .read
  | .vmovapdVex256StoreC5 _ _ _ _ => .write
  | .vmovapdVex256StoreC4 _ _ _ _ => .write
  | .vmovapdEvex128Load _ _ _ _ => .read
  | .vmovapdEvex256Load _ _ _ _ => .read
  | .vmovapdEvex512Load _ _ _ _ => .read
  | .vmovapdEvex128Store _ _ _ _ => .write
  | .vmovapdEvex256Store _ _ _ _ => .write
  | .vmovapdEvex512Store _ _ _ _ => .write

/-- The bytes of the operand the instruction's writemask enables: all of them, or those of the elements whose
bit of `k[aaa]` is 1 (rules R54, R151). -/
def enabledByte (i : Instr) (s : State) : Nat → Bool := byteMask (formOf i) s

/-- The bytes before the row's pattern. -/
def prefixesOf : Instr → List Prefix
  | .movapdLoad pre _ _ => pre
  | .movapdLoadRex pre _ _ _ => pre
  | .movapdStore pre _ _ => pre
  | .movapdStoreRex pre _ _ _ => pre
  | .vmovapdVex128LoadC5 pre _ _ _ => pre
  | .vmovapdVex128LoadC4 pre _ _ _ => pre
  | .vmovapdVex128StoreC5 pre _ _ _ => pre
  | .vmovapdVex128StoreC4 pre _ _ _ => pre
  | .vmovapdVex256LoadC5 pre _ _ _ => pre
  | .vmovapdVex256LoadC4 pre _ _ _ => pre
  | .vmovapdVex256StoreC5 pre _ _ _ => pre
  | .vmovapdVex256StoreC4 pre _ _ _ => pre
  | .vmovapdEvex128Load pre _ _ _ => pre
  | .vmovapdEvex256Load pre _ _ _ => pre
  | .vmovapdEvex512Load pre _ _ _ => pre
  | .vmovapdEvex128Store pre _ _ _ => pre
  | .vmovapdEvex256Store pre _ _ _ => pre
  | .vmovapdEvex512Store pre _ _ _ => pre

/-- B, which extends the base register's number: 0 without REX and with the two-byte VEX prefix (rules R83, R87, R91,
R92, R101). -/
def baseExt : Instr → Bool
  | .movapdLoad _ _ _ => false
  | .movapdLoadRex _ p _ _ => p.b
  | .movapdStore _ _ _ => false
  | .movapdStoreRex _ p _ _ => p.b
  | .vmovapdVex128LoadC5 _ _ _ _ => false
  | .vmovapdVex128LoadC4 _ p _ _ => p.b
  | .vmovapdVex128StoreC5 _ _ _ _ => false
  | .vmovapdVex128StoreC4 _ p _ _ => p.b
  | .vmovapdVex256LoadC5 _ _ _ _ => false
  | .vmovapdVex256LoadC4 _ p _ _ => p.b
  | .vmovapdVex256StoreC5 _ _ _ _ => false
  | .vmovapdVex256StoreC4 _ p _ _ => p.b
  | .vmovapdEvex128Load _ p _ _ => p.b
  | .vmovapdEvex256Load _ p _ _ => p.b
  | .vmovapdEvex512Load _ p _ _ => p.b
  | .vmovapdEvex128Store _ p _ _ => p.b
  | .vmovapdEvex256Store _ p _ _ => p.b
  | .vmovapdEvex512Store _ p _ _ => p.b

/-- X, which extends the index register's number, likewise. -/
def indexExt : Instr → Bool
  | .movapdLoad _ _ _ => false
  | .movapdLoadRex _ p _ _ => p.x
  | .movapdStore _ _ _ => false
  | .movapdStoreRex _ p _ _ => p.x
  | .vmovapdVex128LoadC5 _ _ _ _ => false
  | .vmovapdVex128LoadC4 _ p _ _ => p.x
  | .vmovapdVex128StoreC5 _ _ _ _ => false
  | .vmovapdVex128StoreC4 _ p _ _ => p.x
  | .vmovapdVex256LoadC5 _ _ _ _ => false
  | .vmovapdVex256LoadC4 _ p _ _ => p.x
  | .vmovapdVex256StoreC5 _ _ _ _ => false
  | .vmovapdVex256StoreC4 _ p _ _ => p.x
  | .vmovapdEvex128Load _ p _ _ => p.x
  | .vmovapdEvex256Load _ p _ _ => p.x
  | .vmovapdEvex512Load _ p _ _ => p.x
  | .vmovapdEvex128Store _ p _ _ => p.x
  | .vmovapdEvex256Store _ p _ _ => p.x
  | .vmovapdEvex512Store _ p _ _ => p.x

/-- The number of the vector register ModRM.reg names: the destination of opcode 28h, the source of opcode 29h (rules
R87, R91, R92, R101, R116). -/
def regOperand : Instr → BitVec 5
  | .movapdLoad _ reg _ => 0#2 ++ reg
  | .movapdLoadRex _ p reg _ => 0#1 ++ BitVec.ofBool p.r ++ reg
  | .movapdStore _ reg _ => 0#2 ++ reg
  | .movapdStoreRex _ p reg _ => 0#1 ++ BitVec.ofBool p.r ++ reg
  | .vmovapdVex128LoadC5 _ p reg _ => 0#1 ++ BitVec.ofBool p.r ++ reg
  | .vmovapdVex128LoadC4 _ p reg _ => 0#1 ++ BitVec.ofBool p.r ++ reg
  | .vmovapdVex128StoreC5 _ p reg _ => 0#1 ++ BitVec.ofBool p.r ++ reg
  | .vmovapdVex128StoreC4 _ p reg _ => 0#1 ++ BitVec.ofBool p.r ++ reg
  | .vmovapdVex256LoadC5 _ p reg _ => 0#1 ++ BitVec.ofBool p.r ++ reg
  | .vmovapdVex256LoadC4 _ p reg _ => 0#1 ++ BitVec.ofBool p.r ++ reg
  | .vmovapdVex256StoreC5 _ p reg _ => 0#1 ++ BitVec.ofBool p.r ++ reg
  | .vmovapdVex256StoreC4 _ p reg _ => 0#1 ++ BitVec.ofBool p.r ++ reg
  | .vmovapdEvex128Load _ p reg _ => BitVec.ofBool p.rHi ++ BitVec.ofBool p.r ++ reg
  | .vmovapdEvex256Load _ p reg _ => BitVec.ofBool p.rHi ++ BitVec.ofBool p.r ++ reg
  | .vmovapdEvex512Load _ p reg _ => BitVec.ofBool p.rHi ++ BitVec.ofBool p.r ++ reg
  | .vmovapdEvex128Store _ p reg _ => BitVec.ofBool p.rHi ++ BitVec.ofBool p.r ++ reg
  | .vmovapdEvex256Store _ p reg _ => BitVec.ofBool p.rHi ++ BitVec.ofBool p.r ++ reg
  | .vmovapdEvex512Store _ p reg _ => BitVec.ofBool p.rHi ++ BitVec.ofBool p.r ++ reg

/-- The CPUID bits a form needs, in CPUID.01H:EDX, CPUID.01H:ECX and CPUID.(07H, 0):EBX (rules R36, R106, R175). -/
def cpuidBits (edx1 ecx1 ebx7 : BitVec 32) : Instr → Bool
  | .movapdLoad _ _ _ => edx1.getLsbD 26
  | .movapdLoadRex _ _ _ _ => edx1.getLsbD 26
  | .movapdStore _ _ _ => edx1.getLsbD 26
  | .movapdStoreRex _ _ _ _ => edx1.getLsbD 26
  | .vmovapdVex128LoadC5 _ _ _ _ => ecx1.getLsbD 28
  | .vmovapdVex128LoadC4 _ _ _ _ => ecx1.getLsbD 28
  | .vmovapdVex128StoreC5 _ _ _ _ => ecx1.getLsbD 28
  | .vmovapdVex128StoreC4 _ _ _ _ => ecx1.getLsbD 28
  | .vmovapdVex256LoadC5 _ _ _ _ => ecx1.getLsbD 28
  | .vmovapdVex256LoadC4 _ _ _ _ => ecx1.getLsbD 28
  | .vmovapdVex256StoreC5 _ _ _ _ => ecx1.getLsbD 28
  | .vmovapdVex256StoreC4 _ _ _ _ => ecx1.getLsbD 28
  | .vmovapdEvex128Load _ _ _ _ => ebx7.getLsbD 16 && ebx7.getLsbD 31
  | .vmovapdEvex256Load _ _ _ _ => ebx7.getLsbD 16 && ebx7.getLsbD 31
  | .vmovapdEvex512Load _ _ _ _ => ebx7.getLsbD 16
  | .vmovapdEvex128Store _ _ _ _ => ebx7.getLsbD 16 && ebx7.getLsbD 31
  | .vmovapdEvex256Store _ _ _ _ => ebx7.getLsbD 16 && ebx7.getLsbD 31
  | .vmovapdEvex512Store _ _ _ _ => ebx7.getLsbD 16

/-- Is it a legacy or VEX form? -/
def narrowForm : Instr → Bool
  | .movapdLoad _ _ _ => true
  | .movapdLoadRex _ _ _ _ => true
  | .movapdStore _ _ _ => true
  | .movapdStoreRex _ _ _ _ => true
  | .vmovapdVex128LoadC5 _ _ _ _ => true
  | .vmovapdVex128LoadC4 _ _ _ _ => true
  | .vmovapdVex128StoreC5 _ _ _ _ => true
  | .vmovapdVex128StoreC4 _ _ _ _ => true
  | .vmovapdVex256LoadC5 _ _ _ _ => true
  | .vmovapdVex256LoadC4 _ _ _ _ => true
  | .vmovapdVex256StoreC5 _ _ _ _ => true
  | .vmovapdVex256StoreC4 _ _ _ _ => true
  | .vmovapdEvex128Load _ _ _ _ => false
  | .vmovapdEvex256Load _ _ _ _ => false
  | .vmovapdEvex512Load _ _ _ _ => false
  | .vmovapdEvex128Store _ _ _ _ => false
  | .vmovapdEvex256Store _ _ _ _ => false
  | .vmovapdEvex512Store _ _ _ _ => false

/-- Is it an opcode-28h form, one that loads or copies into ModRM.reg? -/
def loadForm (i : Instr) : Bool := operandAccess i == .read

/-- `m[j]` of an EVEX form: no writemask, or bit j of `k[aaa]` (rule R151). -/
def evexMask (e : Evex) (s : State) (j : Nat) : Bool := e.aaa == 0#3 || (s.readK e.aaa).getLsbD j

/-- Every byte of an operand. -/
abbrev allBytes : Nat → Bool := fun _ => true

/-- The linear address of the memory operand `m` of the instruction (rule R112). -/
def operandAddr (i : Instr) (m : MemOperand) (s : State) : Word := linearAddr (formOf i) m s

/-- 64-bit mode and at most 15 bytes: stages 1 and 2 of the step frame let the instruction through (rules R35,
R115). -/
abbrev Admitted (i : Instr) (s : State) : Prop := s.cfg.mode = .long64 ∧ (encode i).length ≤ 15

/-- Stages 2 to 4 let the instruction through: admitted, no #UD condition, TS clear (rule R130). -/
abbrev PastChecks (i : Instr) (s : State) : Prop := Admitted i s ∧ NoUndefined i s.cfg ∧ s.cfg.ts = false

/-- The pc after the instruction neither wraps nor is non-canonical (rule R26, decision D19). -/
abbrev PcInRange (i : Instr) (s : State) : Prop :=
  s.pc.toNat + (encode i).length < 2 ^ 64 ∧ canonical s.cfg (s.pc + BitVec.ofNat 64 (encode i).length) = true

/-- Nothing but the memory operand can stop the instruction. -/
abbrev Ready (i : Instr) (s : State) : Prop := PastChecks i s ∧ PcInRange i s

/-- Nothing of stage 5 stops an access: the operand aligned to its size, every enabled byte canonical,
translated and mapped, and for a store off the program text (rules R57, R64 to R66, R72). -/
abbrev Accessible (kind : Access) (addr : Word) (n : Nat) (bm : Nat → Bool) (s : State) : Prop :=
  addr.toNat % n = 0 ∧ ∀ t, t < n → bm t = true →
    canonical s.cfg (byteAddr addr t) = true ∧ translateFault s.cfg kind (byteAddr addr t) = none ∧
      isMapped s.cfg (byteAddr addr t) = true ∧ (kind = .write → isText s.cfg (byteAddr addr t) = false)

/-- The bytes stand at the pc, and each of them can be fetched (rules R51, R64 to R66). -/
abbrev StandsFetchable (bs : List Byte) (s : State) : Prop :=
  ∀ t, t < bs.length → readAt s.mem s.pc t = bs.getD t 0#8 ∧ canonical s.cfg (byteAddr s.pc t) = true ∧
    translateFault s.cfg .fetch (byteAddr s.pc t) = none ∧ isMapped s.cfg (byteAddr s.pc t) = true

/-! ### What an instruction changes and leaves -/

/-- Only vector register `d` and the pc differ, and the pc is past the instruction's `len` bytes: no other
vector register, no opmask, general or segment-base register, no flag, no configuration, no byte of memory. -/
def WritesReg (s t : State) (d : BitVec 5) (len : Nat) : Prop :=
  t = { s with v := t.v, pc := s.pc + BitVec.ofNat 64 len } ∧ ∀ n, n ≠ d → t.readV n = s.readV n

/-- Only the enabled bytes of the operand at `addr` and the pc differ, and the pc is past the instruction's
`len` bytes: no register, no flag, no configuration, no other byte of memory. -/
def WritesMem (s t : State) (addr : Word) (n : Nat) (bm : Nat → Bool) (len : Nat) : Prop :=
  t = { s with mem := t.mem, pc := s.pc + BitVec.ofNat 64 len } ∧
    ∀ a : Nat, (∀ u, u < n → bm u = true → a ≠ (byteAddr addr u).toNat) → Memory.read t.mem a = Memory.read s.mem a

/-- The 8 bytes of element j of a memory operand as a 64-bit value, the byte at the lowest address lowest
(rules R55, R150). -/
def quadAt (m : Memory) (addr : Word) (j : Nat) : Word :=
  readAt m addr (8 * j + 7) ++ readAt m addr (8 * j + 6) ++ readAt m addr (8 * j + 5) ++ readAt m addr (8 * j + 4)
    ++ readAt m addr (8 * j + 3) ++ readAt m addr (8 * j + 2) ++ readAt m addr (8 * j + 1) ++ readAt m addr (8 * j)

/-- The instruction completes, writing vector register `d` alone: its element j is then `upd j`. -/
def CompletesWritingReg (i : Instr) (s : State) (d : BitVec 5) (upd : Nat → Word) : Prop :=
  ∃ t, exec i s = .next t ∧ WritesReg s t d (encode i).length ∧ ∀ j, j < 8 → lane (t.readV d) j = upd j

/-- The instruction completes, writing the enabled bytes of the `n`-byte operand at `addr` alone: each is then
the byte of `src` at its offset. -/
def CompletesWritingMem (i : Instr) (s : State) (addr : Word) (n : Nat) (bm : Nat → Bool) (src : Vec) : Prop :=
  ∃ t, exec i s = .next t ∧ WritesMem s t addr n bm (encode i).length ∧
    ∀ u, u < n → bm u = true → readAt t.mem addr u = byteOf src u

/-! ### Runs (rule R207) -/

/-- The run is over, successfully: the pc is END_ADDR. -/
def State.over (s : State) : Prop := s.cfg.endAddr = some s.pc

/-- `k` steps lead from `s` to `t`, none of them a fault or a refusal. -/
def Reaches (k : Nat) (s t : State) : Prop := Host.Core.run Sys2Proof.core k s = .next t

/-- A safe run of `k` steps: it ends at END_ADDR with no fault and no refusal. -/
def SafeRun (k : Nat) (s : State) : Prop := ∃ t, Reaches k s t ∧ t.over

end Sys2Proof.Machine
end

