-- ==== Sys2Proof/Certificates/Slice0/Obligations.lean ====
section
/-!
DEFINITION. The statements for the provers. Each is about the machine, for every state and operand that meets its
hypotheses; OBLIGATIONS.json says which rule of spec/ each rests on.
-/

open Sys2Proof Sys2Proof.Machine

/-! ### Encoding -/

/-- Decoding an encoded well-formed instruction, whatever follows it, gives it back (R80 to R117). -/
def Obligations.DecodeEncodeRoundTrip : Prop :=
  ∀ (i : Instr) (rest : List Byte), i.wf = true → decode (encode i ++ rest) = .instr i

/-- Bytes that decode to an instruction begin with that instruction's encoding, and the instruction is
well-formed: no bit of an encoding is dropped (R80 to R117). -/
def Obligations.DecodedBytesBeginWithEncoding : Prop :=
  ∀ (bs : List Byte) (i : Instr), decode bs = .instr i → i.wf = true ∧ ∃ rest, bs = encode i ++ rest

/-- Words written out from the spec's encodings (R87 to R101, vectors V7, V19, V50, V51). -/
def Obligations.SampleEncodingsDecode : Prop :=
  decode [0x66, 0x45, 0x0F, 0x28, 0xC7] = .instr (.movapdLoadRex [.opSize] ⟨false, true, false, true⟩ 0 (.reg 7)) ∧
  decode [0xC5, 0x7D, 0x29, 0xD1] = .instr (.vmovapdVex256StoreC5 [] ⟨true, 15⟩ 2 (.reg 1)) ∧
  decode [0x62, 0x81, 0xFD, 0x4B, 0x29, 0x64, 0x88, 0x02] =
    .instr (.vmovapdEvex512Store [] ⟨false, true, true, true, 0, 15, true, false, false, true, 3⟩ 4
      (.mem (.sib 2 1 0 (.d8 2)))) ∧
  decode [0x64, 0x62, 0xF1, 0xFD, 0x48, 0x28, 0x08] =
    .instr (.vmovapdEvex512Load [.seg .fs] ⟨false, false, false, false, 0, 15, true, false, false, true, 0⟩ 1
      (.mem (.base 0 .none)))

/-- An encoding that selects another instruction is refused as unlisted, if its prefix sequence is admitted (R82, R107,
R117, R120, R185). Legacy: no 66h, without or with REX, or an opcode other than 28h and 29h. VEX: `pp` ≠ 01b,
`mmmmm` ≠ 00001b or another opcode; for an `mmmmm` that names no map this is the model's choice (DEDUCED, log 13),
since R88 writes #UD there. EVEX with its reserved fields right: `mm` ≠ 01b, `pp` ≠ 01b, W = 0 or another opcode. And
any other class-telling byte, whatever the prefixes: for prefix sequences R82 refuses too this is the model's choice
(DESIGN CHOICE, log 17). That the refusal comes before a #UD of prefixes is R185. -/
def Obligations.OtherInstructionsAreUnlisted : Prop :=
  ∀ (pre : List Prefix) (x : Rex) (a b c op : Byte) (rest : List Byte),
    (legacyPrefixesAdmitted pre = true → .opSize ∉ pre ∨ op ≠ 0x28#8 ∧ op ≠ 0x29#8 →
      decode (pre.map prefixByte ++ 0x0F#8 :: op :: rest) = .refuse .unlisted ∧
      decode (pre.map prefixByte ++ prefixByte (.rex x) :: 0x0F#8 :: op :: rest) = .refuse .unlisted) ∧
    (vexPrefixesAdmitted pre = true → a.extractLsb' 0 2 ≠ 1#2 ∨ op ≠ 0x28#8 ∧ op ≠ 0x29#8 →
      decode (pre.map prefixByte ++ 0xC5#8 :: a :: op :: rest) = .refuse .unlisted) ∧
    (vexPrefixesAdmitted pre = true →
      a.extractLsb' 0 5 ≠ 1#5 ∨ b.extractLsb' 0 2 ≠ 1#2 ∨ op ≠ 0x28#8 ∧ op ≠ 0x29#8 →
      decode (pre.map prefixByte ++ 0xC4#8 :: a :: b :: op :: rest) = .refuse .unlisted) ∧
    (vexPrefixesAdmitted pre = true → a.extractLsb' 2 2 = 0#2 → a.extractLsb' 0 2 ≠ 0#2 → b.getLsbD 2 = true →
      a.extractLsb' 0 2 ≠ 1#2 ∨ b.extractLsb' 0 2 ≠ 1#2 ∨ b.getLsbD 7 = false ∨ op ≠ 0x28#8 ∧ op ≠ 0x29#8 →
      decode (pre.map prefixByte ++ 0x62#8 :: a :: b :: c :: op :: rest) = .refuse .unlisted) ∧
    (prefixOf a = none → a ∉ [0x0F#8, 0xC5#8, 0xC4#8, 0x62#8] →
      decode (pre.map prefixByte ++ a :: rest) = .refuse .unlisted)

/-- A prefix sequence R82 does not admit is refused. Legacy: F2h, F3h, two segment overrides, or a REX byte with
another prefix or REX between it and 0Fh. VEX and EVEX: two segment overrides, or two 67h. Where R82 also gives #UD
(F0h, or 66h, F2h, F3h, REX before VEX and EVEX), and where the encoding is unlisted too, this refusal comes first:
the model's choice (DEDUCED from R185, log 10 and log 17), as is the second 67h (log 10). -/
def Obligations.UnadmittedPrefixesAreRefused : Prop :=
  ∀ (pre pre' : List Prefix) (x : Rex) (p : Prefix) (a b c op : Byte) (rest : List Byte),
    (.rep ∈ pre ∨ .repne ∈ pre ∨ 2 ≤ pre.countP Prefix.isSeg →
      decode (pre.map prefixByte ++ 0x0F#8 :: op :: rest) = .refuse .badPrefix) ∧
    decode ((pre' ++ .rex x :: p :: pre).map prefixByte ++ 0x0F#8 :: op :: rest) = .refuse .badPrefix ∧
    (2 ≤ pre.countP Prefix.isSeg ∨ 2 ≤ pre.countP (· == .addrSize) →
      decode (pre.map prefixByte ++ 0xC5#8 :: a :: op :: rest) = .refuse .badPrefix ∧
      decode (pre.map prefixByte ++ 0xC4#8 :: a :: b :: op :: rest) = .refuse .badPrefix ∧
      decode (pre.map prefixByte ++ 0x62#8 :: a :: b :: c :: op :: rest) = .refuse .badPrefix)

/-! ### A step -/

/-- A step runs the decoded instruction (R130): where the bytes fetched at the pc decode to an instruction, the
step is that instruction's meaning; nothing is added around it. -/
def Obligations.StepRunsDecodedInstruction : Prop :=
  ∀ (s : State) (i : Instr), s.cfg.mode = .long64 → s.cfg.endAddr ≠ some s.pc →
    decode (fetchBytes s).1 = .instr i → step s = exec i s

/-- Where an instruction's encoding, of any length, stands at the pc in memory that can be fetched from, the step is
that instruction's meaning (R51, R117, R130), whatever stands after it. -/
def Obligations.StepRunsEncodedInstruction : Prop :=
  ∀ (s : State) (i : Instr), s.cfg.mode = .long64 → s.cfg.endAddr ≠ some s.pc → i.wf = true →
    StandsFetchable (encode i) s → step s = exec i s

/-- Outside 64-bit mode every step is refused (R35, R118, D1). -/
def Obligations.OtherModesAreRefused : Prop :=
  ∀ s : State, s.cfg.mode ≠ .long64 → step s = .refused .mode

/-- At END_ADDR the run is over: nothing is fetched and nothing runs (R207); that the step then answers a refusal
of this name is the model's choice (log 6). -/
def Obligations.StepAtEndAddrIsOver : Prop :=
  ∀ s : State, s.cfg.mode = .long64 → s.over → step s = .refused .runOver

/-- Where fetched bytes `bs` are a mere beginning of an instruction (none of them, or some), and the next byte cannot be
fetched: if its address is not canonical the step is #GP(0); if Translate faults the fetch, #PF with that address as
the faulting one; if it is outside MAPPED, it is refused (R64, R66, R130 stage 1, R182, R185). That the byte's stop is
the step's even past the fifteenth byte is R185's order, (1) before (2). Two things are the model's choice: where the
bytes already fetched decide a refusal, the stop of a byte the decoder still reads comes first (DEDUCED, log 8), and a
next byte at END_ADDR is fetched like any other (DESIGN CHOICE, log 6). -/
def Obligations.FetchFaults : Prop :=
  ∀ (s : State) (bs : List Byte), s.cfg.mode = .long64 → s.cfg.endAddr ≠ some s.pc → decode bs = .short →
    StandsFetchable bs s →
    let next := byteAddr s.pc bs.length
    (canonical s.cfg next = false → step s = .fault (.gp 0 s.pc)) ∧
    (∀ code, canonical s.cfg next = true → translateFault s.cfg .fetch next = some code →
      step s = .fault (.pf code next s.pc)) ∧
    (canonical s.cfg next = true → translateFault s.cfg .fetch next = none → isMapped s.cfg next = false →
      step s = .refused .unmapped)

/-- A launched program stands where it was put, mapped, as the program text, between the pc and END_ADDR (R203). -/
def Obligations.LaunchPlacesProgram : Prop :=
  ∀ (s : State) (base : Word) (program : List Byte), Memory.wf s.mem = true →
    base.toNat + program.length ≤ 2 ^ 64 →
    (s.launch base program).pc = base ∧
    (s.launch base program).cfg.endAddr = some (base + BitVec.ofNat 64 program.length) ∧
    ∀ t, t < program.length →
      readAt (s.launch base program).mem base t = program.getD t 0#8 ∧
      isMapped (s.launch base program).cfg (byteAddr base t) = true ∧
      isText (s.launch base program).cfg (byteAddr base t) = true

/-- An instruction of the opcode table placed with withFetchWord is the one the next step runs (log 7). -/
def Obligations.PlacedTableWordRuns : Prop :=
  ∀ (s : State) (nbits w : Nat) (i : Instr), Memory.wf s.mem = true → nbits ≤ 120 → s.pc.toNat + 15 ≤ 2 ^ 64 →
    (∀ t, t < 15 → canonical s.cfg (byteAddr s.pc t) = true) → decodeTableWord nbits w = some i →
    step (s.withFetchWord nbits w) = exec i (s.withFetchWord nbits w)

/-! ### Exceptions and refusals -/

/-- A VEX or EVEX form whose stored `vvvv` is not 1111b raises #UD (R93). -/
def Obligations.VvvvNotOnesRaisesUD : Prop :=
  ∀ (pre : List Prefix) (v : Vex2) (w : Vex3) (e : Evex) (reg : BitVec 3) (rm : RM) (s : State),
    (v.vvvv ≠ 15#4 → ∀ i ∈ [Instr.vmovapdVex128LoadC5 pre v reg rm, .vmovapdVex128StoreC5 pre v reg rm,
        .vmovapdVex256LoadC5 pre v reg rm, .vmovapdVex256StoreC5 pre v reg rm],
      Admitted i s → exec i s = .fault (.ud s.pc)) ∧
    (w.vvvv ≠ 15#4 → ∀ i ∈ [Instr.vmovapdVex128LoadC4 pre w reg rm, .vmovapdVex128StoreC4 pre w reg rm,
        .vmovapdVex256LoadC4 pre w reg rm, .vmovapdVex256StoreC4 pre w reg rm],
      Admitted i s → exec i s = .fault (.ud s.pc)) ∧
    (e.vvvv ≠ 15#4 → ∀ i ∈ [Instr.vmovapdEvex128Load pre e reg rm, .vmovapdEvex256Load pre e reg rm,
        .vmovapdEvex512Load pre e reg rm, .vmovapdEvex128Store pre e reg rm, .vmovapdEvex256Store pre e reg rm,
        .vmovapdEvex512Store pre e reg rm],
      Admitted i s → exec i s = .fault (.ud s.pc))

/-- An instruction in 64-bit mode of at most 15 bytes raises #UD exactly when one of the conditions of R174 to R179
holds: a forbidden prefix, a field not at its one value, z misused, a feature flag or an enable clear. -/
def Obligations.UndefinedOpcodeExactlyWhen : Prop :=
  ∀ (i : Instr) (s : State), Admitted i s → (exec i s = .fault (.ud s.pc) ↔ ¬ NoUndefined i s.cfg)

/-- Any form preceded by LOCK raises #UD, with a register or a memory operand alike (R179). -/
def Obligations.LockPrefixRaisesUD : Prop :=
  ∀ (i : Instr) (s : State), Admitted i s → .lock ∈ prefixesOf i → exec i s = .fault (.ud s.pc)

/-- The reserved EVEX fields (R102). In the family's rows: stored `vvvv` not 1111b, V' = 0, P0[3:2] not 00b or
P1[2] = 0 raises #UD. In the decoder: `mm` = 00b is an undefined opcode whatever follows, so are P0[3:2] not 00b
and P1[2] = 0 outside the family, and so is L'L = 11b in the family; and a step at such bytes raises #UD, provided
they are at most 15, #GP(0) for the length coming first (R185; the length counted outside the family is the model's
choice, DEDUCED, log 9). -/
def Obligations.ReservedEvexFieldsRaiseUD : Prop :=
  (∀ (pre : List Prefix) (e : Evex) (reg : BitVec 3) (rm : RM) (s : State),
    e.vvvv ≠ 15#4 ∨ e.vHi = false ∨ e.p0Res ≠ 0#2 ∨ e.p1Fix = false →
    ∀ i ∈ [Instr.vmovapdEvex128Load pre e reg rm, .vmovapdEvex256Load pre e reg rm,
        .vmovapdEvex512Load pre e reg rm, .vmovapdEvex128Store pre e reg rm, .vmovapdEvex256Store pre e reg rm,
        .vmovapdEvex512Store pre e reg rm],
      Admitted i s → exec i s = .fault (.ud s.pc)) ∧
  (∀ (pre : List Prefix) (p0 p1 p2 op : Byte) (rest : List Byte) (reg : BitVec 3) (rm : RM),
    vexPrefixesAdmitted pre = true →
    (p0.extractLsb' 0 2 = 0#2 →
      decode (pre.map prefixByte ++ 0x62#8 :: p0 :: p1 :: p2 :: op :: rest) = .ud (pre.length + 5)) ∧
    (p0.extractLsb' 2 2 ≠ 0#2 ∨ p1.getLsbD 2 = false → evexListed p0 p1 op = false →
      decode (pre.map prefixByte ++ 0x62#8 :: p0 :: p1 :: p2 :: op :: rest) = .ud (pre.length + 5)) ∧
    (p2.extractLsb' 5 2 = 3#2 → evexListed p0 p1 op = true → takeModRM rest = some (reg, rm) →
      decode (pre.map prefixByte ++ 0x62#8 :: p0 :: p1 :: p2 :: op :: rest) = .ud (pre.length + 6 + rmLen rm))) ∧
  (∀ (s : State) (n : Nat), s.cfg.mode = .long64 → s.cfg.endAddr ≠ some s.pc → decode (fetchBytes s).1 = .ud n →
    step s = if n ≤ 15 then .fault (.ud s.pc) else .fault (.gp 0 s.pc))

/-- An instruction longer than 15 bytes raises #GP(0), before any #UD (R115): a step at its encoding does, once every
byte of it could be fetched, and so does its meaning. -/
def Obligations.LongInstructionRaisesGP : Prop :=
  ∀ (i : Instr) (s : State), s.cfg.mode = .long64 → 15 < (encode i).length →
    (i.wf = true → s.cfg.endAddr ≠ some s.pc → StandsFetchable (encode i) s → step s = .fault (.gp 0 s.pc)) ∧
    exec i s = .fault (.gp 0 s.pc)

/-- With TS set every form raises #NM, provided no #UD condition of R174 to R179 holds (R180). -/
def Obligations.TaskSwitchedRaisesNM : Prop :=
  ∀ (i : Instr) (s : State), Admitted i s → NoUndefined i s.cfg → s.cfg.ts = true → exec i s = .fault (.nm s.pc)

/-- A memory operand whose linear address is not a multiple of its size, 16, 32 or 64 bytes, raises #GP(0),
whatever the writemask; nothing is read or written (R57, R58). -/
def Obligations.MisalignedOperandRaisesGP : Prop :=
  ∀ (i : Instr) (m : MemOperand) (s : State), PastChecks i s → rmOperand i = .mem m →
    (operandAddr i m s).toNat % operandBytes i ≠ 0 → exec i s = .fault (.gp 0 s.pc)

/-- An aligned operand with an accessed byte that is not canonical raises #SS(0) where the access uses the SS
segment, else #GP(0), before any page fault (R65, R182, R185). -/
def Obligations.NonCanonicalOperandRaises : Prop :=
  ∀ (i : Instr) (m : MemOperand) (s : State) (t : Nat), PastChecks i s → rmOperand i = .mem m →
    (operandAddr i m s).toNat % operandBytes i = 0 → t < operandBytes i → enabledByte i s t = true →
    canonical s.cfg (byteAddr (operandAddr i m s) t) = false →
    exec i s = .fault (if usesStack (formOf i) m then .ss 0 s.pc else .gp 0 s.pc)

/-- The access uses the SS segment exactly when there is no FS or GS override and the base register is number 4
(RSP) or 5 (RBP), not R12 or R13 (R113); the number's high bit is B of REX, VEX or EVEX. -/
def Obligations.StackSegmentForms : Prop :=
  ∀ (i : Instr) (rm : BitVec 3) (d : Disp) (sc : BitVec 2) (ix : BitVec 3) (d32 : BitVec 32),
    (.seg .fs ∈ prefixesOf i ∨ .seg .gs ∈ prefixesOf i → ∀ m, usesStack (formOf i) m = false) ∧
    (.seg .fs ∉ prefixesOf i → .seg .gs ∉ prefixesOf i →
      (usesStack (formOf i) (.base rm d) = true ↔ baseExt i = false ∧ (rm = 4#3 ∨ rm = 5#3)) ∧
      (usesStack (formOf i) (.sib sc ix rm d) = true ↔ baseExt i = false ∧ (rm = 4#3 ∨ rm = 5#3)) ∧
      usesStack (formOf i) (.rip d32) = false ∧ usesStack (formOf i) (.sibNoBase sc ix d32) = false)

/-- An aligned operand whose accessed bytes are canonical raises #PF where Translate faults one of them, with the
fault's code; the recorded address is that of the lowest such byte (R66, R182; which byte is log 11). -/
def Obligations.DeniedByteRaisesPF : Prop :=
  ∀ (i : Instr) (m : MemOperand) (s : State) (t : Nat) (code : ErrCode), PastChecks i s → rmOperand i = .mem m →
    (operandAddr i m s).toNat % operandBytes i = 0 →
    (∀ u, u < operandBytes i → enabledByte i s u = true →
      canonical s.cfg (byteAddr (operandAddr i m s) u) = true) →
    t < operandBytes i → enabledByte i s t = true →
    translateFault s.cfg (operandAccess i) (byteAddr (operandAddr i m s) t) = some code →
    (∀ u, u < t → enabledByte i s u = true →
      translateFault s.cfg (operandAccess i) (byteAddr (operandAddr i m s) u) = none) →
    exec i s = .fault (.pf code (byteAddr (operandAddr i m s) t) s.pc)

/-- An operand that passes alignment, canonicality and translation is refused where an accessed byte is outside
MAPPED; where all are mapped, a store onto a byte of the program text is refused (R64, R72, R185). That an operand with
bytes of both kinds is refused as unmapped is the model's choice (DEDUCED, log 17). -/
def Obligations.UnmappedOrTextOperandIsRefused : Prop :=
  ∀ (i : Instr) (m : MemOperand) (s : State) (t : Nat), PastChecks i s → rmOperand i = .mem m →
    (operandAddr i m s).toNat % operandBytes i = 0 →
    (∀ u, u < operandBytes i → enabledByte i s u = true →
      canonical s.cfg (byteAddr (operandAddr i m s) u) = true ∧
      translateFault s.cfg (operandAccess i) (byteAddr (operandAddr i m s) u) = none) →
    t < operandBytes i → enabledByte i s t = true →
    (isMapped s.cfg (byteAddr (operandAddr i m s) t) = false → exec i s = .refused .unmapped) ∧
    ((∀ u, u < operandBytes i → enabledByte i s u = true →
        isMapped s.cfg (byteAddr (operandAddr i m s) u) = true) →
      operandAccess i = .write → isText s.cfg (byteAddr (operandAddr i m s) t) = true →
      exec i s = .refused .codeWrite)

/-- An instruction after which the pc would wrap or be non-canonical is refused, whether it copies a register, loads or
stores, once nothing else stops it (R26, D19). That this is decided last, and also where the pc after it is END_ADDR,
is the model's choice (DEDUCED, log 15). -/
def Obligations.PcOutOfRangeIsRefused : Prop :=
  ∀ (i : Instr) (s : State), PastChecks i s →
    (∀ m, rmOperand i = .mem m →
      Accessible (operandAccess i) (operandAddr i m s) (operandBytes i) (enabledByte i s) s) →
    ¬ PcInRange i s → exec i s = .refused .pcRange

/-- Every fault of a step records the address of the instruction's first byte, and the error code of #SS and #GP is
0 (R170, R172). -/
def Obligations.FaultRecordsInstructionAddress : Prop :=
  ∀ (s : State) (f : Fault), step s = .fault f →
    f.faultingPc = s.pc ∧ (f.vector = 12 ∨ f.vector = 13 → f.errorCode = some 0)

/-- With the control registers at CR0 = 60000010h, CR4 = 0, XCR0 = 1, every form raises #UD, whatever the processor
has (R33, R34, R201). -/
def Obligations.UndefinedUntilSystemSoftwareEnables : Prop :=
  ∀ (i : Instr) (s : State), s.cfg = withControlRegisters s.cfg 0x60000010#64 0#64 1#64 → Admitted i s →
    exec i s = .fault (.ud s.pc)

/-- The enables are the conditions on CR0, CR4 and XCR0 (R34). -/
def Obligations.EnablesFromControlRegisters : Prop :=
  ∀ (c : Config) (cr0 cr4 xcr0 : Word),
    ((withControlRegisters c cr0 cr4 xcr0).osSSE = true ↔ cr0.getLsbD 2 = false ∧ cr4.getLsbD 9 = true) ∧
    ((withControlRegisters c cr0 cr4 xcr0).osAVX = true ↔ cr4.getLsbD 18 = true ∧ xcr0.extractLsb' 1 2 = 3#2) ∧
    ((withControlRegisters c cr0 cr4 xcr0).osAVX512 = true ↔
      (withControlRegisters c cr0 cr4 xcr0).osAVX = true ∧ xcr0.extractLsb' 5 3 = 7#3) ∧
    ((withControlRegisters c cr0 cr4 xcr0).ts = true ↔ cr0.getLsbD 3 = true)

/-! ### Legacy forms -/

/-- MOVAPD, register copy, by either opcode, without and with REX (R132, R133): it completes; bits 127:0 of the
destination are the source's, its other bits and all other state but the pc are as before. -/
def Obligations.LegacyRegisterCopy : Prop :=
  ∀ (pre : List Prefix) (x : Rex) (reg rm : BitVec 3) (s : State),
    (Ready (.movapdLoad pre reg (.reg rm)) s →
      CompletesWritingReg (.movapdLoad pre reg (.reg rm)) s (0#2 ++ reg) fun j =>
        if j < 2 then lane (s.readV (0#2 ++ rm)) j else lane (s.readV (0#2 ++ reg)) j) ∧
    (Ready (.movapdStore pre reg (.reg rm)) s →
      CompletesWritingReg (.movapdStore pre reg (.reg rm)) s (0#2 ++ rm) fun j =>
        if j < 2 then lane (s.readV (0#2 ++ reg)) j else lane (s.readV (0#2 ++ rm)) j) ∧
    (Ready (.movapdLoadRex pre x reg (.reg rm)) s →
      CompletesWritingReg (.movapdLoadRex pre x reg (.reg rm)) s (0#1 ++ BitVec.ofBool x.r ++ reg) fun j =>
        if j < 2 then lane (s.readV (0#1 ++ BitVec.ofBool x.b ++ rm)) j
        else lane (s.readV (0#1 ++ BitVec.ofBool x.r ++ reg)) j) ∧
    (Ready (.movapdStoreRex pre x reg (.reg rm)) s →
      CompletesWritingReg (.movapdStoreRex pre x reg (.reg rm)) s (0#1 ++ BitVec.ofBool x.b ++ rm) fun j =>
        if j < 2 then lane (s.readV (0#1 ++ BitVec.ofBool x.r ++ reg)) j
        else lane (s.readV (0#1 ++ BitVec.ofBool x.b ++ rm)) j)

/-- MOVAPD, load (R132): with its 16 bytes accessible it completes; bits 127:0 of the destination are the bytes,
the lowest address lowest, and its other bits and all other state but the pc are as before. -/
def Obligations.LegacyLoad : Prop :=
  ∀ (pre : List Prefix) (x : Rex) (reg : BitVec 3) (m : MemOperand) (s : State) (i : Instr) (d : BitVec 5),
    (i = .movapdLoad pre reg (.mem m) ∧ d = 0#2 ++ reg) ∨
      (i = .movapdLoadRex pre x reg (.mem m) ∧ d = 0#1 ++ BitVec.ofBool x.r ++ reg) →
    Ready i s → Accessible .read (operandAddr i m s) 16 allBytes s →
    CompletesWritingReg i s d fun j =>
      if j < 2 then quadAt s.mem (operandAddr i m s) j else lane (s.readV d) j

/-- MOVAPD, store (R133): with its 16 bytes accessible it completes; they become bits 127:0 of the source, and no
other byte, no register and no other state but the pc changes. -/
def Obligations.LegacyStore : Prop :=
  ∀ (pre : List Prefix) (x : Rex) (reg : BitVec 3) (m : MemOperand) (s : State) (i : Instr) (r : BitVec 5),
    (i = .movapdStore pre reg (.mem m) ∧ r = 0#2 ++ reg) ∨
      (i = .movapdStoreRex pre x reg (.mem m) ∧ r = 0#1 ++ BitVec.ofBool x.r ++ reg) →
    Ready i s → Memory.wf s.mem = true → Accessible .write (operandAddr i m s) 16 allBytes s →
    CompletesWritingMem i s (operandAddr i m s) 16 allBytes (s.readV r)

/-- A legacy copy of a register onto itself changes nothing but the pc (R121, R132, R133). -/
def Obligations.LegacySelfCopyChangesOnlyPc : Prop :=
  ∀ (pre : List Prefix) (x : Rex) (r : BitVec 3) (s : State) (i : Instr),
    i = .movapdLoad pre r (.reg r) ∨ i = .movapdStore pre r (.reg r) ∨
      (x.r = x.b ∧ (i = .movapdLoadRex pre x r (.reg r) ∨ i = .movapdStoreRex pre x r (.reg r))) →
    Ready i s → exec i s = .next { s with pc := s.pc + BitVec.ofNat 64 (encode i).length }

/-! ### VEX forms -/

/-- VMOVAPD, VEX.128 and VEX.256 register copy, by either opcode and either prefix (R141 to R144): it completes;
the low 128 or 256 bits of the destination are the source's, every higher bit of it is 0, and all other state
but the pc is as before. -/
def Obligations.VexRegisterCopy : Prop :=
  ∀ (pre : List Prefix) (v : Vex2) (w : Vex3) (reg rm : BitVec 3) (s : State) (i : Instr) (d src : BitVec 5)
    (kl : Nat),
    (i = .vmovapdVex128LoadC5 pre v reg (.reg rm) ∧ kl = 2 ∧ d = 0#1 ++ BitVec.ofBool v.r ++ reg ∧ src = 0#2 ++ rm) ∨
    (i = .vmovapdVex128StoreC5 pre v reg (.reg rm) ∧ kl = 2 ∧ src = 0#1 ++ BitVec.ofBool v.r ++ reg ∧ d = 0#2 ++ rm) ∨
    (i = .vmovapdVex256LoadC5 pre v reg (.reg rm) ∧ kl = 4 ∧ d = 0#1 ++ BitVec.ofBool v.r ++ reg ∧ src = 0#2 ++ rm) ∨
    (i = .vmovapdVex256StoreC5 pre v reg (.reg rm) ∧ kl = 4 ∧ src = 0#1 ++ BitVec.ofBool v.r ++ reg ∧ d = 0#2 ++ rm) ∨
    (i = .vmovapdVex128LoadC4 pre w reg (.reg rm) ∧ kl = 2 ∧
      d = 0#1 ++ BitVec.ofBool w.r ++ reg ∧ src = 0#1 ++ BitVec.ofBool w.b ++ rm) ∨
    (i = .vmovapdVex128StoreC4 pre w reg (.reg rm) ∧ kl = 2 ∧
      src = 0#1 ++ BitVec.ofBool w.r ++ reg ∧ d = 0#1 ++ BitVec.ofBool w.b ++ rm) ∨
    (i = .vmovapdVex256LoadC4 pre w reg (.reg rm) ∧ kl = 4 ∧
      d = 0#1 ++ BitVec.ofBool w.r ++ reg ∧ src = 0#1 ++ BitVec.ofBool w.b ++ rm) ∨
    (i = .vmovapdVex256StoreC4 pre w reg (.reg rm) ∧ kl = 4 ∧
      src = 0#1 ++ BitVec.ofBool w.r ++ reg ∧ d = 0#1 ++ BitVec.ofBool w.b ++ rm) →
    Ready i s → CompletesWritingReg i s d fun j => if j < kl then lane (s.readV src) j else 0#64

/-- VMOVAPD, VEX.128 and VEX.256 load (R141, R143): with its 16 or 32 bytes accessible it completes; the low bits
of the destination are the bytes, every higher bit of it is 0, and all other state but the pc is as before. -/
def Obligations.VexLoad : Prop :=
  ∀ (pre : List Prefix) (v : Vex2) (w : Vex3) (reg : BitVec 3) (m : MemOperand) (s : State) (i : Instr)
    (d : BitVec 5) (kl : Nat),
    (i = .vmovapdVex128LoadC5 pre v reg (.mem m) ∧ kl = 2 ∧ d = 0#1 ++ BitVec.ofBool v.r ++ reg) ∨
    (i = .vmovapdVex256LoadC5 pre v reg (.mem m) ∧ kl = 4 ∧ d = 0#1 ++ BitVec.ofBool v.r ++ reg) ∨
    (i = .vmovapdVex128LoadC4 pre w reg (.mem m) ∧ kl = 2 ∧ d = 0#1 ++ BitVec.ofBool w.r ++ reg) ∨
    (i = .vmovapdVex256LoadC4 pre w reg (.mem m) ∧ kl = 4 ∧ d = 0#1 ++ BitVec.ofBool w.r ++ reg) →
    Ready i s → Accessible .read (operandAddr i m s) (8 * kl) allBytes s →
    CompletesWritingReg i s d fun j => if j < kl then quadAt s.mem (operandAddr i m s) j else 0#64

/-- VMOVAPD, VEX.128 and VEX.256 store (R142, R144): with its 16 or 32 bytes accessible it completes; they become
the low bits of the source, and no other byte, no register and no other state but the pc changes. -/
def Obligations.VexStore : Prop :=
  ∀ (pre : List Prefix) (v : Vex2) (w : Vex3) (reg : BitVec 3) (m : MemOperand) (s : State) (i : Instr)
    (r : BitVec 5) (n : Nat),
    (i = .vmovapdVex128StoreC5 pre v reg (.mem m) ∧ n = 16 ∧ r = 0#1 ++ BitVec.ofBool v.r ++ reg) ∨
    (i = .vmovapdVex256StoreC5 pre v reg (.mem m) ∧ n = 32 ∧ r = 0#1 ++ BitVec.ofBool v.r ++ reg) ∨
    (i = .vmovapdVex128StoreC4 pre w reg (.mem m) ∧ n = 16 ∧ r = 0#1 ++ BitVec.ofBool w.r ++ reg) ∨
    (i = .vmovapdVex256StoreC4 pre w reg (.mem m) ∧ n = 32 ∧ r = 0#1 ++ BitVec.ofBool w.r ++ reg) →
    Ready i s → Memory.wf s.mem = true → Accessible .write (operandAddr i m s) n allBytes s →
    CompletesWritingMem i s (operandAddr i m s) n allBytes (s.readV r)

/-- The two- and the three-byte VEX prefix with X = B = 0 are the same instruction one byte apart, whatever W is,
for every operand that is not RIP-relative (R95). -/
def Obligations.TwoAndThreeByteVexAgree : Prop :=
  ∀ (pre : List Prefix) (r w : Bool) (vvvv : BitVec 4) (reg : BitVec 3) (rm : RM) (s t u : State) (i j : Instr),
    (∀ d, rm ≠ .mem (.rip d)) →
    (i, j) ∈ [(Instr.vmovapdVex128LoadC5 pre ⟨r, vvvv⟩ reg rm, Instr.vmovapdVex128LoadC4 pre ⟨r, false, false, w, vvvv⟩ reg rm),
      (.vmovapdVex128StoreC5 pre ⟨r, vvvv⟩ reg rm, .vmovapdVex128StoreC4 pre ⟨r, false, false, w, vvvv⟩ reg rm),
      (.vmovapdVex256LoadC5 pre ⟨r, vvvv⟩ reg rm, .vmovapdVex256LoadC4 pre ⟨r, false, false, w, vvvv⟩ reg rm),
      (.vmovapdVex256StoreC5 pre ⟨r, vvvv⟩ reg rm, .vmovapdVex256StoreC4 pre ⟨r, false, false, w, vvvv⟩ reg rm)] →
    exec i s = .next t → exec j s = .next u → u = { t with pc := t.pc + 1#64 }

/-! ### EVEX forms -/

/-- VMOVAPD, EVEX register copy, by either opcode, at each length (R151 to R158): it completes; an enabled element
of the destination is the source's, a masked-off one keeps its value under merging and is 0 under zeroing, every
bit above VL is 0 whatever the mask, and all other state but the pc is as before. -/
def Obligations.EvexRegisterCopy : Prop :=
  ∀ (pre : List Prefix) (e : Evex) (reg rm : BitVec 3) (s : State) (i : Instr) (d src : BitVec 5) (kl : Nat),
    ((i = .vmovapdEvex128Load pre e reg (.reg rm) ∧ kl = 2 ∨ i = .vmovapdEvex256Load pre e reg (.reg rm) ∧ kl = 4 ∨
        i = .vmovapdEvex512Load pre e reg (.reg rm) ∧ kl = 8) ∧
      d = BitVec.ofBool e.rHi ++ BitVec.ofBool e.r ++ reg ∧ src = BitVec.ofBool e.x ++ BitVec.ofBool e.b ++ rm) ∨
    ((i = .vmovapdEvex128Store pre e reg (.reg rm) ∧ kl = 2 ∨ i = .vmovapdEvex256Store pre e reg (.reg rm) ∧ kl = 4 ∨
        i = .vmovapdEvex512Store pre e reg (.reg rm) ∧ kl = 8) ∧
      src = BitVec.ofBool e.rHi ++ BitVec.ofBool e.r ++ reg ∧ d = BitVec.ofBool e.x ++ BitVec.ofBool e.b ++ rm) →
    Ready i s →
    CompletesWritingReg i s d fun j =>
      if j < kl then
        (if evexMask e s j then lane (s.readV src) j else if e.z then 0#64 else lane (s.readV d) j)
      else 0#64

/-- VMOVAPD, EVEX load, at each length (R152 to R155, R160): with the operand aligned and its enabled bytes
accessible it completes; an enabled element of the destination is its 8 bytes, a masked-off one keeps its value or
is 0, every bit above VL is 0, and all other state but the pc is as before. -/
def Obligations.EvexLoad : Prop :=
  ∀ (pre : List Prefix) (e : Evex) (reg : BitVec 3) (m : MemOperand) (s : State) (i : Instr) (d : BitVec 5)
    (kl : Nat),
    (i = .vmovapdEvex128Load pre e reg (.mem m) ∧ kl = 2 ∨ i = .vmovapdEvex256Load pre e reg (.mem m) ∧ kl = 4 ∨
      i = .vmovapdEvex512Load pre e reg (.mem m) ∧ kl = 8) →
    d = BitVec.ofBool e.rHi ++ BitVec.ofBool e.r ++ reg →
    Ready i s → Accessible .read (operandAddr i m s) (8 * kl) (fun t => evexMask e s (t / 8)) s →
    CompletesWritingReg i s d fun j =>
      if j < kl then
        (if evexMask e s j then quadAt s.mem (operandAddr i m s) j else if e.z then 0#64 else lane (s.readV d) j)
      else 0#64

/-- VMOVAPD, EVEX store, at each length (R156 to R159): with the operand aligned and its enabled bytes accessible
it completes; the bytes of the enabled elements become the source's, and no other byte, no register and no other
state but the pc changes. With z = 1 it raises #UD. -/
def Obligations.EvexStore : Prop :=
  ∀ (pre : List Prefix) (e : Evex) (reg : BitVec 3) (m : MemOperand) (s : State) (i : Instr) (n : Nat),
    (i = .vmovapdEvex128Store pre e reg (.mem m) ∧ n = 16 ∨ i = .vmovapdEvex256Store pre e reg (.mem m) ∧ n = 32 ∨
      i = .vmovapdEvex512Store pre e reg (.mem m) ∧ n = 64) →
    (Ready i s → Memory.wf s.mem = true →
      Accessible .write (operandAddr i m s) n (fun t => evexMask e s (t / 8)) s →
      CompletesWritingMem i s (operandAddr i m s) n (fun t => evexMask e s (t / 8))
        (s.readV (BitVec.ofBool e.rHi ++ BitVec.ofBool e.r ++ reg))) ∧
    (Admitted i s → e.z = true → exec i s = .fault (.ud s.pc))

/-- Without a writemask an EVEX.128 or EVEX.256 register copy of registers 0 to 15 leaves the same vector registers
as the VEX form of the same length (R124, R153). -/
def Obligations.UnmaskedEvexMatchesVex : Prop :=
  ∀ (pre : List Prefix) (e : Evex) (w : Bool) (vvvv : BitVec 4) (reg rm : BitVec 3) (s t u : State) (i j : Instr),
    e.aaa = 0#3 → e.rHi = false → e.x = false →
    (i, j) ∈ [(Instr.vmovapdEvex128Load pre e reg (.reg rm), Instr.vmovapdVex128LoadC4 pre ⟨e.r, false, e.b, w, vvvv⟩ reg (.reg rm)),
      (.vmovapdEvex256Load pre e reg (.reg rm), .vmovapdVex256LoadC4 pre ⟨e.r, false, e.b, w, vvvv⟩ reg (.reg rm)),
      (.vmovapdEvex128Store pre e reg (.reg rm), .vmovapdVex128StoreC4 pre ⟨e.r, false, e.b, w, vvvv⟩ reg (.reg rm)),
      (.vmovapdEvex256Store pre e reg (.reg rm), .vmovapdVex256StoreC4 pre ⟨e.r, false, e.b, w, vvvv⟩ reg (.reg rm))] →
    exec i s = .next t → exec j s = .next u → t.v = u.v

/-- A load reads only the enabled bytes of its operand: memory that agrees on them gives the same registers and pc,
whatever the other bytes are (R54, R160). -/
def Obligations.LoadsReadOnlyEnabledBytes : Prop :=
  ∀ (i : Instr) (m : MemOperand) (s t : State) (mem' : Memory), loadForm i = true → rmOperand i = .mem m →
    (∀ u, u < operandBytes i → enabledByte i s u = true →
      readAt mem' (operandAddr i m s) u = readAt s.mem (operandAddr i m s) u) →
    exec i s = .next t → exec i { s with mem := mem' } = .next { t with mem := mem' }

/-- A register copy has two spellings, one per opcode, with ModRM.reg and ModRM.rm (and the class's extension bits)
exchanged: they do the same, stops included (R124). In the two-byte VEX class R is 0, since a register number above 7
in ModRM.rm needs the three-byte prefix (R92). -/
def Obligations.BothOpcodesCopyAlike : Prop :=
  ∀ (pre : List Prefix) (x : Rex) (w : Vex3) (e : Evex) (vvvv : BitVec 4) (reg rm : BitVec 3) (s : State),
    exec (.movapdLoad pre reg (.reg rm)) s = exec (.movapdStore pre rm (.reg reg)) s ∧
    exec (.movapdLoadRex pre x reg (.reg rm)) s =
      exec (.movapdStoreRex pre ⟨x.w, x.b, x.x, x.r⟩ rm (.reg reg)) s ∧
    exec (.vmovapdVex128LoadC5 pre ⟨false, vvvv⟩ reg (.reg rm)) s =
      exec (.vmovapdVex128StoreC5 pre ⟨false, vvvv⟩ rm (.reg reg)) s ∧
    exec (.vmovapdVex256LoadC5 pre ⟨false, vvvv⟩ reg (.reg rm)) s =
      exec (.vmovapdVex256StoreC5 pre ⟨false, vvvv⟩ rm (.reg reg)) s ∧
    exec (.vmovapdVex128LoadC4 pre w reg (.reg rm)) s =
      exec (.vmovapdVex128StoreC4 pre ⟨w.b, w.x, w.r, w.w, w.vvvv⟩ rm (.reg reg)) s ∧
    exec (.vmovapdVex256LoadC4 pre w reg (.reg rm)) s =
      exec (.vmovapdVex256StoreC4 pre ⟨w.b, w.x, w.r, w.w, w.vvvv⟩ rm (.reg reg)) s ∧
    exec (.vmovapdEvex128Load pre e reg (.reg rm)) s =
      exec (.vmovapdEvex128Store pre { e with r := e.b, rHi := e.x, b := e.r, x := e.rHi } rm (.reg reg)) s ∧
    exec (.vmovapdEvex256Load pre e reg (.reg rm)) s =
      exec (.vmovapdEvex256Store pre { e with r := e.b, rHi := e.x, b := e.r, x := e.rHi } rm (.reg reg)) s ∧
    exec (.vmovapdEvex512Load pre e reg (.reg rm)) s =
      exec (.vmovapdEvex512Store pre { e with r := e.b, rHi := e.x, b := e.r, x := e.rHi } rm (.reg reg)) s

/-! ### Addresses -/

/-- The linear address of every addressing form, with no address-size prefix (R108 to R112): the segment base under
FS or GS, else 0, plus RIP of the next instruction and disp32, or base, index times scale and displacement; disp8
scaled by the operand's size in the EVEX class only. B and X, the high bits of the base's and the index's numbers, are
those of REX, VEX or EVEX, 0 where there are none (R83, R91, R92, R101). -/
def Obligations.AddressOfEachForm : Prop :=
  ∀ (i : Instr) (s : State) (rm ix : BitVec 3) (sc : BitVec 2) (d8 : BitVec 8) (d32 : BitVec 32) (seg : Word),
    .addrSize ∉ prefixesOf i →
    (.seg .fs ∈ prefixesOf i ∧ seg = s.fsBase) ∨
      (.seg .fs ∉ prefixesOf i ∧ .seg .gs ∈ prefixesOf i ∧ seg = s.gsBase) ∨
      (.seg .fs ∉ prefixesOf i ∧ .seg .gs ∉ prefixesOf i ∧ seg = 0#64) →
    let base := s.readX (BitVec.ofBool (baseExt i) ++ rm)
    let index := if BitVec.ofBool (indexExt i) ++ ix = 4#4 then 0#64
      else s.readX (BitVec.ofBool (indexExt i) ++ ix) * BitVec.ofNat 64 (2 ^ sc.toNat)
    let disp8 := if narrowForm i then d8.signExtend 64 else d8.signExtend 64 * BitVec.ofNat 64 (operandBytes i)
    operandAddr i (.rip d32) s = seg + (s.pc + BitVec.ofNat 64 (encode i).length + d32.signExtend 64) ∧
    operandAddr i (.base rm .none) s = seg + base ∧
    operandAddr i (.base rm (.d8 d8)) s = seg + (base + disp8) ∧
    operandAddr i (.base rm (.d32 d32)) s = seg + (base + d32.signExtend 64) ∧
    operandAddr i (.sib sc ix rm .none) s = seg + (base + index) ∧
    operandAddr i (.sib sc ix rm (.d8 d8)) s = seg + (base + index + disp8) ∧
    operandAddr i (.sib sc ix rm (.d32 d32)) s = seg + (base + index + d32.signExtend 64) ∧
    operandAddr i (.sibNoBase sc ix d32) s = seg + (index + d32.signExtend 64)

/-- Under 67h the effective address is the one formed from the low 32 bits of the base and index registers modulo
2^32, zero-extended, and the segment base, FS_BASE or GS_BASE under their override and else 0, is added in 64 bits
(R119). -/
def Obligations.AddressSizePrefixUsesLow32Bits : Prop :=
  ∀ (i : Instr) (s : State) (rm ix : BitVec 3) (sc : BitVec 2) (d : Disp) (d32 : BitVec 32) (seg : Word),
    .addrSize ∈ prefixesOf i →
    (.seg .fs ∈ prefixesOf i ∧ seg = s.fsBase) ∨
      (.seg .fs ∉ prefixesOf i ∧ .seg .gs ∈ prefixesOf i ∧ seg = s.gsBase) ∨
      (.seg .fs ∉ prefixesOf i ∧ .seg .gs ∉ prefixesOf i ∧ seg = 0#64) →
    let base := (s.readX (BitVec.ofBool (baseExt i) ++ rm)).setWidth 32
    let index := if BitVec.ofBool (indexExt i) ++ ix = 4#4 then 0#32
      else (s.readX (BitVec.ofBool (indexExt i) ++ ix)).setWidth 32 * BitVec.ofNat 32 (2 ^ sc.toNat)
    let disp : BitVec 32 := match d with
      | .none => 0#32
      | .d8 v => if narrowForm i then v.signExtend 32 else v.signExtend 32 * BitVec.ofNat 32 (operandBytes i)
      | .d32 v => v
    let next := (s.pc + BitVec.ofNat 64 (encode i).length).setWidth 32
    operandAddr i (.rip d32) s = seg + (next + d32).setWidth 64 ∧
    operandAddr i (.base rm d) s = seg + (base + disp).setWidth 64 ∧
    operandAddr i (.sib sc ix rm d) s = seg + (base + index + disp).setWidth 64 ∧
    operandAddr i (.sibNoBase sc ix d32) s = seg + (index + d32).setWidth 64

/-! ### Memory -/

/-- Memory read after a write of 16, 32 or 64 bytes, little-endian: the byte at `addr + t` becomes bits 8t+7 to 8t of
the value, a read of the same operand gives those bits back in the same places and 0 above them, every other byte is
as before, and the canonical form is kept (R52, R53, R55). -/
def Obligations.MemoryReadAfterWrite : Prop :=
  ∀ (m : Memory) (addr : Word) (val : Vec) (n : Nat), n = 16 ∨ n = 32 ∨ n = 64 → Memory.wf m = true →
    Memory.wf (memWrite m addr n val) = true ∧
    (∀ t, t < n → Memory.read (memWrite m addr n val) (addr + BitVec.ofNat 64 t).toNat = val.extractLsb' (8 * t) 8) ∧
    (∀ t, t < n → byteOf (memRead (memWrite m addr n val) addr n) t = byteOf val t) ∧
    (∀ t, n ≤ t → t < 64 → byteOf (memRead (memWrite m addr n val) addr n) t = 0#8) ∧
    ∀ a : Nat, (∀ t, t < n → a ≠ (byteAddr addr t).toNat) →
      Memory.read (memWrite m addr n val) a = Memory.read m a

/-- A 32-byte read of two adjacent 16-byte stores sees the first in bits 127:0 and the second in bits 255:128
(R56). -/
def Obligations.AdjacentStoresReadTogether : Prop :=
  ∀ (m : Memory) (addr : Word) (a b : Vec), Memory.wf m = true →
    (memRead (memWrite (memWrite m addr 16 a) (addr + 16#64) 16 b) addr 32).extractLsb' 0 128 = a.extractLsb' 0 128 ∧
    (memRead (memWrite (memWrite m addr 16 a) (addr + 16#64) 16 b) addr 32).extractLsb' 128 128 = b.extractLsb' 0 128

/-- A load right after a store returns the stored bytes (R68, R204), for every storing form, every loading form and
every overlap of their operands: each byte the load reads is the stored byte, where the store wrote that address, and
the byte of memory before the store elsewhere. The register the store reads and the register the load writes are those
ModRM.reg names. -/
def Obligations.LoadSeesEarlierStore : Prop :=
  ∀ (i j : Instr) (m m' : MemOperand) (s t u : State), Memory.wf s.mem = true →
    operandAccess i = .write → rmOperand i = .mem m → loadForm j = true → rmOperand j = .mem m' →
    exec i s = .next t → exec j t = .next u →
    ∀ p, p < operandBytes j → enabledByte j t p = true →
      (∀ q, q < operandBytes i → enabledByte i s q = true →
        byteAddr (operandAddr j m' t) p = byteAddr (operandAddr i m s) q →
        byteOf (u.readV (regOperand j)) p = byteOf (s.readV (regOperand i)) q) ∧
      ((∀ q, q < operandBytes i → enabledByte i s q = true →
          byteAddr (operandAddr j m' t) p ≠ byteAddr (operandAddr i m s) q) →
        byteOf (u.readV (regOperand j)) p = readAt s.mem (operandAddr j m' t) p)

/-! ### The whole machine -/

/-- The state after reset meets the invariant; its values are the model's choice (log 2 to 5). -/
def Obligations.ResetMeetsInvariant : Prop := State.reset.Inv

/-- Every step keeps the invariant: memory canonical, the configuration consistent, the pc canonical, nothing in
the bits and registers that do not exist (R7, R20, R24, R26, R39). -/
def Obligations.StepKeepsInvariant : Prop :=
  ∀ s t : State, s.Inv → step s = .next t → t.Inv

/-- A step changes only vector registers or memory, never both, and the pc: no opmask, general or segment-base
register, no flag, no MXCSR bit, no configuration (R25, R28 to R31, R39). -/
def Obligations.StepChangesOnlyVectorOrMemoryAndPc : Prop :=
  ∀ s t : State, step s = .next t →
    t = { s with v := t.v, mem := t.mem, pc := t.pc } ∧ (t.v = s.v ∨ t.mem = s.mem)

/-- No legacy or VEX form can change registers 16 to 31 (R22). -/
def Obligations.HighRegistersSurviveLegacyAndVex : Prop :=
  ∀ (i : Instr) (s t : State), narrowForm i = true → exec i s = .next t →
    ∀ n : BitVec 5, 16 ≤ n.toNat → t.readV n = s.readV n

/-- Every step moves the pc up by at least 4 and at most 15 bytes (R26, R114, R115, R207). -/
def Obligations.StepAdvancesPc : Prop :=
  ∀ s t : State, step s = .next t → s.pc.toNat + 4 ≤ t.pc.toNat ∧ t.pc.toNat ≤ s.pc.toNat + 15

/-- A run cannot hang: k steps without a stop move the pc up by at least 4k bytes, so fewer than 2^62 steps are
possible (R207). -/
def Obligations.RunsCannotHang : Prop :=
  ∀ (k : Nat) (s t : State), Reaches k s t → s.pc.toNat + 4 * k ≤ t.pc.toNat ∧ k < 2 ^ 62

/-- What a run never touches: after any number of steps the opmask, general and segment-base registers, the flags
and the configuration are those of the start, and the invariant still holds (R25, R28 to R31, R39). -/
def Obligations.RunsKeepInvariantAndControlState : Prop :=
  ∀ (k : Nat) (s t : State), s.Inv → Reaches k s t →
    t.Inv ∧ t.cfg = s.cfg ∧ t.k = s.k ∧ t.x = s.x ∧ t.fsBase = s.fsBase ∧ t.gsBase = s.gsBase ∧
      t.rflags = s.rflags ∧ t.mxcsr = s.mxcsr

/-! ### Incomplete encodings -/

/-- The proper beginnings of an instruction's encoding are no instruction, no refusal and no undefined opcode: the
decoder waits for the bytes that are missing (R117, R130). -/
def Obligations.EncodingBeginningsAreShort : Prop :=
  ∀ (i : Instr) (n : Nat), i.wf = true → n < (encode i).length → decode ((encode i).take n) = .short

/-! ### CPUID -/

/-- The feature flags are the CPUID bits: SSE2 is CPUID.01H:EDX[26], AVX is CPUID.01H:ECX[28], AVX512F and AVX512VL are
bits 16 and 31 of CPUID.(EAX=07H, ECX=0):EBX; nothing else of the configuration depends on them; and a form whose bit
(both bits, for EVEX.128 and EVEX.256) is 0 raises #UD (R36, R106, R175). -/
def Obligations.FeaturesFromCpuid : Prop :=
  ∀ (c : Config) (edx1 ecx1 ebx7 : BitVec 32),
    withCpuid c edx1 ecx1 ebx7 =
      { c with
        hasSSE2 := edx1.getLsbD 26, hasAVX := ecx1.getLsbD 28,
        hasAVX512F := ebx7.getLsbD 16, hasAVX512VL := ebx7.getLsbD 31 } ∧
    ∀ (i : Instr) (s : State), s.cfg = withCpuid c edx1 ecx1 ebx7 → Admitted i s →
      cpuidBits edx1 ecx1 ebx7 i = false → exec i s = .fault (.ud s.pc)
end

