-- ==== Sys2Proof/Laws/Memory.lean ====
section
/-!
SUPPORT. The laws of memory: a read after a write, and the canonical form, which every operation keeps.
-/

namespace Sys2Proof.Machine

@[simp] theorem read_nil (a : Nat) : Memory.read [] a = unlistedByte := rfl

/-- Reading below every listed address. -/
theorem read_of_lt {lo : Nat} {m : Memory} (h : Memory.wfFrom lo m = true) {a : Nat} (ha : a < lo) :
    Memory.read m a = unlistedByte := by
  induction m generalizing lo with
  | nil => rfl
  | cons c rest ih =>
    obtain ⟨b, y⟩ := c
    simp only [Memory.wfFrom, Bool.and_eq_true, decide_eq_true_eq] at h
    simp only [Memory.read]
    rw [if_neg (by omega)]
    exact ih h.2 (by omega)

theorem wfFrom_mono {lo lo' : Nat} {m : Memory} (h : Memory.wfFrom lo m = true) (hle : lo' ≤ lo) :
    Memory.wfFrom lo' m = true := by
  cases m with
  | nil => rfl
  | cons c rest =>
    obtain ⟨b, y⟩ := c
    simp only [Memory.wfFrom, Bool.and_eq_true, decide_eq_true_eq] at h ⊢
    exact ⟨⟨⟨by omega, h.1.1.2⟩, h.1.2⟩, h.2⟩

theorem wfFrom_cons {lo a : Nat} {y : Byte} {m : Memory} (hlo : lo ≤ a) (ha : a < 2 ^ 64)
    (h : Memory.wfFrom (a + 1) m = true) : Memory.wfFrom lo (Memory.cons a y m) = true := by
  unfold Memory.cons
  split
  · exact wfFrom_mono h (by omega)
  · next hy =>
    simp only [Memory.wfFrom, Bool.and_eq_true, decide_eq_true_eq]
    exact ⟨⟨⟨hlo, ha⟩, hy⟩, h⟩

/-- Writing a byte keeps the canonical form. -/
theorem wfFrom_write {lo a : Nat} {m : Memory} (y : Byte) (hlo : lo ≤ a) (ha : a < 2 ^ 64)
    (h : Memory.wfFrom lo m = true) : Memory.wfFrom lo (Memory.write m a y) = true := by
  induction m generalizing lo with
  | nil => exact wfFrom_cons hlo ha rfl
  | cons c rest ih =>
    obtain ⟨b, z⟩ := c
    simp only [Memory.wfFrom, Bool.and_eq_true, decide_eq_true_eq] at h
    simp only [Memory.write]
    split
    · next hab => exact wfFrom_cons hlo ha (by simp [Memory.wfFrom, h]; omega)
    · split
      · next hab => subst hab; exact wfFrom_cons hlo ha h.2
      · simp only [Memory.wfFrom, Bool.and_eq_true, decide_eq_true_eq]
        exact ⟨h.1, ih (by omega) h.2⟩

/-- Writing a byte keeps the canonical form. -/
theorem wf_write {m : Memory} {a : Nat} (y : Byte) (ha : a < 2 ^ 64) (h : Memory.wf m = true) :
    Memory.wf (Memory.write m a y) = true :=
  wfFrom_write y (by omega) ha h

theorem wf_writeOffsets (addr : Word) (val : Vec) (ts : List Nat) {m : Memory} (h : Memory.wf m = true) :
    Memory.wf (writeOffsets addr val ts m) = true := by
  induction ts generalizing m with
  | nil => exact h
  | cons t ts ih => exact ih (wf_write _ (byteAddr addr t).isLt h)

/-- A masked write keeps the canonical form. -/
theorem wf_memWriteMasked (addr : Word) (n : Nat) (val : Vec) (bm : Nat → Bool) {m : Memory}
    (h : Memory.wf m = true) : Memory.wf (memWriteMasked m addr n val bm) = true :=
  wf_writeOffsets addr val _ h

/-- A write keeps the canonical form. -/
theorem wf_memWrite (addr : Word) (n : Nat) (val : Vec) {m : Memory} (h : Memory.wf m = true) :
    Memory.wf (memWrite m addr n val) = true :=
  wf_memWriteMasked addr n val _ h

theorem read_cons_self (a : Nat) (y : Byte) {m : Memory} (h : Memory.read m a = unlistedByte) :
    Memory.read (Memory.cons a y m) a = y := by
  unfold Memory.cons
  split
  · next hy => rw [h, hy]
  · simp [Memory.read]

theorem read_cons_other {a b : Nat} (y : Byte) (m : Memory) (h : b ≠ a) :
    Memory.read (Memory.cons a y m) b = Memory.read m b := by
  unfold Memory.cons
  split
  · rfl
  · simp [Memory.read, h]

/-- A write leaves every other address alone, in any list. -/
theorem read_write_other {a b : Nat} (y : Byte) (m : Memory) (h : b ≠ a) :
    Memory.read (Memory.write m a y) b = Memory.read m b := by
  induction m with
  | nil => simpa [Memory.write] using read_cons_other y [] h
  | cons c rest ih =>
    obtain ⟨e, z⟩ := c
    simp only [Memory.write]
    split
    · rw [read_cons_other y _ h]
    · split
      · next hae => subst hae; rw [read_cons_other y _ h]; simp [Memory.read, h]
      · simp [Memory.read, ih]

theorem read_write_self_from {lo a : Nat} (y : Byte) {m : Memory} (h : Memory.wfFrom lo m = true) :
    Memory.read (Memory.write m a y) a = y := by
  induction m generalizing lo with
  | nil => exact read_cons_self a y rfl
  | cons c rest ih =>
    obtain ⟨b, z⟩ := c
    have h' := h
    simp only [Memory.wfFrom, Bool.and_eq_true, decide_eq_true_eq] at h
    simp only [Memory.write]
    split
    · next hab =>
      refine read_cons_self a y (read_of_lt (lo := b) ?_ hab)
      simp only [Memory.wfFrom, Bool.and_eq_true, decide_eq_true_eq]
      exact ⟨⟨⟨Nat.le_refl b, h.1.1.2⟩, h.1.2⟩, h.2⟩
    · split
      · next hab => subst hab; exact read_cons_self a y (read_of_lt h.2 (by omega))
      · next h1 h2 => simp [Memory.read, h2, ih h.2]

/-- Reading the address written gives the byte written. -/
theorem read_write_self {m : Memory} (a : Nat) (y : Byte) (h : Memory.wf m = true) :
    Memory.read (Memory.write m a y) a = y :=
  read_write_self_from y h

/-- A write of offsets leaves every address that is none of them alone. -/
theorem read_writeOffsets_other (addr : Word) (val : Vec) (ts : List Nat) (m : Memory) {a : Nat}
    (h : ∀ t ∈ ts, a ≠ (byteAddr addr t).toNat) : Memory.read (writeOffsets addr val ts m) a = Memory.read m a := by
  induction ts generalizing m with
  | nil => rfl
  | cons t ts ih =>
    simp only [writeOffsets]
    rw [ih _ fun u hu => h u (List.mem_cons_of_mem _ hu), read_write_other _ _ (h t List.mem_cons_self)]

/-- Different offsets below 2^64 are different addresses. -/
theorem byteAddr_inj {addr : Word} {t u : Nat} (ht : t < 2 ^ 64) (hu : u < 2 ^ 64)
    (h : byteAddr addr t = byteAddr addr u) : t = u := by
  have h1 : BitVec.ofNat 64 t = BitVec.ofNat 64 u := add_left_cancel (a := addr) h
  have h2 := congrArg BitVec.toNat h1
  simpa only [BitVec.toNat_ofNat, Nat.mod_eq_of_lt ht, Nat.mod_eq_of_lt hu] using h2

/-- A write of different offsets leaves each of them the value's byte. -/
theorem read_writeOffsets_mem (addr : Word) (val : Vec) {ts : List Nat} (hnd : ts.Nodup)
    (hlt : ∀ t ∈ ts, t < 2 ^ 64) {m : Memory} (hm : Memory.wf m = true) {t : Nat} (ht : t ∈ ts) :
    Memory.read (writeOffsets addr val ts m) (byteAddr addr t).toNat = byteOf val t := by
  induction ts generalizing m with
  | nil => exact absurd ht (by simp)
  | cons u us ih =>
    simp only [writeOffsets]
    rw [List.nodup_cons] at hnd
    rcases List.mem_cons.mp ht with rfl | hmem
    · rw [read_writeOffsets_other, read_write_self _ _ hm]
      intro w hw heq
      have := byteAddr_inj (hlt t ht) (hlt w (List.mem_cons_of_mem _ hw)) (BitVec.eq_of_toNat_eq heq)
      exact hnd.1 (this ▸ hw)
    · exact ih hnd.2 (fun w hw => hlt w (List.mem_cons_of_mem _ hw)) (wf_write _ (byteAddr addr u).isLt hm) hmem

/-- A masked write leaves every address outside its enabled bytes alone. -/
theorem read_memWriteMasked_other (m : Memory) (addr : Word) (n : Nat) (val : Vec) (bm : Nat → Bool) {a : Nat}
    (h : ∀ u, u < n → bm u = true → a ≠ (byteAddr addr u).toNat) :
    Memory.read (memWriteMasked m addr n val bm) a = Memory.read m a := by
  refine read_writeOffsets_other addr val _ m fun t ht => ?_
  simp only [List.mem_filter, List.mem_range] at ht
  exact h t ht.1 ht.2

/-- A masked write leaves each enabled byte the value's byte. -/
theorem readAt_memWriteMasked_self {m : Memory} (hm : Memory.wf m = true) (addr : Word) {n : Nat} (hn : n ≤ 2 ^ 64)
    (val : Vec) {bm : Nat → Bool} {t : Nat} (ht : t < n) (hb : bm t = true) :
    readAt (memWriteMasked m addr n val bm) addr t = byteOf val t := by
  refine read_writeOffsets_mem addr val (List.nodup_range.filter _) (fun u hu => ?_) hm ?_
  · simp only [List.mem_filter, List.mem_range] at hu
    omega
  · simp [ht, hb]

end Sys2Proof.Machine
end

