-- ==== Sys2Proof/Laws/Fetch.lean ====
section
/-!
SUPPORT. What fetch and decode can do: bytes that decode go on decoding alike when more follow, what `fetchFrom`
answers, and that the window of `fetchBytes` is long enough for every instruction.
-/

namespace Sys2Proof

/-! ### More bytes change nothing -/

theorem takeDisp32_append {bs : List Byte} {v : BitVec 32} (more : List Byte) (h : takeDisp32 bs = some v) :
    takeDisp32 (bs ++ more) = some v := by
  match bs, h with
  | _ :: _ :: _ :: _ :: _, h => exact h

theorem takeDisp_append {mod : BitVec 2} {bs : List Byte} {d : Disp} (more : List Byte)
    (h : takeDisp mod bs = some d) : takeDisp mod (bs ++ more) = some d := by
  unfold takeDisp at h ⊢
  split
  · simpa [*] using h
  · split
    · cases bs <;> simp_all
    · simp only [*, if_false, Option.map_eq_some_iff] at h ⊢
      obtain ⟨v, hv, rfl⟩ := h
      exact ⟨v, takeDisp32_append more hv, rfl⟩

theorem takeSib_append {mod : BitVec 2} {bs : List Byte} {m : MemOperand} (more : List Byte)
    (h : takeSib mod bs = some m) : takeSib mod (bs ++ more) = some m := by
  cases bs with
  | nil => cases h
  | cons sb bs =>
    simp only [takeSib, List.cons_append] at h ⊢
    split at h
    · obtain ⟨v, hv, rfl⟩ := Option.map_eq_some_iff.mp h
      rw [if_pos ‹_›, takeDisp32_append more hv]; rfl
    · obtain ⟨v, hv, rfl⟩ := Option.map_eq_some_iff.mp h
      rw [if_neg ‹_›, takeDisp_append more hv]; rfl

theorem takeRM_append {mod : BitVec 2} {rm : BitVec 3} {bs : List Byte} {o : RM} (more : List Byte)
    (h : takeRM mod rm bs = some o) : takeRM mod rm (bs ++ more) = some o := by
  unfold takeRM at h ⊢
  split at h
  · rw [if_pos ‹_›]; exact h
  · rw [if_neg ‹_›]
    split at h
    · obtain ⟨v, hv, rfl⟩ := Option.map_eq_some_iff.mp h
      rw [if_pos ‹_›, takeSib_append more hv]; rfl
    · rw [if_neg ‹_›]
      split at h
      · obtain ⟨v, hv, rfl⟩ := Option.map_eq_some_iff.mp h
        rw [if_pos ‹_›, takeDisp32_append more hv]; rfl
      · obtain ⟨v, hv, rfl⟩ := Option.map_eq_some_iff.mp h
        rw [if_neg ‹_›, takeDisp_append more hv]; rfl

theorem takeModRM_append {bs : List Byte} {o : BitVec 3 × RM} (more : List Byte) (h : takeModRM bs = some o) :
    takeModRM (bs ++ more) = some o := by
  cases bs with
  | nil => cases h
  | cons b bs =>
    simp only [takeModRM, List.cons_append] at h ⊢
    obtain ⟨v, hv, rfl⟩ := Option.map_eq_some_iff.mp h
    rw [takeRM_append more hv]; rfl

theorem withModRM_append {bs : List Byte} {k : BitVec 3 → RM → Decoded} (more : List Byte)
    (h : withModRM bs k ≠ .short) : withModRM (bs ++ more) k = withModRM bs k := by
  unfold withModRM at h ⊢
  cases hm : takeModRM bs with
  | none => simp [hm] at h
  | some o => rw [takeModRM_append more hm]

theorem decodeLegacy_append {pre : List Prefix} {rex : Option Rex} {bs : List Byte} (more : List Byte)
    (h : decodeLegacy pre rex bs ≠ .short) : decodeLegacy pre rex (bs ++ more) = decodeLegacy pre rex bs := by
  cases bs with
  | nil => exact absurd rfl h
  | cons op bs =>
    simp only [decodeLegacy, List.cons_append] at h ⊢
    repeat' split
    all_goals first | rfl | (simp only [*, if_true, if_false] at h; exact withModRM_append more h)

theorem decodeVex2_append {pre : List Prefix} {bs : List Byte} (more : List Byte)
    (h : decodeVex2 pre bs ≠ .short) : decodeVex2 pre (bs ++ more) = decodeVex2 pre bs := by
  match bs with
  | [] => exact absurd rfl h
  | [_] => exact absurd rfl h
  | b1 :: op :: bs =>
    simp only [decodeVex2, List.cons_append] at h ⊢
    repeat' split
    all_goals first | rfl | (simp only [*, if_true, if_false] at h; exact withModRM_append more h)

theorem decodeVex3_append {pre : List Prefix} {bs : List Byte} (more : List Byte)
    (h : decodeVex3 pre bs ≠ .short) : decodeVex3 pre (bs ++ more) = decodeVex3 pre bs := by
  match bs with
  | [] => exact absurd rfl h
  | [_] => exact absurd rfl h
  | [_, _] => exact absurd rfl h
  | b1 :: b2 :: op :: bs =>
    simp only [decodeVex3, List.cons_append] at h ⊢
    repeat' split
    all_goals first | rfl | (simp only [*, if_true, if_false] at h; exact withModRM_append more h)

theorem decodeEvex_append {pre : List Prefix} {bs : List Byte} (more : List Byte)
    (h : decodeEvex pre bs ≠ .short) : decodeEvex pre (bs ++ more) = decodeEvex pre bs := by
  match bs with
  | [] => exact absurd rfl h
  | [_] => exact absurd rfl h
  | [_, _] => exact absurd rfl h
  | [_, _, _] => exact absurd rfl h
  | p0 :: p1 :: p2 :: op :: bs =>
    simp only [decodeEvex, List.cons_append] at h ⊢
    split
    · rfl
    · rw [if_neg ‹_›] at h
      split
      · rw [if_pos ‹_›] at h
        split
        · rw [if_pos ‹_›] at h; exact withModRM_append more h
        · rw [if_neg ‹_›] at h; exact withModRM_append more h
      · rfl

theorem decodeClass_append {pre : List Prefix} {bs : List Byte} (more : List Byte)
    (h : decodeClass pre bs ≠ .short) : decodeClass pre (bs ++ more) = decodeClass pre bs := by
  cases bs with
  | nil => exact absurd rfl h
  | cons b bs =>
    simp only [decodeClass, List.cons_append] at h ⊢
    repeat' split
    · simp only [*, if_true] at h; exact decodeLegacy_append more h
    · simp only [*, if_true] at h; exact decodeVex2_append more h
    · simp only [*, if_true] at h; exact decodeVex3_append more h
    · simp only [*, if_true] at h; exact decodeEvex_append more h
    · rfl

/-- Once the byte after the prefixes is there, more bytes do not change what was scanned. -/
theorem scanPrefixes_append {bs : List Byte} (more : List Byte) (h : (scanPrefixes bs).2 ≠ []) :
    scanPrefixes (bs ++ more) = ((scanPrefixes bs).1, (scanPrefixes bs).2 ++ more) := by
  induction bs with
  | nil => exact absurd rfl h
  | cons b bs ih =>
    simp only [scanPrefixes, List.cons_append] at h ⊢
    split <;> rename_i hp <;> simp only [hp] at h
    · rw [ih h]
    · rfl

/-- What is no beginning decodes alike whatever follows. -/
theorem decode_append {bs : List Byte} (more : List Byte) (h : decode bs ≠ .short) :
    decode (bs ++ more) = decode bs := by
  have hs : (scanPrefixes bs).2 ≠ [] := fun hn => h (by rw [decode, hn]; rfl)
  rw [decode, scanPrefixes_append more hs]
  exact decodeClass_append more h

/-! ### Eleven bytes after the prefixes are enough -/

theorem exists_takeDisp32 {bs : List Byte} (h : 4 ≤ bs.length) : ∃ v, takeDisp32 bs = some v := by
  match bs, h with
  | _ :: _ :: _ :: _ :: _, _ => exact ⟨_, rfl⟩

theorem exists_takeDisp (mod : BitVec 2) {bs : List Byte} (h : 4 ≤ bs.length) : ∃ d, takeDisp mod bs = some d := by
  obtain ⟨v, hv⟩ := exists_takeDisp32 h
  cases bs with
  | nil => cases hv
  | cons b bs => simp only [takeDisp, hv]; (repeat' split) <;> exact ⟨_, rfl⟩

theorem exists_takeModRM {bs : List Byte} (h : 6 ≤ bs.length) : ∃ o, takeModRM bs = some o := by
  match bs, h with
  | [], h => simp at h
  | [_], h => simp at h
  | b :: sb :: bs, h =>
    have h4 : 4 ≤ bs.length := by simpa using h
    have h5 : 4 ≤ (sb :: bs).length := by simp; omega
    obtain ⟨v, hv⟩ := exists_takeDisp32 h4
    obtain ⟨d, hd⟩ := exists_takeDisp (b.extractLsb' 6 2) h4
    obtain ⟨v', hv'⟩ := exists_takeDisp32 h5
    obtain ⟨d', hd'⟩ := exists_takeDisp (b.extractLsb' 6 2) h5
    simp only [takeModRM, takeRM, takeSib, hv, hd, hv', hd']
    (repeat' split) <;> exact ⟨_, rfl⟩

theorem withModRM_ne_short {bs : List Byte} {k : BitVec 3 → RM → Decoded} (h : 6 ≤ bs.length)
    (hk : ∀ reg rm, k reg rm ≠ .short) : withModRM bs k ≠ .short := by
  obtain ⟨o, ho⟩ := exists_takeModRM h
  rw [withModRM, ho]
  exact hk _ _

theorem decodeLegacy_ne_short (pre : List Prefix) (rex : Option Rex) {op : Byte} {bs : List Byte}
    (h : 6 ≤ bs.length) : decodeLegacy pre rex (op :: bs) ≠ .short := by
  simp only [decodeLegacy]
  (repeat' split) <;> first | exact withModRM_ne_short h fun _ _ => by simp | simp

theorem decodeVex2_ne_short (pre : List Prefix) {b1 op : Byte} {bs : List Byte} (h : 6 ≤ bs.length) :
    decodeVex2 pre (b1 :: op :: bs) ≠ .short := by
  simp only [decodeVex2]
  (repeat' split) <;> first | exact withModRM_ne_short h fun _ _ => by simp | simp

theorem decodeVex3_ne_short (pre : List Prefix) {b1 b2 op : Byte} {bs : List Byte} (h : 6 ≤ bs.length) :
    decodeVex3 pre (b1 :: b2 :: op :: bs) ≠ .short := by
  simp only [decodeVex3]
  (repeat' split) <;> first | exact withModRM_ne_short h fun _ _ => by simp | simp

theorem decodeEvex_ne_short (pre : List Prefix) {p0 p1 p2 op : Byte} {bs : List Byte} (h : 6 ≤ bs.length) :
    decodeEvex pre (p0 :: p1 :: p2 :: op :: bs) ≠ .short := by
  unfold decodeEvex
  dsimp only
  split
  · simp
  · split
    · split <;> exact withModRM_ne_short h fun _ _ => by (repeat' split) <;> simp
    · split <;> simp

theorem decodeClass_ne_short (pre : List Prefix) {bs : List Byte} (h : 11 ≤ bs.length) :
    decodeClass pre bs ≠ .short := by
  rcases bs with _ | ⟨b, _ | ⟨b1, _ | ⟨b2, _ | ⟨b3, _ | ⟨b4, bs⟩⟩⟩⟩⟩
  case cons.cons.cons.cons.cons =>
    simp only [List.length_cons] at h
    simp only [decodeClass]
    split
    · exact decodeLegacy_ne_short _ _ (by simp only [List.length_cons]; omega)
    · split
      · exact decodeVex2_ne_short _ (by simp only [List.length_cons]; omega)
      · split
        · exact decodeVex3_ne_short _ (by simp only [List.length_cons]; omega)
        · split
          · exact decodeEvex_ne_short _ (by omega)
          · simp
  all_goals simp at h

/-- The prefixes and the rest make up the bytes, and no prefix byte is 0. -/
theorem scanPrefixes_spec (bs : List Byte) :
    (scanPrefixes bs).1.length + (scanPrefixes bs).2.length = bs.length ∧
      ∀ t, t < (scanPrefixes bs).1.length → bs.getD t 0#8 ≠ 0#8 := by
  induction bs with
  | nil => exact ⟨rfl, nofun⟩
  | cons b bs ih =>
    unfold scanPrefixes
    split
    · next p hp =>
      refine ⟨by simp only [List.length_cons]; omega, fun t ht => ?_⟩
      cases t with
      | zero => rintro rfl; simp [prefixOf] at hp
      | succ t => exact ih.2 t (by simpa using ht)
    · exact ⟨by simp, nofun⟩

namespace Machine

/-! ### What fetch answers -/

/-- The byte at `a` can be fetched: canonical, translated, mapped (rules R64 to R66). -/
theorem fetchByte_none_iff (s : State) (a : Word) :
    fetchByte s a = none ↔
      canonical s.cfg a = true ∧ translateFault s.cfg .fetch a = none ∧ isMapped s.cfg a = true := by
  cases h : translateFault s.cfg .fetch a <;>
    simp [fetchByte, canonicalStop, pageStop, mapStop, firstPageFault, h]

/-- What `fetchFrom` answers: the bytes of memory up to the first that cannot be fetched, with its stop, or all `n`. -/
theorem fetchFrom_spec (n : Nat) (a : Word) (s : State) :
    ∃ k, k ≤ n ∧ (fetchFrom n a s).1 = (List.range k).map (readAt s.mem a) ∧
      (∀ t, t < k → fetchByte s (byteAddr a t) = none) ∧
      ((k = n ∧ (fetchFrom n a s).2 = none) ∨
        (k < n ∧ ∃ st, fetchByte s (byteAddr a k) = some st ∧ (fetchFrom n a s).2 = some st)) := by
  induction n generalizing a with
  | zero => exact ⟨0, le_refl 0, rfl, nofun, .inl ⟨rfl, rfl⟩⟩
  | succ n ih =>
    have h0 : byteAddr a 0 = a := by simp [byteAddr]
    have hs : ∀ t, byteAddr (a + 1#64) t = byteAddr a (t + 1) := fun t => by
      simp [byteAddr, BitVec.ofNat_add, BitVec.add_assoc, BitVec.add_comm 1#64]
    cases hf : fetchByte s a with
    | some st =>
      refine ⟨0, by omega, by simp [fetchFrom, hf], nofun, .inr ⟨by omega, st, by rw [h0, hf], by simp [fetchFrom, hf]⟩⟩
    | none =>
      obtain ⟨k, hk, hl, hok, hend⟩ := ih (a + 1#64)
      refine ⟨k + 1, by omega, ?_, fun t ht => ?_, ?_⟩
      · simp only [fetchFrom, hf, hl, List.range_succ_eq_map, List.map_cons, List.map_map, readAt, h0]
        exact congrArg _ (List.map_congr_left fun t _ => by rw [readAt, hs, Function.comp, readAt])
      · cases t with
        | zero => rw [h0, hf]
        | succ t => rw [← hs]; exact hok t (by omega)
      · rw [← hs k]
        simp only [fetchFrom, hf]
        rcases hend with ⟨rfl, he⟩ | ⟨hlt, he⟩
        · exact .inl ⟨rfl, he⟩
        · exact .inr ⟨by omega, he⟩

/-! ### The window is long enough -/

/-- A byte that is not 0 is listed. -/
theorem mem_keys_of_read_ne {m : Memory} {a : Nat} (h : Memory.read m a ≠ unlistedByte) : a ∈ m.map Prod.fst := by
  induction m with
  | nil => exact absurd rfl h
  | cons c rest ih =>
    obtain ⟨b, y⟩ := c
    simp only [Memory.read] at h
    split at h
    · simp [*]
    · exact List.mem_cons_of_mem _ (ih h)

/-- Not every address is canonical, so fetch cannot go round the address space (rule R65). -/
theorem exists_not_canonical (c : Config) (a : Word) : ∃ t, t < 2 ^ 64 ∧ canonical c (byteAddr a t) = false := by
  refine ⟨(0x8000000000000000#64 - a).toNat, BitVec.isLt _, ?_⟩
  have h : byteAddr a (0x8000000000000000#64 - a).toNat = 0x8000000000000000#64 := by
    rw [byteAddr, BitVec.ofNat_toNat, BitVec.setWidth_eq, BitVec.add_comm, BitVec.sub_add_cancel]
  rw [h]
  unfold canonical laBitsOf
  cases c.laBits <;> decide +kernel

/-- Consecutive fetchable bytes, none of them 0, are at most as many as memory has entries. -/
theorem length_le_of_fetched {s : State} {a : Word} {p : Nat} (hok : ∀ t, t < p → fetchByte s (byteAddr a t) = none)
    (hne : ∀ t, t < p → readAt s.mem a t ≠ unlistedByte) : p ≤ s.mem.length := by
  obtain ⟨w, hw, hc⟩ := exists_not_canonical s.cfg a
  have hp : p < 2 ^ 64 := by
    by_contra hge
    have := ((fetchByte_none_iff s _).mp (hok w (by omega))).1
    rw [hc] at this; cases this
  have hnd : ((List.range p).map fun t => (byteAddr a t).toNat).Nodup :=
    List.nodup_range.map_on fun t ht u hu h =>
      byteAddr_inj (by have := List.mem_range.mp ht; omega) (by have := List.mem_range.mp hu; omega)
        (BitVec.eq_of_toNat_eq h)
  have hsub : ((List.range p).map fun t => (byteAddr a t).toNat) ⊆ s.mem.map Prod.fst := fun x hx => by
    obtain ⟨t, ht, rfl⟩ := List.mem_map.mp hx
    exact mem_keys_of_read_ne (hne t (List.mem_range.mp ht))
  simpa using (hnd.subperm hsub).length_le

/-- Where every byte of the window can be fetched, the bytes are not a mere beginning: the last line of `fetchDecode`
is never reached. -/
theorem decode_fetchBytes_ne_short {s : State} (h : (fetchBytes s).2 = none) : decode (fetchBytes s).1 ≠ .short := by
  obtain ⟨k, -, hl, hok, hend⟩ := fetchFrom_spec (fetchWindow s) s.pc s
  rcases hend with ⟨rfl, -⟩ | ⟨-, st, -, he⟩
  · obtain ⟨hlen, hne⟩ := scanPrefixes_spec (fetchBytes s).1
    have hb : (fetchBytes s).1.length = fetchWindow s := by rw [fetchBytes, hl]; simp
    have hp : (scanPrefixes (fetchBytes s).1).1.length ≤ s.mem.length :=
      length_le_of_fetched (fun t ht => hok t (by omega)) fun t ht => by
        have := hne t ht
        rwa [fetchBytes, hl, List.getD_eq_getElem _ _ (by simp; omega), List.getElem_map, List.getElem_range] at this
    refine decodeClass_ne_short _ ?_
    have : fetchWindow s = s.mem.length + 15 := rfl
    omega
  · rw [fetchBytes, he] at h; cases h

/-- Bytes that stand at the pc and can be fetched, and are no mere beginning, decide what fetch decodes. -/
theorem decode_fetchBytes {s : State} {bs : List Byte}
    (h : ∀ t, t < bs.length → readAt s.mem s.pc t = bs.getD t 0#8 ∧ fetchByte s (byteAddr s.pc t) = none)
    (hd : decode bs ≠ .short) : decode (fetchBytes s).1 = decode bs := by
  obtain ⟨k, hk, hl, hok, hend⟩ := fetchFrom_spec (fetchWindow s) s.pc s
  have hget : ∀ n, n ≤ bs.length → (List.range n).map (readAt s.mem s.pc) = bs.take n := fun n hn =>
    List.ext_getElem (by simp [hn]) fun t h1 h2 => by
      have ht : t < bs.length := by simp at h2; omega
      simp [(h t ht).1, ht]
  by_cases hkb : bs.length ≤ k
  · have : (fetchBytes s).1 = bs ++ (fetchBytes s).1.drop bs.length := by
      conv_lhs => rw [← List.take_append_drop bs.length (fetchBytes s).1]
      rw [fetchBytes, hl, ← List.map_take, List.take_range, Nat.min_eq_left hkb, hget _ (le_refl _), List.take_length]
    rw [this, decode_append _ hd]
  · rcases hend with ⟨rfl, he⟩ | ⟨-, st, hst, -⟩
    · have hns : decode (fetchBytes s).1 ≠ .short := decode_fetchBytes_ne_short he
      have h1 : (fetchBytes s).1 = bs.take (fetchWindow s) := by rw [fetchBytes, hl, hget _ (by omega)]
      conv_rhs => rw [← List.take_append_drop (fetchWindow s) bs]
      rw [← h1, decode_append _ hns]
    · rw [(h k (by omega)).2] at hst; cases hst

end Machine

end Sys2Proof
end

