-- ==== Sys2Proof/Laws/State.lean ====
section
/-!
SUPPORT. The small lemmas of the state: one per field per update, so that no later proof unfolds a record
update, and reading registers after a register write.
-/

namespace Sys2Proof.Machine

@[simp] theorem writeV_cfg (s : State) (d : BitVec 5) (e : Vec) : (s.writeV d e).cfg = s.cfg := rfl
@[simp] theorem writeV_k (s : State) (d : BitVec 5) (e : Vec) : (s.writeV d e).k = s.k := rfl
@[simp] theorem writeV_x (s : State) (d : BitVec 5) (e : Vec) : (s.writeV d e).x = s.x := rfl
@[simp] theorem writeV_pc (s : State) (d : BitVec 5) (e : Vec) : (s.writeV d e).pc = s.pc := rfl
@[simp] theorem writeV_fsBase (s : State) (d : BitVec 5) (e : Vec) : (s.writeV d e).fsBase = s.fsBase := rfl
@[simp] theorem writeV_gsBase (s : State) (d : BitVec 5) (e : Vec) : (s.writeV d e).gsBase = s.gsBase := rfl
@[simp] theorem writeV_rflags (s : State) (d : BitVec 5) (e : Vec) : (s.writeV d e).rflags = s.rflags := rfl
@[simp] theorem writeV_mxcsr (s : State) (d : BitVec 5) (e : Vec) : (s.writeV d e).mxcsr = s.mxcsr := rfl
@[simp] theorem writeV_mem (s : State) (d : BitVec 5) (e : Vec) : (s.writeV d e).mem = s.mem := rfl

@[simp] theorem readK_writeV (s : State) (d : BitVec 5) (e : Vec) (a : BitVec 3) : (s.writeV d e).readK a = s.readK a := rfl
@[simp] theorem readX_writeV (s : State) (d : BitVec 5) (e : Vec) (i : BitVec 4) : (s.writeV d e).readX i = s.readX i := rfl

@[simp] theorem readV_setPc (s : State) (p : Word) (n : BitVec 5) : { s with pc := p }.readV n = s.readV n := rfl
@[simp] theorem readK_setPc (s : State) (p : Word) (a : BitVec 3) : { s with pc := p }.readK a = s.readK a := rfl
@[simp] theorem readX_setPc (s : State) (p : Word) (i : BitVec 4) : { s with pc := p }.readX i = s.readX i := rfl
@[simp] theorem readV_setMem (s : State) (m : Memory) (n : BitVec 5) : { s with mem := m }.readV n = s.readV n := rfl
@[simp] theorem readK_setMem (s : State) (m : Memory) (a : BitVec 3) : { s with mem := m }.readK a = s.readK a := rfl
@[simp] theorem readX_setMem (s : State) (m : Memory) (i : BitVec 4) : { s with mem := m }.readX i = s.readX i := rfl

/-- Reading a vector register after a write: the written value there, the old one elsewhere. -/
theorem readV_writeV (s : State) (d n : BitVec 5) (e : Vec) :
    (s.writeV d e).readV n = if n = d then e else s.readV n := by
  simp only [State.readV, State.writeV, Vector.getElem_set, BitVec.toNat_inj]
  by_cases h : d = n
  · simp [h]
  · simp [h, Ne.symm h]

@[simp] theorem readV_writeV_same (s : State) (d : BitVec 5) (e : Vec) : (s.writeV d e).readV d = e := by
  simp [readV_writeV]

theorem readV_writeV_other (s : State) {d n : BitVec 5} (e : Vec) (h : n ≠ d) :
    (s.writeV d e).readV n = s.readV n := by
  simp [readV_writeV, h]

/-- A state is what it is with its own pc and one field put back. -/
theorem writeV_eq (s : State) (d : BitVec 5) (e : Vec) : s.writeV d e = { s with v := (s.writeV d e).v } := rfl

end Sys2Proof.Machine
end

