-- ==== Sys2Proof/Laws/Ops.lean ====
section
/-!
SUPPORT. For each shared operation, one lemma that says once everything it can do: lanes, the bytes of a read,
what a register destination becomes, the stops, the advance of the pc, and the two moves.
-/

namespace Sys2Proof.Machine

/-! ### Lanes -/

/-- Equal positions, equal bits. -/
theorem getLsbD_congr {w : Nat} (a : BitVec w) {i j : Nat} (h : i = j) : a.getLsbD i = a.getLsbD j := by rw [h]

/-- Bit `i` of a register made of lanes is a bit of lane `i / 64`. -/
theorem getLsbD_ofLanes (f : Nat → Word) {i : Nat} (hi : i < 512) :
    (ofLanes f).getLsbD i = (f (i / 64)).getLsbD (i % 64) := by
  have h : i / 64 < 8 := by omega
  unfold ofLanes
  simp only [BitVec.getLsbD_append]
  obtain ⟨q, hq⟩ : ∃ q, q = i / 64 := ⟨_, rfl⟩
  rw [← hq] at h ⊢
  interval_cases q <;>
  · (repeat' split) <;> first | omega | exact getLsbD_congr _ (by omega)

@[simp] theorem lane_ofLanes (f : Nat → Word) {j : Nat} (hj : j < 8) : lane (ofLanes f) j = f j := by
  apply BitVec.eq_of_getLsbD_eq
  intro i hi
  have h1 : (64 * j + i) / 64 = j := by omega
  have h2 : (64 * j + i) % 64 = i := by omega
  simp only [lane, BitVec.getLsbD_extractLsb', hi, decide_true, Bool.true_and]
  rw [getLsbD_ofLanes f (by omega), h1, h2]

/-- A register is its eight lanes. -/
theorem vec_ext {a b : Vec} (h : ∀ j, j < 8 → lane a j = lane b j) : a = b := by
  apply BitVec.eq_of_getLsbD_eq
  intro i hi
  have hl := congrArg (fun w : Word => w.getLsbD (i % 64)) (h (i / 64) (by omega))
  have h1 : i % 64 < 64 := Nat.mod_lt _ (by omega)
  have h2 : 64 * (i / 64) + i % 64 = i := Nat.div_add_mod i 64
  simpa [lane, h1, h2] using hl

/-! ### Bytes of a read -/

/-- Bit `i` of joined bytes is a bit of byte `i / 8`. -/
theorem getLsbD_joinBytes (l : List Byte) (i : Nat) :
    (joinBytes l).getLsbD i = (decide (i < 512) && (l.getD (i / 8) 0#8).getLsbD (i % 8)) := by
  induction l generalizing i with
  | nil => simp [joinBytes]
  | cons b bs ih =>
    simp only [joinBytes, BitVec.getLsbD_or, BitVec.getLsbD_shiftLeft, ih, BitVec.getLsbD_setWidth]
    by_cases h8 : i < 8
    · have h1 : i / 8 = 0 := by omega
      have h2 : i % 8 = i := by omega
      simp [h8, h1, h2]
    · have h1 : i / 8 = (i - 8) / 8 + 1 := by omega
      have h2 : i % 8 = (i - 8) % 8 := by omega
      have h3 : b.getLsbD i = false := BitVec.getLsbD_of_ge _ _ (by omega)
      by_cases h512 : i < 512
      · have h4 : i - 8 < 512 := by omega
        simp [h8, h1, h2, h3, h512, h4]
      · simp [h512]

/-- Byte `t` of a masked read: the byte of memory if enabled, else 0 (rule R54). -/
theorem byteOf_memReadMasked (m : Memory) (addr : Word) {n : Nat} (hn : n ≤ 64) (bm : Nat → Bool) {t : Nat}
    (ht : t < n) : byteOf (memReadMasked m addr n bm) t = if bm t then readAt m addr t else 0#8 := by
  apply BitVec.eq_of_getLsbD_eq
  intro i hi
  have h1 : (8 * t + i) / 8 = t := by omega
  have h2 : (8 * t + i) % 8 = i := by omega
  have h3 : 8 * t + i < 512 := by omega
  simp only [byteOf, memReadMasked, BitVec.getLsbD_extractLsb', getLsbD_joinBytes, h1, h2, h3, hi]
  simp [ht]

/-- The bytes of a lane, the lowest first. -/
theorem lane_eq_bytes (a : Vec) (j : Nat) :
    lane a j = byteOf a (8 * j + 7) ++ byteOf a (8 * j + 6) ++ byteOf a (8 * j + 5) ++ byteOf a (8 * j + 4)
      ++ byteOf a (8 * j + 3) ++ byteOf a (8 * j + 2) ++ byteOf a (8 * j + 1) ++ byteOf a (8 * j) := by
  apply BitVec.eq_of_getLsbD_eq
  intro i hi
  simp only [lane, byteOf, BitVec.getLsbD_extractLsb', BitVec.getLsbD_append, hi, decide_true, Bool.true_and]
  (repeat' split) <;> rw [decide_eq_true (by omega), Bool.true_and] <;> exact getLsbD_congr _ (by omega)

/-- Byte `t` is a byte of lane `t / 8`. -/
theorem byteOf_eq_of_lane {a b : Vec} {t : Nat} (h : lane a (t / 8) = lane b (t / 8)) : byteOf a t = byteOf b t := by
  apply BitVec.eq_of_getLsbD_eq
  intro i hi
  have h1 := congrArg (fun w : Word => w.getLsbD (8 * (t % 8) + i)) h
  have h2 : 8 * (t % 8) + i < 64 := by omega
  have h3 : 64 * (t / 8) + (8 * (t % 8) + i) = 8 * t + i := by omega
  simpa [lane, byteOf, h2, h3, hi] using h1

/-- An enabled element of a masked read: the 8 bytes there (rule R160). -/
theorem lane_memReadMasked_enabled (m : Memory) (addr : Word) {n : Nat} (hn : n ≤ 64) (bm : Nat → Bool) {j : Nat}
    (hj : 8 * j + 7 < n) (hb : ∀ b, b < 8 → bm (8 * j + b) = true) :
    lane (memReadMasked m addr n bm) j = quadAt m addr j := by
  have h : ∀ b, b < 8 → byteOf (memReadMasked m addr n bm) (8 * j + b) = readAt m addr (8 * j + b) := fun b hb8 => by
    rw [byteOf_memReadMasked m addr hn bm (by omega), if_pos (hb b hb8)]
  have h0 := h 0 (by omega)
  simp only [Nat.add_zero] at h0
  rw [lane_eq_bytes, h 7 (by omega), h 6 (by omega), h 5 (by omega), h 4 (by omega), h 3 (by omega),
    h 2 (by omega), h 1 (by omega), h0]
  rfl

/-! ### What a register destination becomes -/

/-- Element j of a legacy destination (rule R132). -/
theorem lane_keepAbove (kl : Nat) (old src : Vec) {j : Nat} (hj : j < 8) :
    lane (keepAbove kl old src) j = if j < kl then lane src j else lane old j := by
  simp [keepAbove, hj]

/-- Element j of a VEX destination (rules R141, R143). -/
theorem lane_zeroAbove (kl : Nat) (src : Vec) {j : Nat} (hj : j < 8) :
    lane (zeroAbove kl src) j = if j < kl then lane src j else 0#64 := by
  simp [zeroAbove, hj]

/-- Element j of an EVEX destination (rule R152). -/
theorem lane_blend (kl : Nat) (old src : Vec) (m : Nat → Bool) (z : Bool) {j : Nat} (hj : j < 8) :
    lane (blend kl old src m z) j =
      if j < kl then (if m j then lane src j else if z then 0#64 else lane old j) else 0#64 := by
  simp [blend, hj]

/-! ### Stops -/

@[simp] theorem out_fault (f : Fault) : (Stop.fault f).out = .fault f := rfl
@[simp] theorem out_refuse (r : Refusal) : (Stop.refuse r).out = .refused r := rfl
@[simp] theorem raise_out (exc : Word → Fault) (s : State) : (raise exc s).out = .fault (exc s.pc) := rfl

/-- A stop is never a next state. -/
theorem out_ne_next (st : Stop) (t : State) : st.out ≠ .next t := by
  cases st <;> simp

/-- The advance of the pc answers a next state exactly when the pc stays in range (rule R26). -/
theorem advance_next_iff (len : Nat) (t u : State) :
    advance len t = .next u ↔ pcFits t len = true ∧ u = { t with pc := t.pc + BitVec.ofNat 64 len } := by
  unfold advance
  split
  · next h => simp [h, eq_comm]
  · next h => simp [h]

/-- No page fault among the bytes. -/
theorem firstPageFault_none_iff (c : Config) (kind : Access) (l : List Word) :
    firstPageFault c kind l = none ↔ ∀ a ∈ l, translateFault c kind a = none := by
  induction l with
  | nil => simp [firstPageFault]
  | cons a rest ih =>
    cases h : translateFault c kind a with
    | none => simp [firstPageFault, h, ih]
    | some e => simp [firstPageFault, h]

theorem mem_accessed (addr : Word) (n : Nat) (bm : Nat → Bool) (a : Word) :
    a ∈ accessed addr n bm ↔ ∃ t, t < n ∧ bm t = true ∧ byteAddr addr t = a := by
  simp [accessed, and_assoc]

/-- Stage 5 stops nothing exactly when the operand is accessible (rules R57, R64 to R66, R72). -/
theorem accessStop_none_iff (kind : Access) (addr : Word) (n : Nat) (bm : Nat → Bool) (stack : Bool) (s : State) :
    accessStop kind addr n bm stack s = none ↔ Accessible kind addr n bm s := by
  simp only [accessStop, Option.orElse_eq_none, alignStop, canonicalStop, pageStop, mapStop, textStop, Accessible,
    Option.map_eq_none_iff, firstPageFault_none_iff, ite_eq_left_iff, ite_eq_right_iff, reduceCtorEq, imp_false,
    Decidable.not_not, List.all_eq_true, List.any_eq_true, mem_accessed, not_and, not_exists]
  constructor
  · rintro ⟨h1, h2, h3, h4, h5⟩
    refine ⟨h1, fun t ht hb => ⟨h2 _ ⟨t, ht, hb, rfl⟩, h3 _ ⟨t, ht, hb, rfl⟩, h4 _ ⟨t, ht, hb, rfl⟩, fun hk => ?_⟩⟩
    exact Bool.eq_false_iff.mpr (h5 hk _ ⟨t, ht, hb, rfl⟩)
  · rintro ⟨h1, h2⟩
    refine ⟨h1, ?_, ?_, ?_, ?_⟩
    · rintro a ⟨t, ht, hb, rfl⟩; exact (h2 t ht hb).1
    · rintro a ⟨t, ht, hb, rfl⟩; exact (h2 t ht hb).2.1
    · rintro a ⟨t, ht, hb, rfl⟩; exact (h2 t ht hb).2.2.1
    · rintro hk a ⟨t, ht, hb, rfl⟩
      exact Bool.eq_false_iff.mp ((h2 t ht hb).2.2.2 hk)

/-- Stage 2 stops nothing exactly when the instruction has at most 15 bytes (rule R115). -/
theorem lengthStop_none_iff (f : Form) (s : State) : lengthStop f s = none ↔ f.len ≤ 15 := by
  unfold lengthStop
  split
  · next h => simpa [maxLength] using h
  · next h => simpa [maxLength] using h

/-- Stages 2 to 5 stop nothing: what has to hold, stage by stage (rule R130). -/
theorem stopOf_none_iff (f : Form) (kind : Access) (s : State) :
    stopOf f kind s = none ↔
      s.cfg.mode = .long64 ∧ f.len ≤ 15 ∧
        (f.badEncoding = false ∧ featureOk f s.cfg = true ∧ osOk f s.cfg = true) ∧ s.cfg.ts = false ∧
          operandStop f kind s = none := by
  simp only [stopOf, Option.orElse_eq_none, modeStop, lengthStop_none_iff, udStop, nmStop, ite_eq_left_iff,
    ite_eq_right_iff, reduceCtorEq, imp_false, Decidable.not_not, Bool.or_eq_true, Bool.not_eq_true', not_or,
    Bool.not_eq_true, Bool.not_eq_false, and_assoc]

/-! ### The two moves -/

/-- Opcode 28h answers a next state exactly when nothing stops it and the pc stays in range; the state is then
the one with the destination register and the pc written. -/
theorem moveToReg_next_iff (f : Form) (s t : State) :
    moveToReg f s = .next t ↔
      stopOf f .read s = none ∧ pcFits s f.len = true ∧
        t = { writeDest f (regNum f.ext f.reg) (rmSource f s) s with pc := s.pc + BitVec.ofNat 64 f.len } := by
  unfold moveToReg
  cases h : stopOf f .read s with
  | some st => simp [out_ne_next]
  | none => simp only [advance_next_iff, true_and]; rfl

/-- Opcode 29h with a register destination. -/
theorem moveFromReg_reg_next_iff (f : Form) (rm : BitVec 3) (hrm : f.rm = .reg rm) (s t : State) :
    moveFromReg f s = .next t ↔
      stopOf f .write s = none ∧ pcFits s f.len = true ∧
        t = { writeDest f (rmNum f.cls f.ext rm) (s.readV (regNum f.ext f.reg)) s with
                pc := s.pc + BitVec.ofNat 64 f.len } := by
  unfold moveFromReg
  cases h : stopOf f .write s with
  | some st => simp [out_ne_next]
  | none => simp only [hrm, advance_next_iff, true_and]; rfl

/-- Opcode 29h with a memory destination. -/
theorem moveFromReg_mem_next_iff (f : Form) (m : MemOperand) (hrm : f.rm = .mem m) (s t : State) :
    moveFromReg f s = .next t ↔
      stopOf f .write s = none ∧ pcFits s f.len = true ∧
        t = { s with
              mem := memWriteMasked s.mem (linearAddr f m s) (vlBytes f.vl) (s.readV (regNum f.ext f.reg)) (byteMask f s)
              pc := s.pc + BitVec.ofNat 64 f.len } := by
  unfold moveFromReg
  cases h : stopOf f .write s with
  | some st => simp [out_ne_next]
  | none => simp only [hrm, advance_next_iff, true_and]; rfl

end Sys2Proof.Machine
end

