-- ==== Sys2Proof/Laws/PerInstr.lean ====
section
/-!
SUPPORT. The per-instruction family EncodedLength: the length rule R114 gives an instruction is the number of its
encoded bytes, and a well-formed instruction has at least 4 bytes (R114, R207).
-/

namespace Sys2Proof.Laws.EncodedLength

open Sys2Proof Sys2Proof.Machine

/-- The length of rule R114 is the number of encoded bytes; at least 4 if well-formed. -/
def Statement (i : Instr) : Prop :=
  (encode i).length = (formOf i).len ∧ (i.wf = true → 4 ≤ (formOf i).len)

theorem length_dispBytes (d : Disp) : (dispBytes d).length = dispLen d := by
  cases d <;> rfl

theorem length_encodeModRM (reg : BitVec 3) (rm : RM) : (encodeModRM reg rm).length = 1 + rmLen rm := by
  cases rm with
  | reg rm => rfl
  | mem m => cases m <;> simp [encodeModRM, rmLen, length_dispBytes, bytesLe32] <;> omega

/-- A legacy instruction has its 66h. -/
theorem legacyWf_pos {pre : List Prefix} {rm : RM} (h : legacyWf pre rm = true) : 1 ≤ pre.length := by
  cases pre with
  | nil => simp [legacyWf] at h
  | cons p ps => simp

theorem movapdLoad (pre : List Prefix) (reg : BitVec 3) (rm : RM) : Statement (.movapdLoad pre reg rm) := by
  refine ⟨by simp [encode, encodeLegacy, formOf, legacyForm, length_encodeModRM]; omega, fun h => ?_⟩
  have := legacyWf_pos h
  simp only [formOf, legacyForm]
  omega

theorem movapdLoadRex (pre : List Prefix) (rex : Rex) (reg : BitVec 3) (rm : RM) : Statement (.movapdLoadRex pre rex reg rm) := by
  refine ⟨by simp [encode, encodeLegacy, formOf, legacyForm, length_encodeModRM]; omega, fun h => ?_⟩
  have := legacyWf_pos h
  simp only [formOf, legacyForm]
  omega

theorem movapdStore (pre : List Prefix) (reg : BitVec 3) (rm : RM) : Statement (.movapdStore pre reg rm) := by
  refine ⟨by simp [encode, encodeLegacy, formOf, legacyForm, length_encodeModRM]; omega, fun h => ?_⟩
  have := legacyWf_pos h
  simp only [formOf, legacyForm]
  omega

theorem movapdStoreRex (pre : List Prefix) (rex : Rex) (reg : BitVec 3) (rm : RM) : Statement (.movapdStoreRex pre rex reg rm) := by
  refine ⟨by simp [encode, encodeLegacy, formOf, legacyForm, length_encodeModRM]; omega, fun h => ?_⟩
  have := legacyWf_pos h
  simp only [formOf, legacyForm]
  omega

theorem vmovapdVex128LoadC5 (pre : List Prefix) (vex : Vex2) (reg : BitVec 3) (rm : RM) : Statement (.vmovapdVex128LoadC5 pre vex reg rm) :=
  ⟨by simp [encode, encodeVex2, formOf, vexForm, length_encodeModRM]; omega, fun _ => by simp only [formOf, vexForm]; omega⟩

theorem vmovapdVex128LoadC4 (pre : List Prefix) (vex : Vex3) (reg : BitVec 3) (rm : RM) : Statement (.vmovapdVex128LoadC4 pre vex reg rm) :=
  ⟨by simp [encode, encodeVex3, formOf, vexForm, length_encodeModRM]; omega, fun _ => by simp only [formOf, vexForm]; omega⟩

theorem vmovapdVex128StoreC5 (pre : List Prefix) (vex : Vex2) (reg : BitVec 3) (rm : RM) : Statement (.vmovapdVex128StoreC5 pre vex reg rm) :=
  ⟨by simp [encode, encodeVex2, formOf, vexForm, length_encodeModRM]; omega, fun _ => by simp only [formOf, vexForm]; omega⟩

theorem vmovapdVex128StoreC4 (pre : List Prefix) (vex : Vex3) (reg : BitVec 3) (rm : RM) : Statement (.vmovapdVex128StoreC4 pre vex reg rm) :=
  ⟨by simp [encode, encodeVex3, formOf, vexForm, length_encodeModRM]; omega, fun _ => by simp only [formOf, vexForm]; omega⟩

theorem vmovapdVex256LoadC5 (pre : List Prefix) (vex : Vex2) (reg : BitVec 3) (rm : RM) : Statement (.vmovapdVex256LoadC5 pre vex reg rm) :=
  ⟨by simp [encode, encodeVex2, formOf, vexForm, length_encodeModRM]; omega, fun _ => by simp only [formOf, vexForm]; omega⟩

theorem vmovapdVex256LoadC4 (pre : List Prefix) (vex : Vex3) (reg : BitVec 3) (rm : RM) : Statement (.vmovapdVex256LoadC4 pre vex reg rm) :=
  ⟨by simp [encode, encodeVex3, formOf, vexForm, length_encodeModRM]; omega, fun _ => by simp only [formOf, vexForm]; omega⟩

theorem vmovapdVex256StoreC5 (pre : List Prefix) (vex : Vex2) (reg : BitVec 3) (rm : RM) : Statement (.vmovapdVex256StoreC5 pre vex reg rm) :=
  ⟨by simp [encode, encodeVex2, formOf, vexForm, length_encodeModRM]; omega, fun _ => by simp only [formOf, vexForm]; omega⟩

theorem vmovapdVex256StoreC4 (pre : List Prefix) (vex : Vex3) (reg : BitVec 3) (rm : RM) : Statement (.vmovapdVex256StoreC4 pre vex reg rm) :=
  ⟨by simp [encode, encodeVex3, formOf, vexForm, length_encodeModRM]; omega, fun _ => by simp only [formOf, vexForm]; omega⟩

theorem vmovapdEvex128Load (pre : List Prefix) (evex : Evex) (reg : BitVec 3) (rm : RM) : Statement (.vmovapdEvex128Load pre evex reg rm) :=
  ⟨by simp [encode, encodeEvex, formOf, evexForm, length_encodeModRM]; omega, fun _ => by simp only [formOf, evexForm]; omega⟩

theorem vmovapdEvex256Load (pre : List Prefix) (evex : Evex) (reg : BitVec 3) (rm : RM) : Statement (.vmovapdEvex256Load pre evex reg rm) :=
  ⟨by simp [encode, encodeEvex, formOf, evexForm, length_encodeModRM]; omega, fun _ => by simp only [formOf, evexForm]; omega⟩

theorem vmovapdEvex512Load (pre : List Prefix) (evex : Evex) (reg : BitVec 3) (rm : RM) : Statement (.vmovapdEvex512Load pre evex reg rm) :=
  ⟨by simp [encode, encodeEvex, formOf, evexForm, length_encodeModRM]; omega, fun _ => by simp only [formOf, evexForm]; omega⟩

theorem vmovapdEvex128Store (pre : List Prefix) (evex : Evex) (reg : BitVec 3) (rm : RM) : Statement (.vmovapdEvex128Store pre evex reg rm) :=
  ⟨by simp [encode, encodeEvex, formOf, evexForm, length_encodeModRM]; omega, fun _ => by simp only [formOf, evexForm]; omega⟩

theorem vmovapdEvex256Store (pre : List Prefix) (evex : Evex) (reg : BitVec 3) (rm : RM) : Statement (.vmovapdEvex256Store pre evex reg rm) :=
  ⟨by simp [encode, encodeEvex, formOf, evexForm, length_encodeModRM]; omega, fun _ => by simp only [formOf, evexForm]; omega⟩

theorem vmovapdEvex512Store (pre : List Prefix) (evex : Evex) (reg : BitVec 3) (rm : RM) : Statement (.vmovapdEvex512Store pre evex reg rm) :=
  ⟨by simp [encode, encodeEvex, formOf, evexForm, length_encodeModRM]; omega, fun _ => by simp only [formOf, evexForm]; omega⟩

end Sys2Proof.Laws.EncodedLength
end

