-- ==== Sys2Proof/Tests/Slice0.lean ====
section
/-!
SUPPORT. The model's own tests: the words of the spec's encodings decode, ill-formed terms are refused, one step per
form on the vectors V1 to V69 of `95_test_vectors.md`, and for each statement with hypotheses a state and operands that
meet them all (`witness_…`).
-/

namespace Sys2Proof.Tests

set_option Elab.async false

open Sys2Proof Sys2Proof.Machine

/-! ### Helpers -/

/-- A machine whose pc is 400000h. -/
def at0 : State := { State.reset with pc := 0x400000#64 }

/-- The bytes stand at the pc. -/
def put (bs : List Byte) (s : State) : State := { s with mem := placeBytes s.pc bs s.mem }

/-- The bytes stand at an address. -/
def poke (a : Nat) (bs : List Byte) (s : State) : State := { s with mem := placeBytes (BitVec.ofNat 64 a) bs s.mem }

/-- General register `i` holds `v`. -/
def setX (i : Nat) (v : Word) (s : State) : State := { s with x := s.x.set! i v }

/-- Opmask register `a` holds `v`. -/
def setK (a : Nat) (v : Word) (s : State) : State := { s with k := s.k.set! a v }

/-- A vector register whose element j is `16 b + j`. -/
def vec (b : Nat) : Vec := ofLanes fun j => BitVec.ofNat 64 (16 * b + j)

/-- `v[1]` = [10h, …, 17h], `v[2]` = [20h, …, 27h]. -/
def s12 : State := (at0.writeV 1 (vec 1)).writeV 2 (vec 2)

/-- Bytes 0, 1, 2, …. -/
def ramp (n : Nat) : List Byte := (List.range n).map (BitVec.ofNat 8)

/-- The result is a next state that passes the check. -/
def ok (r : Result) (f : State → Bool) : Bool :=
  match r with
  | .next t => f t
  | .fault _ => false
  | .refused _ => false

/-- The result is this fault. -/
def faults (r : Result) (f : Fault) : Bool :=
  match r with
  | .next _ => false
  | .fault g => decide (g = f)
  | .refused _ => false

/-- A result that is some next state. -/
theorem exists_next_of_ok {r : Result} {f : State → Bool} (h : ok r f = true) : ∃ t, r = .next t ∧ f t = true := by
  cases r with
  | next t => exact ⟨t, rfl, h⟩
  | fault _ => cases h
  | refused _ => cases h

/-- A result that is a fault. -/
theorem eq_fault_of_faults {r : Result} {f : Fault} (h : faults r f = true) : r = .fault f := by
  cases r with
  | next _ => cases h
  | fault g => exact congrArg _ (of_decide_eq_true h)
  | refused _ => cases h

/-- The result is this refusal. -/
def refuses (r : Result) (f : Refusal) : Bool :=
  match r with
  | .next _ => false
  | .fault _ => false
  | .refused g => decide (g = f)

/-- A result that is a refusal. -/
theorem eq_refused_of_refuses {r : Result} {f : Refusal} (h : refuses r f = true) : r = .refused f := by
  cases r with
  | next _ => cases h
  | fault _ => cases h
  | refused g => exact congrArg _ (of_decide_eq_true h)

/-- The elements of vector register `n`. -/
def lanes (n : BitVec 5) (t : State) : List Word := (List.range 8).map (lane (t.readV n))

/-- `n` bytes of memory from `a` on. -/
def bytes (a n : Nat) (t : State) : List Byte := (List.range n).map fun i => Memory.read t.mem (a + i)

/-! ### Decoding words written out from the spec's encodings, and encoding them back -/

/-- The bytes decode to the instruction, and the instruction encodes to them. -/
def agree (bs : List Byte) (i : Instr) : Bool := decide (decode bs = .instr i) && decide (encode i = bs) && i.wf

/-- P2-independent EVEX fields of R100: `vvvv` = 1111b, V' = 1, b = 0, extension bits 0. -/
def evex (z : Bool) (aaa : BitVec 3) : Evex := ⟨false, false, false, false, 0, 15, true, z, false, true, aaa⟩

/-- V1: `66 0F 28 CA` (R87). -/
theorem test_decode_movapdLoad : agree [0x66, 0x0F, 0x28, 0xCA] (.movapdLoad [.opSize] 1 (.reg 2)) = true := by
  decide +kernel

/-- V7: `66 45 0F 28 C7` (R83, R87). -/
theorem test_decode_movapdLoadRex :
    agree [0x66, 0x45, 0x0F, 0x28, 0xC7] (.movapdLoadRex [.opSize] ⟨false, true, false, true⟩ 0 (.reg 7)) = true := by
  decide +kernel

/-- V5: `66 0F 29 08` (R87). -/
theorem test_decode_movapdStore :
    agree [0x66, 0x0F, 0x29, 0x08] (.movapdStore [.opSize] 1 (.mem (.base 0 .none))) = true := by decide +kernel

/-- `66 41 0F 29 5D 10`: REX.B, base 13 with disp8 (R83, R87, R108). -/
theorem test_decode_movapdStoreRex :
    agree [0x66, 0x41, 0x0F, 0x29, 0x5D, 0x10]
      (.movapdStoreRex [.opSize] ⟨false, false, false, true⟩ 3 (.mem (.base 5 (.d8 0x10)))) = true := by
  decide +kernel

/-- V12: `C5 F9 28 CA` (R89, R90). -/
theorem test_decode_vex128LoadC5 :
    agree [0xC5, 0xF9, 0x28, 0xCA] (.vmovapdVex128LoadC5 [] ⟨false, 15⟩ 1 (.reg 2)) = true := by decide +kernel

/-- V14: `C4 E1 F9 28 CA`, W = 1 (R88, R90). -/
theorem test_decode_vex128LoadC4 :
    agree [0xC4, 0xE1, 0xF9, 0x28, 0xCA] (.vmovapdVex128LoadC4 [] ⟨false, false, false, true, 15⟩ 1 (.reg 2)) = true := by
  decide +kernel

/-- V15: `C5 F9 29 D1` (R89, R90). -/
theorem test_decode_vex128StoreC5 :
    agree [0xC5, 0xF9, 0x29, 0xD1] (.vmovapdVex128StoreC5 [] ⟨false, 15⟩ 2 (.reg 1)) = true := by decide +kernel

/-- `C4 41 79 29 08`: R = B = 1, base 8 (R88, R90). -/
theorem test_decode_vex128StoreC4 :
    agree [0xC4, 0x41, 0x79, 0x29, 0x08]
      (.vmovapdVex128StoreC4 [] ⟨true, false, true, false, 15⟩ 1 (.mem (.base 0 .none))) = true := by decide +kernel

/-- V22: `C5 7D 28 25 00 01 00 00`, RIP-relative (R89, R90, R109). -/
theorem test_decode_vex256LoadC5 :
    agree [0xC5, 0x7D, 0x28, 0x25, 0x00, 0x01, 0x00, 0x00]
      (.vmovapdVex256LoadC5 [] ⟨true, 15⟩ 4 (.mem (.rip 0x100))) = true := by decide +kernel

/-- V21: `C4 C1 7D 28 08` (R88, R90). -/
theorem test_decode_vex256LoadC4 :
    agree [0xC4, 0xC1, 0x7D, 0x28, 0x08]
      (.vmovapdVex256LoadC4 [] ⟨false, false, true, false, 15⟩ 1 (.mem (.base 0 .none))) = true := by decide +kernel

/-- V20: `C5 FD 29 45 C0` (R89, R90, R108). -/
theorem test_decode_vex256StoreC5 :
    agree [0xC5, 0xFD, 0x29, 0x45, 0xC0]
      (.vmovapdVex256StoreC5 [] ⟨false, 15⟩ 0 (.mem (.base 5 (.d8 0xC0)))) = true := by decide +kernel

/-- `C4 A1 7D 29 0C 88`: X = 1, index 9, base 0, scale 4 (R88, R90, R110). -/
theorem test_decode_vex256StoreC4 :
    agree [0xC4, 0xA1, 0x7D, 0x29, 0x0C, 0x88]
      (.vmovapdVex256StoreC4 [] ⟨false, true, false, false, 15⟩ 1 (.mem (.sib 2 1 0 .none))) = true := by
  decide +kernel

/-- V31: `62 F1 FD 09 28 CA` (R96 to R100). -/
theorem test_decode_evex128Load :
    agree [0x62, 0xF1, 0xFD, 0x09, 0x28, 0xCA] (.vmovapdEvex128Load [] (evex false 1) 1 (.reg 2)) = true := by
  decide +kernel

/-- V44: `62 F1 FD A9 28 48 01` (R96 to R100). -/
theorem test_decode_evex256Load :
    agree [0x62, 0xF1, 0xFD, 0xA9, 0x28, 0x48, 0x01]
      (.vmovapdEvex256Load [] (evex true 1) 1 (.mem (.base 0 (.d8 1)))) = true := by decide +kernel

/-- V35: `62 A1 FD 48 28 CA` (R96 to R101). -/
theorem test_decode_evex512Load :
    agree [0x62, 0xA1, 0xFD, 0x48, 0x28, 0xCA]
      (.vmovapdEvex512Load [] { evex false 0 with rHi := true, x := true } 1 (.reg 2)) = true := by decide +kernel

/-- V45: `62 F1 FD 0A 29 08` (R96 to R100). -/
theorem test_decode_evex128Store :
    agree [0x62, 0xF1, 0xFD, 0x0A, 0x29, 0x08]
      (.vmovapdEvex128Store [] (evex false 2) 1 (.mem (.base 0 .none))) = true := by decide +kernel

/-- V46: `62 F1 FD 2B 29 08` (R96 to R100). -/
theorem test_decode_evex256Store :
    agree [0x62, 0xF1, 0xFD, 0x2B, 0x29, 0x08]
      (.vmovapdEvex256Store [] (evex false 3) 1 (.mem (.base 0 .none))) = true := by decide +kernel

/-- V50: `62 81 FD 4B 29 64 88 02` (R96 to R101, R110, R111). -/
theorem test_decode_evex512Store :
    agree [0x62, 0x81, 0xFD, 0x4B, 0x29, 0x64, 0x88, 0x02]
      (.vmovapdEvex512Store [] { evex false 3 with rHi := true, x := true, b := true } 4
        (.mem (.sib 2 1 0 (.d8 2)))) = true := by decide +kernel

/-- V61: `66 0F 28 04 25 00 10 00 00`, SIB without base (R85, R110). -/
theorem test_decode_sibNoBase :
    agree [0x66, 0x0F, 0x28, 0x04, 0x25, 0x00, 0x10, 0x00, 0x00]
      (.movapdLoad [.opSize] 0 (.mem (.sibNoBase 0 4 0x1000))) = true := by decide +kernel

/-- V58 (W = 0) is unlisted, V54 (L'L = 11b) undefined (R102, R107). -/
theorem test_decode_rejects :
    decode [0x62, 0xF1, 0x7D, 0x48, 0x28, 0xCA] = .refuse .unlisted ∧
      decode [0x62, 0xF1, 0xFD, 0x68, 0x28, 0xCA] = .ud 6 := by decide +kernel

/-! ### WellFormed refuses each ill-formed shape -/

/-- A legacy form without 66h (R82). -/
theorem test_illformed_no66 : Instr.wf (.movapdLoad [] 1 (.reg 2)) = false := by decide
/-- F2h and F3h in the legacy class (R82). -/
theorem test_illformed_rep : Instr.wf (.movapdLoad [.rep, .opSize] 1 (.reg 2)) = false ∧
    Instr.wf (.movapdStore [.repne, .opSize] 1 (.reg 2)) = false := by decide
/-- A REX byte that is not the last before 0Fh (R82). -/
theorem test_illformed_rex : Instr.wf (.movapdLoadRex [.rex ⟨false, false, false, false⟩, .opSize]
    ⟨false, false, false, false⟩ 1 (.reg 2)) = false := by decide
/-- Two segment overrides (R82). -/
theorem test_illformed_twoSegments : Instr.wf (.movapdLoad [.opSize, .seg .fs, .seg .gs] 1 (.reg 2)) = false ∧
    Instr.wf (.vmovapdVex128LoadC5 [.seg .cs, .seg .cs] ⟨false, 15⟩ 1 (.reg 2)) = false := by decide
/-- Two address-size bytes before VEX (R82). -/
theorem test_illformed_two67 :
    Instr.wf (.vmovapdVex128LoadC5 [.addrSize, .addrSize] ⟨false, 15⟩ 1 (.reg 2)) = false := by decide
/-- `rm` = 100b is SIB, not a base (R85). -/
theorem test_illformed_base4 : Instr.wf (.movapdLoad [.opSize] 1 (.mem (.base 4 .none))) = false := by decide
/-- `mod` = 00b with `rm` = 101b is RIP-relative (R86). -/
theorem test_illformed_base5 : Instr.wf (.movapdLoad [.opSize] 1 (.mem (.base 5 .none))) = false := by decide
/-- `mod` = 00b with SIB.base = 101b is no base (R86). -/
theorem test_illformed_sib5 : Instr.wf (.movapdLoad [.opSize] 1 (.mem (.sib 0 0 5 .none))) = false := by decide

/-! ### One step per form -/

/-- V1. -/
theorem test_step_movapdLoad : ok (step (put [0x66, 0x0F, 0x28, 0xCA] s12))
    (fun t => lanes 1 t == [0x20, 0x21, 0x12, 0x13, 0x14, 0x15, 0x16, 0x17] && t.pc == 0x400004#64) = true := by
  decide +kernel
/-- V4. -/
theorem test_step_movapdLoad_memory :
    ok (step (put [0x66, 0x0F, 0x28, 0x08] (setX 0 0x1000 (poke 0x1000 (ramp 16) s12))))
      (fun t => lanes 1 t == [0x0706050403020100, 0x0F0E0D0C0B0A0908, 0x12, 0x13, 0x14, 0x15, 0x16, 0x17]) = true := by
  decide +kernel
/-- V7. -/
theorem test_step_movapdLoadRex : ok (step (put [0x66, 0x45, 0x0F, 0x28, 0xC7] (s12.writeV 15 (vec 15))))
    (fun t => lanes 8 t == [0xF0, 0xF1, 0, 0, 0, 0, 0, 0] && t.pc == 0x400005#64) = true := by decide +kernel
/-- V62: index register 12. -/
theorem test_step_movapdLoadRex_index :
    ok (step (put [0x66, 0x42, 0x0F, 0x28, 0x04, 0xA0]
        (setX 12 0x44 (setX 0 0x1000 (poke 0x1110 (ramp 16) s12)))))
      (fun t => (lanes 0 t).take 2 == [0x0706050403020100, 0x0F0E0D0C0B0A0908]) = true := by decide +kernel
/-- V5: 16 bytes and no more. -/
theorem test_step_movapdStore :
    ok (step (put [0x66, 0x0F, 0x29, 0x08] (setX 0 0x1000 (poke 0xFFF [0xEE] (poke 0x1010 [0xEE] s12)))))
      (fun t => bytes 0xFFF 18 t == [0xEE, 0x10, 0, 0, 0, 0, 0, 0, 0, 0x11, 0, 0, 0, 0, 0, 0, 0, 0xEE]) = true := by
  decide +kernel
/-- V6. -/
theorem test_step_movapdStore_misaligned :
    step (put [0x66, 0x0F, 0x29, 0x08] (setX 0 0x1008 s12)) = .fault (.gp 0 0x400000) :=
  eq_fault_of_faults (by decide +kernel)
/-- REX.R names the source 9, REX.B the base 13 (R87, R108). -/
theorem test_step_movapdStoreRex :
    ok (step (put [0x66, 0x45, 0x0F, 0x29, 0x4D, 0xF0] (setX 13 0x2010 (s12.writeV 9 (vec 9)))))
      (fun t => bytes 0x2000 9 t == [0x90, 0, 0, 0, 0, 0, 0, 0, 0x91]) = true := by decide +kernel
/-- V12, V13: the upper bits are zeroed. -/
theorem test_step_vex128LoadC5 : ok (step (put [0xC5, 0xF9, 0x28, 0xCA] s12))
    (fun t => lanes 1 t == [0x20, 0x21, 0, 0, 0, 0, 0, 0]) = true := by decide +kernel
/-- V23. -/
theorem test_step_vex128LoadC5_vvvv : step (put [0xC5, 0xF1, 0x28, 0xCA] s12) = .fault (.ud 0x400000) :=
  eq_fault_of_faults (by decide +kernel)
/-- V14: W = 1, one byte longer. -/
theorem test_step_vex128LoadC4 : ok (step (put [0xC4, 0xE1, 0xF9, 0x28, 0xCA] s12))
    (fun t => lanes 1 t == [0x20, 0x21, 0, 0, 0, 0, 0, 0] && t.pc == 0x400005#64) = true := by decide +kernel
/-- V15. -/
theorem test_step_vex128StoreC5 : ok (step (put [0xC5, 0xF9, 0x29, 0xD1] s12))
    (fun t => lanes 1 t == [0x20, 0x21, 0, 0, 0, 0, 0, 0]) = true := by decide +kernel
/-- R = 1 names the source 9, B = 1 the base 8 (R91). -/
theorem test_step_vex128StoreC4 :
    ok (step (put [0xC4, 0x41, 0x79, 0x29, 0x08] (setX 8 0x2000 (s12.writeV 9 (vec 9)))))
      (fun t => bytes 0x2000 17 t == [0x90, 0, 0, 0, 0, 0, 0, 0, 0x91, 0, 0, 0, 0, 0, 0, 0, 0]) = true := by
  decide +kernel
/-- V22: RIP-relative from 400018h. -/
theorem test_step_vex256LoadC5 :
    ok (step (put [0xC5, 0x7D, 0x28, 0x25, 0x00, 0x01, 0x00, 0x00]
        (poke 0x400120 (ramp 32) { s12 with pc := 0x400018#64 })))
      (fun t => lanes 12 t == [0x0706050403020100, 0x0F0E0D0C0B0A0908, 0x1716151413121110, 0x1F1E1D1C1B1A1918,
        0, 0, 0, 0]) = true := by decide +kernel
/-- V18. -/
theorem test_step_vex256LoadC5_misaligned :
    step (put [0xC5, 0xFD, 0x28, 0x08] (setX 0 0x3010 s12)) = .fault (.gp 0 0x400000) :=
  eq_fault_of_faults (by decide +kernel)
/-- V21. -/
theorem test_step_vex256LoadC4 :
    ok (step (put [0xC4, 0xC1, 0x7D, 0x28, 0x08] (setX 8 0x3000 (poke 0x3000 (ramp 32) s12))))
      (fun t => lanes 1 t == [0x0706050403020100, 0x0F0E0D0C0B0A0908, 0x1716151413121110, 0x1F1E1D1C1B1A1918,
        0, 0, 0, 0]) = true := by decide +kernel
/-- V20: disp8 is not scaled. -/
theorem test_step_vex256StoreC5 :
    ok (step (put [0xC5, 0xFD, 0x29, 0x45, 0xC0] (setX 5 0x8000 (s12.writeV 0 (vec 3)))))
      (fun t => bytes 0x7FC0 34 t == [0x30, 0, 0, 0, 0, 0, 0, 0, 0x31, 0, 0, 0, 0, 0, 0, 0, 0x32, 0, 0, 0, 0, 0, 0, 0,
        0x33, 0, 0, 0, 0, 0, 0, 0, 0, 0]) = true := by decide +kernel
/-- V19. -/
theorem test_step_vex256StoreC5_register : ok (step (put [0xC5, 0x7D, 0x29, 0xD1] (s12.writeV 10 (vec 10))))
    (fun t => lanes 1 t == [0xA0, 0xA1, 0xA2, 0xA3, 0, 0, 0, 0]) = true := by decide +kernel
/-- `x[0]` + 4 `x[9]` (R91, R110). -/
theorem test_step_vex256StoreC4 :
    ok (step (put [0xC4, 0xA1, 0x7D, 0x29, 0x0C, 0x88] (setX 9 0x40 (setX 0 0x1000 s12))))
      (fun t => bytes 0x1100 26 t == [0x10, 0, 0, 0, 0, 0, 0, 0, 0x11, 0, 0, 0, 0, 0, 0, 0, 0x12, 0, 0, 0, 0, 0, 0, 0,
        0x13, 0]) = true := by decide +kernel
/-- V31: merging, upper bits cleared. -/
theorem test_step_evex128Load : ok (step (put [0x62, 0xF1, 0xFD, 0x09, 0x28, 0xCA] (setK 1 2 s12)))
    (fun t => lanes 1 t == [0x10, 0x21, 0, 0, 0, 0, 0, 0]) = true := by decide +kernel
/-- V43: disp8 times 16. -/
theorem test_step_evex128Load_disp8 :
    ok (step (put [0x62, 0xF1, 0xFD, 0x08, 0x28, 0x48, 0x01] (setX 0 0x5000 (poke 0x5010 (ramp 16) s12))))
      (fun t => lanes 1 t == [0x0706050403020100, 0x0F0E0D0C0B0A0908, 0, 0, 0, 0, 0, 0]) = true := by decide +kernel
/-- V44: zeroing load; a fault at a masked-off byte is not taken (R160). -/
theorem test_step_evex256Load :
    ok (step (put [0x62, 0xF1, 0xFD, 0xA9, 0x28, 0x48, 0x01] (setK 1 5 (setX 0 0x4000 (poke 0x4020 (ramp 32)
        { s12 with cfg := { s12.cfg with denied := [⟨⟨0x4028, 8⟩, .read, 4⟩] } })))))
      (fun t => lanes 1 t == [0x0706050403020100, 0, 0x1716151413121110, 0, 0, 0, 0, 0]) = true := by decide +kernel
/-- V29: zeroing. -/
theorem test_step_evex512Load : ok (step (put [0x62, 0xF1, 0xFD, 0xC9, 0x28, 0xCA] (setK 1 0xF0 s12)))
    (fun t => lanes 1 t == [0, 0, 0, 0, 0x24, 0x25, 0x26, 0x27]) = true := by decide +kernel
/-- V49: registers 31 and 30. -/
theorem test_step_evex512Load_high :
    ok (step (put [0x62, 0x01, 0xFD, 0xCF, 0x28, 0xFE] (setK 7 1 (s12.writeV 30 (vec 30)))))
      (fun t => lanes 31 t == [0x1E0, 0, 0, 0, 0, 0, 0, 0]) = true := by decide +kernel
/-- V45: only element 0 is stored. -/
theorem test_step_evex128Store :
    ok (step (put [0x62, 0xF1, 0xFD, 0x0A, 0x29, 0x08]
        (setK 2 1 (setX 0 0x6000 (poke 0x6000 (List.replicate 16 0xEE) s12)))))
      (fun t => bytes 0x6000 16 t == [0x10, 0, 0, 0, 0, 0, 0, 0] ++ List.replicate 8 0xEE) = true := by decide +kernel
/-- V46: elements 1 and 3. -/
theorem test_step_evex256Store :
    ok (step (put [0x62, 0xF1, 0xFD, 0x2B, 0x29, 0x08]
        (setK 3 10 (setX 0 0x7000 (poke 0x7000 (List.replicate 32 0xEE) s12)))))
      (fun t => bytes 0x7000 32 t == List.replicate 8 0xEE ++ [0x11, 0, 0, 0, 0, 0, 0, 0] ++ List.replicate 8 0xEE
        ++ [0x13, 0, 0, 0, 0, 0, 0, 0]) = true := by decide +kernel
/-- V50: elements 0 and 7 of `v[20]`. -/
theorem test_step_evex512Store :
    ok (step (put [0x62, 0x81, 0xFD, 0x4B, 0x29, 0x64, 0x88, 0x02]
        (setK 3 0x81 (setX 9 0x20 (setX 8 0x10000 ((poke 0x10100 (List.replicate 64 0xEE) s12).writeV 20 (vec 20)))))))
      (fun t => bytes 0x10100 9 t == [0x40, 1, 0, 0, 0, 0, 0, 0, 0xEE] &&
        bytes 0x10137 9 t == [0xEE, 0x47, 1, 0, 0, 0, 0, 0, 0]) = true := by decide +kernel
/-- V48: alignment is checked with no element enabled. -/
theorem test_step_evex512Store_misaligned :
    step (put [0x62, 0xF1, 0xFD, 0x4A, 0x29, 0x08] (setX 0 0x7048 s12)) = .fault (.gp 0 0x400000) :=
  eq_fault_of_faults (by decide +kernel)

/-! ### Fetch past the fifteenth byte (R185: stage 1 comes before the length check) -/

/-- Fourteen 66h and an unlisted opcode; fifteen F3h. -/
theorem test_step_long_refused :
    step (put (List.replicate 14 0x66 ++ [0x0F, 0x58]) s12) = .refused .unlisted ∧
      step (put (List.replicate 15 0xF3 ++ [0x0F, 0x28]) s12) = .refused .badPrefix :=
  ⟨eq_refused_of_refuses (by decide +kernel), eq_refused_of_refuses (by decide +kernel)⟩
/-- A 16-byte instruction: #GP(0) for its length, or the stop of its sixteenth byte. -/
theorem test_step_long :
    step (put (List.replicate 13 0x66 ++ [0x0F, 0x28, 0xCA]) s12) = .fault (.gp 0 0x400000) ∧
      step (put (List.replicate 13 0x66 ++ [0x0F, 0x28, 0xCA])
        { s12 with cfg := { s12.cfg with mapped := [⟨0x400000, 15⟩] } }) = .refused .unmapped :=
  ⟨eq_fault_of_faults (by decide +kernel), eq_refused_of_refuses (by decide +kernel)⟩
/-- Ten prefixes in front of an undefined EVEX opcode make 16 bytes: the length comes first. -/
theorem test_step_long_undefined :
    step (put (List.replicate 10 0x66 ++ [0x62, 0xF1, 0xFD, 0x68, 0x28, 0xCA]) s12) = .fault (.gp 0 0x400000) :=
  eq_fault_of_faults (by decide +kernel)

/-! ### CPUID (R36) -/

/-- Each feature bit alone sets its flag alone. -/
theorem test_cpuid_bits :
    let flags := fun c : Config => [c.hasSSE2, c.hasAVX, c.hasAVX512F, c.hasAVX512VL]
    flags (withCpuid Config.full 0x04000000 0 0) = [true, false, false, false] ∧
      flags (withCpuid Config.full 0 0x10000000 0) = [false, true, false, false] ∧
      flags (withCpuid Config.full 0 0 0x00010000) = [false, false, true, false] ∧
      flags (withCpuid Config.full 0 0 0x80000000) = [false, false, false, true] := by decide +kernel

/-! ### Table words (log 7) -/

/-- V1's word, first byte highest as the table numbers it, and first byte lowest: the same instruction. -/
theorem test_table_word :
    decodeTableWord 32 0x660F28CA = some (.movapdLoad [.opSize] 1 (.reg 2)) ∧
      decodeTableWord 32 0xCA280F66 = some (.movapdLoad [.opSize] 1 (.reg 2)) := by decide +kernel

/-! ### Witnesses: a state and operands that meet a statement's hypotheses -/

/-- The operand `[rax]`. -/
def atRax : MemOperand := .base 0 .none

/-- `x[0]` = 5000h: 64-byte aligned. -/
def sMem : State := setX 0 0x5000 s12

/-- `x[0]` = `a`. -/
def sAt (a : Nat) : State := setX 0 (BitVec.ofNat 64 a) s12

/-- A REX byte, and the VEX fields of R90. -/
def rexRB : Rex := ⟨false, true, false, true⟩
def vex2 : Vex2 := ⟨true, 15⟩
def vex3 : Vex3 := ⟨true, false, true, false, 15⟩

/-- The configuration of `s12` changed. -/
def withCfg (f : Config → Config) : State := { s12 with cfg := f s12.cfg }

theorem witness_DecodeEncodeRoundTrip :
    Instr.wf (.movapdLoadRex [.opSize, .seg .gs] rexRB 7 (.mem (.sib 3 7 5 (.d32 0xFFFFFFFF)))) = true := by
  decide +kernel
theorem witness_DecodedBytesBeginWithEncoding :
    decode [0xC5, 0x7D, 0x28, 0x25, 0xFF, 0xFF, 0xFF, 0xFF, 0x90] =
      .instr (.vmovapdVex256LoadC5 [] ⟨true, 15⟩ 4 (.mem (.rip 0xFFFFFFFF))) := by decide +kernel
/-- Each class at a field value next to the family's, and a class-telling byte of no class. -/
theorem witness_OtherInstructionsAreUnlisted :
    let pre : List Prefix := [.seg .fs, .addrSize]
    (legacyPrefixesAdmitted pre = true ∧ .opSize ∉ pre) ∧
      (legacyPrefixesAdmitted [.opSize] = true ∧ (0x2A#8 ≠ 0x28#8 ∧ 0x2A#8 ≠ 0x29#8)) ∧
      vexPrefixesAdmitted pre = true ∧ (0xF8 : Byte).extractLsb' 0 2 ≠ 1#2 ∧ (0xE2 : Byte).extractLsb' 0 5 ≠ 1#5 ∧
      ((0xF2 : Byte).extractLsb' 2 2 = 0#2 ∧ (0xF2 : Byte).extractLsb' 0 2 ≠ 0#2 ∧ (0x7D : Byte).getLsbD 2 = true ∧
        (0xF2 : Byte).extractLsb' 0 2 ≠ 1#2 ∧ (0x7D : Byte).getLsbD 7 = false) ∧
      (prefixOf 0x90 = none ∧ (0x90 : Byte) ∉ [0x0F#8, 0xC5#8, 0xC4#8, 0x62#8]) := by
  intros
  and_intros <;> decide +kernel
theorem witness_UnadmittedPrefixesAreRefused :
    Prefix.rep ∈ [Prefix.rep] ∧ Prefix.repne ∈ [Prefix.repne] ∧
      2 ≤ [Prefix.seg .cs, .seg .cs].countP Prefix.isSeg ∧
      2 ≤ [Prefix.addrSize, .addrSize].countP (· == .addrSize) := by
  and_intros <;> decide +kernel
/-- The longest proper beginning, which ends inside disp32. -/
theorem witness_EncodingBeginningsAreShort :
    let i : Instr := .vmovapdVex256LoadC5 [] ⟨true, 15⟩ 4 (.mem (.rip 0x100))
    i.wf = true ∧ 7 < (encode i).length := by
  intros
  and_intros <;> decide +kernel
theorem witness_StepRunsDecodedInstruction :
    let s := put [0x66, 0x0F, 0x28, 0xCA] s12
    s.cfg.mode = .long64 ∧ s.cfg.endAddr ≠ some s.pc ∧
      decode (fetchBytes s).1 = .instr (.movapdLoad [.opSize] 1 (.reg 2)) := by
  intros
  and_intros <;> decide +kernel
/-- An instruction of exactly 15 bytes, and one of 16. -/
theorem witness_StepRunsEncodedInstruction :
    let i : Instr := .movapdLoad (List.replicate 12 .opSize) 1 (.reg 2)
    let j : Instr := .movapdLoad (List.replicate 13 .opSize) 1 (.reg 2)
    s12.cfg.mode = .long64 ∧ s12.cfg.endAddr ≠ some s12.pc ∧ (i.wf = true ∧ StandsFetchable (encode i) (put (encode i) s12)) ∧
      (j.wf = true ∧ StandsFetchable (encode j) (put (encode j) s12)) := by
  intros
  and_intros <;> decide +kernel
theorem witness_OtherModesAreRefused :
    (withCfg fun c => { c with mode := .compatibility }).cfg.mode ≠ .long64 := by decide +kernel
theorem witness_StepAtEndAddrIsOver :
    (withCfg fun c => { c with endAddr := some 0x400000 }).cfg.mode = .long64 ∧
      (withCfg fun c => { c with endAddr := some 0x400000 }).over := ⟨rfl, rfl⟩
/-- The first byte cannot be fetched, for each reason; and a byte past the fifteenth is not mapped. -/
theorem witness_FetchFaults :
    let s := { s12 with pc := 0x800000000000#64 }
    let t := withCfg fun c => { c with denied := [⟨⟨0x400000, 1⟩, .fetch, 4⟩] }
    let long : List Byte := List.replicate 15 0x66
    let u := put long (withCfg fun c => { c with mapped := [⟨0x400000, 15⟩] })
    (s.cfg.mode = .long64 ∧ s.cfg.endAddr ≠ some s.pc ∧ decode [] = .short ∧ StandsFetchable [] s ∧
      canonical s.cfg (byteAddr s.pc 0) = false) ∧
    (t.cfg.mode = .long64 ∧ t.cfg.endAddr ≠ some t.pc ∧ canonical t.cfg (byteAddr t.pc 0) = true ∧
      translateFault t.cfg .fetch (byteAddr t.pc 0) = some 4) ∧
    (u.cfg.mode = .long64 ∧ u.cfg.endAddr ≠ some u.pc ∧ decode long = .short ∧ StandsFetchable long u ∧
      canonical u.cfg (byteAddr u.pc 15) = true ∧ translateFault u.cfg .fetch (byteAddr u.pc 15) = none ∧
      isMapped u.cfg (byteAddr u.pc 15) = false) := by
  intros
  and_intros <;> decide +kernel
/-- A program that ends at the top of the address space. -/
theorem witness_LaunchPlacesProgram :
    Memory.wf s12.mem = true ∧ (0xFFFFFFFFFFFFFFFC#64).toNat + [0x66#8, 0x0F#8, 0x28#8, 0xCA#8].length ≤ 2 ^ 64 := by
  and_intros <;> decide +kernel
/-- The last 15 canonical addresses of the lower half, and a word of 15 bytes. -/
theorem witness_PlacedTableWordRuns :
    let s := { s12 with pc := 0x7FFFFFFFFFF1#64 }
    Memory.wf s.mem = true ∧ 120 ≤ 120 ∧ s.pc.toNat + 15 ≤ 2 ^ 64 ∧
      (∀ t, t < 15 → canonical s.cfg (byteAddr s.pc t) = true) ∧
      decodeTableWord 120 0x6666666666666666666666660F28CA =
        some (.movapdLoad (List.replicate 12 .opSize) 1 (.reg 2)) := by
  intros
  and_intros <;> decide +kernel
theorem witness_VvvvNotOnesRaisesUD :
    (14#4 ≠ 15#4 ∧ Admitted (.vmovapdVex128LoadC5 [] ⟨false, 14⟩ 1 (.reg 2)) s12) ∧
      Admitted (.vmovapdVex256StoreC4 [] ⟨false, false, false, false, 14⟩ 1 (.mem atRax)) s12 ∧
      Admitted (.vmovapdEvex512Load [] { evex false 0 with vvvv := 14 } 1 (.reg 2)) s12 := by
  and_intros <;> decide +kernel
theorem witness_UndefinedOpcodeExactlyWhen :
    Admitted (.movapdLoad [.opSize] 1 (.reg 2)) s12 ∧ NoUndefined (.movapdLoad [.opSize] 1 (.reg 2)) s12.cfg ∧
      ¬ NoUndefined (.movapdLoad [.opSize, .lock] 1 (.reg 2)) s12.cfg := by
  and_intros <;> decide +kernel
theorem witness_LockPrefixRaisesUD :
    let i : Instr := .movapdStore [.lock, .opSize] 1 (.mem atRax)
    Admitted i s12 ∧ .lock ∈ prefixesOf i := by
  intros
  and_intros <;> decide +kernel
theorem witness_ReservedEvexFieldsRaiseUD :
    Admitted (.vmovapdEvex128Load [] { evex false 0 with vHi := false } 1 (.reg 2)) s12 ∧
      vexPrefixesAdmitted [.seg .fs] = true ∧ (0xF0 : Byte).extractLsb' 0 2 = 0#2 ∧
      ((0xF5 : Byte).extractLsb' 2 2 ≠ 0#2 ∧ evexListed 0xF5 0x7D 0x28 = false) ∧
      ((0x68 : Byte).extractLsb' 5 2 = 3#2 ∧ evexListed 0xF1 0xFD 0x28 = true ∧ takeModRM [0xCA] = some (1, .reg 2)) ∧
      (s12.cfg.mode = .long64 ∧ s12.cfg.endAddr ≠ some s12.pc ∧
        decode (fetchBytes (put (List.replicate 9 0x66 ++ [0x62, 0xF1, 0xFD, 0x68, 0x28, 0xCA]) s12)).1 = .ud 15 ∧
        decode (fetchBytes (put (List.replicate 10 0x66 ++ [0x62, 0xF1, 0xFD, 0x68, 0x28, 0xCA]) s12)).1 = .ud 16) := by
  and_intros <;> decide +kernel
/-- Exactly 16 bytes. -/
theorem witness_LongInstructionRaisesGP :
    let i : Instr := .movapdLoad (List.replicate 13 .opSize) 1 (.reg 2)
    s12.cfg.mode = .long64 ∧ 15 < (encode i).length ∧ i.wf = true ∧ s12.cfg.endAddr ≠ some s12.pc ∧
      StandsFetchable (encode i) (put (encode i) s12) := by
  intros
  and_intros <;> decide +kernel
theorem witness_TaskSwitchedRaisesNM :
    let s := withCfg fun c => { c with ts := true }
    let i : Instr := .vmovapdVex128LoadC5 [] vex2 1 (.reg 2)
    Admitted i s ∧ NoUndefined (.vmovapdVex128LoadC5 [] vex2 1 (.reg 2)) s.cfg ∧ s.cfg.ts = true := by
  intros
  and_intros <;> decide +kernel
/-- 16-byte aligned, not 32-byte aligned; 32 and not 64. -/
theorem witness_MisalignedOperandRaisesGP :
    PastChecks (.movapdLoad [.opSize] 1 (.mem atRax)) (sAt 0x5001) ∧
      (operandAddr (.movapdLoad [.opSize] 1 (.mem atRax)) atRax (sAt 0x5001)).toNat % 16 ≠ 0 ∧
      PastChecks (.vmovapdVex256StoreC5 [] vex2 1 (.mem atRax)) (sAt 0x5010) ∧
      (operandAddr (.vmovapdVex256StoreC5 [] vex2 1 (.mem atRax)) atRax (sAt 0x5010)).toNat % 32 ≠ 0 ∧
      PastChecks (.vmovapdEvex512Store [] (evex false 1) 1 (.mem atRax)) (sAt 0x5020) ∧
      (operandAddr (.vmovapdEvex512Store [] (evex false 1) 1 (.mem atRax)) atRax (sAt 0x5020)).toNat % 64 ≠ 0 := by
  and_intros <;> decide +kernel
/-- The first non-canonical address, through DS; and through SS. -/
theorem witness_NonCanonicalOperandRaises :
    let i : Instr := .movapdLoad [.opSize] 1 (.mem atRax)
    usesStack (formOf i) atRax = false ∧ usesStack (formOf i) (.base 5 (.d8 0)) = true ∧
      PastChecks (.movapdLoad [.opSize] 1 (.mem atRax)) (sAt 0x800000000000) ∧ rmOperand i = .mem atRax ∧
      (operandAddr i atRax (sAt 0x800000000000)).toNat % operandBytes i = 0 ∧ 0 < operandBytes i ∧
      enabledByte i (sAt 0x800000000000) 0 = true ∧
      canonical s12.cfg (byteAddr (operandAddr i atRax (sAt 0x800000000000)) 0) = false := by
  intros
  and_intros <;> decide +kernel
theorem witness_StackSegmentForms :
    .seg .fs ∈ prefixesOf (.movapdLoad [.seg .fs, .opSize] 1 (.reg 2)) ∧
      .seg .fs ∉ prefixesOf (.movapdLoad [.opSize] 1 (.reg 2)) ∧
      .seg .gs ∉ prefixesOf (.movapdLoad [.opSize] 1 (.reg 2)) := by
  and_intros <;> decide +kernel
/-- The last byte of the operand faults. -/
theorem witness_DeniedByteRaisesPF :
    let s := { sMem with cfg := { sMem.cfg with denied := [⟨⟨0x500F, 1⟩, .read, 4⟩] } }
    let i : Instr := .movapdLoad [.opSize] 1 (.mem atRax)
    PastChecks (.movapdLoad [.opSize] 1 (.mem atRax)) s ∧ rmOperand i = .mem atRax ∧
      (operandAddr i atRax s).toNat % operandBytes i = 0 ∧
      (∀ u, u < operandBytes i → enabledByte i s u = true →
        canonical s.cfg (byteAddr (operandAddr i atRax s) u) = true) ∧
      15 < operandBytes i ∧ enabledByte i s 15 = true ∧
      translateFault s.cfg (operandAccess i) (byteAddr (operandAddr i atRax s) 15) = some 4 ∧
      ∀ u, u < 15 → enabledByte i s u = true →
        translateFault s.cfg (operandAccess i) (byteAddr (operandAddr i atRax s) u) = none := by
  intros
  and_intros <;> decide +kernel
/-- The last byte is unmapped; the last byte is program text. -/
theorem witness_UnmappedOrTextOperandIsRefused :
    let i : Instr := .movapdStore [.opSize] 1 (.mem atRax)
    let s := { sMem with cfg := { sMem.cfg with mapped := [⟨0x5000, 15⟩] } }
    let t := { sMem with cfg := { sMem.cfg with text := [⟨0x500F, 1⟩] } }
    (PastChecks (.movapdStore [.opSize] 1 (.mem atRax)) s ∧ (operandAddr i atRax s).toNat % operandBytes i = 0 ∧
      (∀ u, u < operandBytes i → enabledByte i s u = true →
        canonical s.cfg (byteAddr (operandAddr i atRax s) u) = true ∧
        translateFault s.cfg (operandAccess i) (byteAddr (operandAddr i atRax s) u) = none) ∧
      enabledByte i s 15 = true ∧ isMapped s.cfg (byteAddr (operandAddr i atRax s) 15) = false) ∧
    (PastChecks (.movapdStore [.opSize] 1 (.mem atRax)) t ∧ (operandAddr i atRax t).toNat % operandBytes i = 0 ∧
      (∀ u, u < operandBytes i → enabledByte i t u = true →
        canonical t.cfg (byteAddr (operandAddr i atRax t) u) = true ∧
        translateFault t.cfg (operandAccess i) (byteAddr (operandAddr i atRax t) u) = none ∧
        isMapped t.cfg (byteAddr (operandAddr i atRax t) u) = true) ∧
      enabledByte i t 15 = true ∧ isText t.cfg (byteAddr (operandAddr i atRax t) 15) = true) := by
  intros
  and_intros <;> decide +kernel
/-- The pc after a 4-byte instruction at 7FFFFFFFFFFCh is not canonical; at 7FFFFFFFFFFBh it is. -/
theorem witness_PcOutOfRangeIsRefused :
    (PastChecks (.movapdLoad [.opSize] 1 (.reg 2)) { s12 with pc := 0x7FFFFFFFFFFC#64 } ∧
      ¬ PcInRange (.movapdLoad [.opSize] 1 (.reg 2)) { s12 with pc := 0x7FFFFFFFFFFC#64 } ∧
      PcInRange (.movapdLoad [.opSize] 1 (.reg 2)) { s12 with pc := 0x7FFFFFFFFFFB#64 }) ∧
    (PastChecks (.movapdStore [.opSize] 1 (.mem atRax)) { sMem with pc := 0x7FFFFFFFFFFC#64 } ∧
      Accessible .write (operandAddr (.movapdStore [.opSize] 1 (.mem atRax)) atRax sMem) 16
        (enabledByte (.movapdStore [.opSize] 1 (.mem atRax)) sMem) { sMem with pc := 0x7FFFFFFFFFFC#64 } ∧
      ¬ PcInRange (.movapdStore [.opSize] 1 (.mem atRax)) { sMem with pc := 0x7FFFFFFFFFFC#64 }) := by
  and_intros <;> decide +kernel
theorem witness_FaultRecordsInstructionAddress :
    step (put [0xC5, 0xF1, 0x28, 0xCA] s12) = .fault (.ud 0x400000) ∧
      step (put [0x66, 0x0F, 0x29, 0x08] (setX 0 0x1008 s12)) = .fault (.gp 0 0x400000) :=
  ⟨test_step_vex128LoadC5_vvvv, test_step_movapdStore_misaligned⟩
theorem witness_UndefinedUntilSystemSoftwareEnables :
    let s := withCfg fun c => withControlRegisters c 0x60000010#64 0#64 1#64
    s.cfg = withControlRegisters s.cfg 0x60000010#64 0#64 1#64 ∧ Admitted (.movapdLoad [.opSize] 1 (.reg 2)) s := by
  intros
  and_intros <;> decide +kernel

theorem witness_LegacyRegisterCopy :
    Ready (.movapdLoad [.opSize] 1 (.reg 2)) s12 ∧ Ready (.movapdStore [.opSize] 1 (.reg 2)) s12 ∧
      Ready (.movapdLoadRex [.opSize] rexRB 7 (.reg 7)) s12 ∧
      Ready (.movapdStoreRex [.opSize] rexRB 7 (.reg 7)) s12 := by
  and_intros <;> decide +kernel
theorem witness_LegacyLoad :
    (Ready (.movapdLoad [.opSize] 1 (.mem atRax)) sMem ∧
      Accessible .read (operandAddr (.movapdLoad [.opSize] 1 (.mem atRax)) atRax sMem) 16 allBytes sMem) ∧
    (Ready (.movapdLoadRex [.opSize] rexRB 1 (.mem atRax)) sMem ∧
      Accessible .read (operandAddr (.movapdLoadRex [.opSize] rexRB 1 (.mem atRax)) atRax sMem) 16 allBytes sMem) := by
  and_intros <;> decide +kernel
theorem witness_LegacyStore :
    Memory.wf sMem.mem = true ∧ (Ready (.movapdStore [.opSize] 1 (.mem atRax)) sMem ∧
      Accessible .write (operandAddr (.movapdStore [.opSize] 1 (.mem atRax)) atRax sMem) 16 allBytes sMem) ∧
    (Ready (.movapdStoreRex [.opSize] rexRB 1 (.mem atRax)) sMem ∧
      Accessible .write (operandAddr (.movapdStoreRex [.opSize] rexRB 1 (.mem atRax)) atRax sMem) 16 allBytes sMem) := by
  and_intros <;> decide +kernel
theorem witness_LegacySelfCopyChangesOnlyPc :
    Ready (.movapdLoad [.opSize] 7 (.reg 7)) s12 ∧ rexRB.r = rexRB.b ∧
      Ready (.movapdStoreRex [.opSize] rexRB 7 (.reg 7)) s12 := by
  and_intros <;> decide +kernel
theorem witness_VexRegisterCopy :
    Ready (.vmovapdVex128LoadC5 [] vex2 1 (.reg 2)) s12 ∧ Ready (.vmovapdVex128StoreC5 [] vex2 1 (.reg 2)) s12 ∧
      Ready (.vmovapdVex256LoadC5 [] vex2 1 (.reg 2)) s12 ∧ Ready (.vmovapdVex256StoreC5 [] vex2 1 (.reg 2)) s12 ∧
      Ready (.vmovapdVex128LoadC4 [] vex3 1 (.reg 2)) s12 ∧ Ready (.vmovapdVex128StoreC4 [] vex3 1 (.reg 2)) s12 ∧
      Ready (.vmovapdVex256LoadC4 [] vex3 1 (.reg 2)) s12 ∧ Ready (.vmovapdVex256StoreC4 [] vex3 1 (.reg 2)) s12 := by
  and_intros <;> decide +kernel
theorem witness_VexLoad :
    (Ready (.vmovapdVex128LoadC5 [] vex2 1 (.mem atRax)) sMem ∧
      Accessible .read (operandAddr (.vmovapdVex128LoadC5 [] vex2 1 (.mem atRax)) atRax sMem) 16 allBytes sMem) ∧
    (Ready (.vmovapdVex256LoadC5 [] vex2 1 (.mem atRax)) sMem ∧
      Accessible .read (operandAddr (.vmovapdVex256LoadC5 [] vex2 1 (.mem atRax)) atRax sMem) 32 allBytes sMem) ∧
    (Ready (.vmovapdVex128LoadC4 [] vex3 1 (.mem atRax)) sMem ∧
      Accessible .read (operandAddr (.vmovapdVex128LoadC4 [] vex3 1 (.mem atRax)) atRax sMem) 16 allBytes sMem) ∧
    (Ready (.vmovapdVex256LoadC4 [] vex3 1 (.mem atRax)) sMem ∧
      Accessible .read (operandAddr (.vmovapdVex256LoadC4 [] vex3 1 (.mem atRax)) atRax sMem) 32 allBytes sMem) := by
  and_intros <;> decide +kernel
theorem witness_VexStore :
    Memory.wf sMem.mem = true ∧ (Ready (.vmovapdVex128StoreC5 [] vex2 1 (.mem atRax)) sMem ∧
      Accessible .write (operandAddr (.vmovapdVex128StoreC5 [] vex2 1 (.mem atRax)) atRax sMem) 16 allBytes sMem) ∧
    (Ready (.vmovapdVex256StoreC5 [] vex2 1 (.mem atRax)) sMem ∧
      Accessible .write (operandAddr (.vmovapdVex256StoreC5 [] vex2 1 (.mem atRax)) atRax sMem) 32 allBytes sMem) ∧
    (Ready (.vmovapdVex128StoreC4 [] vex3 1 (.mem atRax)) sMem ∧
      Accessible .write (operandAddr (.vmovapdVex128StoreC4 [] vex3 1 (.mem atRax)) atRax sMem) 16 allBytes sMem) ∧
    (Ready (.vmovapdVex256StoreC4 [] vex3 1 (.mem atRax)) sMem ∧
      Accessible .write (operandAddr (.vmovapdVex256StoreC4 [] vex3 1 (.mem atRax)) atRax sMem) 32 allBytes sMem) := by
  and_intros <;> decide +kernel
theorem witness_TwoAndThreeByteVexAgree :
    (∀ d, RM.mem atRax ≠ .mem (.rip d)) ∧
      (∃ t, exec (.vmovapdVex256LoadC5 [] ⟨true, 15⟩ 1 (.mem atRax)) sMem = .next t ∧ (t.pc == 0x400004#64) = true) ∧
      ∃ u, exec (.vmovapdVex256LoadC4 [] ⟨true, false, false, true, 15⟩ 1 (.mem atRax)) sMem = .next u ∧
        (u.pc == 0x400005#64) = true :=
  ⟨fun _ => nofun, exists_next_of_ok (by decide +kernel), exists_next_of_ok (by decide +kernel)⟩
theorem witness_EvexRegisterCopy :
    Ready (.vmovapdEvex128Load [] (evex true 1) 1 (.reg 2)) s12 ∧
      Ready (.vmovapdEvex256Load [] (evex false 1) 1 (.reg 2)) s12 ∧
      Ready (.vmovapdEvex512Load [] (evex false 0) 1 (.reg 2)) s12 ∧
      Ready (.vmovapdEvex128Store [] (evex true 1) 1 (.reg 2)) s12 ∧
      Ready (.vmovapdEvex256Store [] (evex false 1) 1 (.reg 2)) s12 ∧
      Ready (.vmovapdEvex512Store [] (evex false 0) 1 (.reg 2)) s12 := by
  and_intros <;> decide +kernel
theorem witness_EvexLoad :
    (Ready (.vmovapdEvex128Load [] (evex true 1) 1 (.mem atRax)) sMem ∧
      Accessible .read (operandAddr (.vmovapdEvex128Load [] (evex true 1) 1 (.mem atRax)) atRax sMem) 16
        (fun t => evexMask (evex true 1) sMem (t / 8)) sMem) ∧
    (Ready (.vmovapdEvex256Load [] (evex false 1) 1 (.mem atRax)) sMem ∧
      Accessible .read (operandAddr (.vmovapdEvex256Load [] (evex false 1) 1 (.mem atRax)) atRax sMem) 32
        (fun t => evexMask (evex false 1) sMem (t / 8)) sMem) ∧
    (Ready (.vmovapdEvex512Load [] (evex false 0) 1 (.mem atRax)) sMem ∧
      Accessible .read (operandAddr (.vmovapdEvex512Load [] (evex false 0) 1 (.mem atRax)) atRax sMem) 64
        (fun t => evexMask (evex false 0) sMem (t / 8)) sMem) := by
  and_intros <;> decide +kernel
/-- The stores complete; with z = 1 the form is admitted and undefined. -/
theorem witness_EvexStore :
    Memory.wf sMem.mem = true ∧ (Ready (.vmovapdEvex128Store [] (evex false 1) 1 (.mem atRax)) sMem ∧
      Accessible .write (operandAddr (.vmovapdEvex128Store [] (evex false 1) 1 (.mem atRax)) atRax sMem) 16
        (fun t => evexMask (evex false 1) sMem (t / 8)) sMem) ∧
    (Ready (.vmovapdEvex256Store [] (evex false 1) 1 (.mem atRax)) sMem ∧
      Accessible .write (operandAddr (.vmovapdEvex256Store [] (evex false 1) 1 (.mem atRax)) atRax sMem) 32
        (fun t => evexMask (evex false 1) sMem (t / 8)) sMem) ∧
    (Ready (.vmovapdEvex512Store [] (evex false 0) 1 (.mem atRax)) sMem ∧
      Accessible .write (operandAddr (.vmovapdEvex512Store [] (evex false 0) 1 (.mem atRax)) atRax sMem) 64
        (fun t => evexMask (evex false 0) sMem (t / 8)) sMem) ∧
    Admitted (.vmovapdEvex128Store [] (evex true 1) 1 (.mem atRax)) sMem := by
  and_intros <;> decide +kernel
theorem witness_UnmaskedEvexMatchesVex :
    (evex false 0).aaa = 0#3 ∧ (evex false 0).rHi = false ∧ (evex false 0).x = false ∧
      (∃ t, exec (.vmovapdEvex256Load [] (evex false 0) 1 (.reg 2)) s12 = .next t ∧ (t.pc == 0x400006#64) = true) ∧
      ∃ u, exec (.vmovapdVex256LoadC4 [] ⟨false, false, false, true, 15⟩ 1 (.reg 2)) s12 = .next u ∧
        (u.pc == 0x400005#64) = true :=
  ⟨rfl, rfl, rfl, exists_next_of_ok (by decide +kernel), exists_next_of_ok (by decide +kernel)⟩
/-- The two memories differ, in a byte the mask disables. -/
theorem witness_LoadsReadOnlyEnabledBytes :
    let i : Instr := .vmovapdEvex128Load [] (evex true 1) 1 (.mem atRax)
    let s := setK 1 1 sMem
    loadForm i = true ∧ rmOperand i = .mem atRax ∧
      (∀ u, u < operandBytes i → enabledByte i s u = true →
        readAt [(0x5008, 1#8)] (operandAddr i atRax s) u = readAt s.mem (operandAddr i atRax s) u) ∧
      ok (exec i s) (fun t => t.pc == 0x400006#64) = true := by
  intros
  and_intros <;> decide +kernel
theorem witness_AddressOfEachForm :
    Prefix.addrSize ∉ prefixesOf (.movapdLoad [.opSize] 1 (.mem atRax)) ∧
      Prefix.seg .fs ∈ prefixesOf (.movapdLoad [.seg .fs, .opSize] 1 (.mem atRax)) ∧
      Prefix.seg .gs ∈ prefixesOf (.movapdLoad [.seg .gs, .opSize] 1 (.mem atRax)) := by
  and_intros <;> decide +kernel
theorem witness_AddressSizePrefixUsesLow32Bits :
    Prefix.addrSize ∈ prefixesOf (.movapdLoad [.addrSize, .seg .fs, .opSize] 1 (.mem atRax)) ∧
      Prefix.seg .fs ∈ prefixesOf (.movapdLoad [.addrSize, .seg .fs, .opSize] 1 (.mem atRax)) ∧
      Prefix.addrSize ∈ prefixesOf (.movapdLoad [.addrSize, .seg .gs, .opSize] 1 (.mem atRax)) ∧
      Prefix.seg .fs ∉ prefixesOf (.movapdLoad [.addrSize, .seg .gs, .opSize] 1 (.mem atRax)) ∧
      Prefix.seg .gs ∈ prefixesOf (.movapdLoad [.addrSize, .seg .gs, .opSize] 1 (.mem atRax)) ∧
      Prefix.addrSize ∈ prefixesOf (.movapdLoad [.addrSize, .opSize] 1 (.mem atRax)) ∧
      Prefix.seg .gs ∉ prefixesOf (.movapdLoad [.addrSize, .opSize] 1 (.mem atRax)) := by
  and_intros <;> decide +kernel
/-- AVX512F without AVX512VL, for an EVEX.128 form. -/
theorem witness_FeaturesFromCpuid :
    let s := withCfg fun c => withCpuid c 0 0 0x00010000
    s.cfg = withCpuid s.cfg 0 0 0x00010000 ∧ Admitted (.vmovapdEvex128Load [] (evex false 0) 1 (.reg 2)) s ∧
      cpuidBits 0 0 0x00010000 (.vmovapdEvex128Load [] (evex false 0) 1 (.reg 2)) = false := by
  intros
  and_intros <;> decide +kernel
/-- An operand at the last addresses of the space. -/
theorem witness_MemoryReadAfterWrite :
    Memory.wf s12.mem = true ∧ (16 ≤ 20 ∧ 20 < 64) ∧ ∀ t, t < 16 → 0 ≠ (byteAddr 0xFFFFFFFFFFFFFFF0 t).toNat := by
  and_intros <;> decide +kernel
/-- A 16-byte store, then a 32-byte load that takes it in: byte 0 is stored, byte 16 is not (V69). -/
theorem witness_LoadSeesEarlierStore :
    let i : Instr := .movapdStore [.opSize] 1 (.mem atRax)
    let j : Instr := .vmovapdVex256LoadC5 [] vex2 2 (.mem atRax)
    Memory.wf sMem.mem = true ∧ operandAccess i = .write ∧ rmOperand i = .mem atRax ∧ loadForm j = true ∧
      rmOperand j = .mem atRax ∧
      ok (exec i sMem) (fun t =>
        byteAddr (operandAddr j atRax t) 0 == byteAddr (operandAddr i atRax sMem) 0 &&
          byteAddr (operandAddr j atRax t) 16 != byteAddr (operandAddr i atRax sMem) 15 &&
          ok (exec j t) (fun u => u.xmm 10 == sMem.xmm 1)) = true := by
  intros
  and_intros <;> decide +kernel
/-- A state that is not the reset state, meets the invariant and steps. -/
theorem witness_StepKeepsInvariant :
    (put [0x66, 0x0F, 0x28, 0xCA] s12).Inv ∧
      ∃ t, step (put [0x66, 0x0F, 0x28, 0xCA] s12) = .next t ∧ (t.pc == 0x400004#64) = true := by
  refine ⟨⟨?_, ?_, ?_, ?_, ?_, ?_, ?_⟩, exists_next_of_ok (by decide +kernel)⟩ <;> decide +kernel
theorem witness_StepChangesOnlyVectorOrMemoryAndPc :
    ∃ t, step (put [0x66, 0x0F, 0x29, 0x08] sMem) = .next t ∧ (t.mem != (put [0x66, 0x0F, 0x29, 0x08] sMem).mem) = true :=
  exists_next_of_ok (by decide +kernel)
theorem witness_HighRegistersSurviveLegacyAndVex :
    narrowForm (.vmovapdVex128LoadC5 [] vex2 1 (.reg 2)) = true ∧ 16 ≤ (16#5).toNat ∧
      ∃ t, exec (.vmovapdVex128LoadC5 [] vex2 1 (.reg 2)) s12 = .next t ∧ (t.pc == 0x400004#64) = true :=
  ⟨rfl, by decide, exists_next_of_ok (by decide +kernel)⟩
/-- The shortest step, 4 bytes, and the longest, 15. -/
theorem witness_StepAdvancesPc :
    (∃ t, step (put [0x66, 0x0F, 0x28, 0xCA] s12) = .next t ∧ (t.pc == 0x400004#64) = true) ∧
      ∃ t, step (put (List.replicate 12 0x66 ++ [0x0F, 0x28, 0xCA]) s12) = .next t ∧ (t.pc == 0x40000F#64) = true :=
  ⟨exists_next_of_ok (by decide +kernel), exists_next_of_ok (by decide +kernel)⟩
/-- Two steps. -/
theorem witness_RunsCannotHang :
    ∃ t, Reaches 2 (put [0x66, 0x0F, 0x28, 0xCA, 0xC5, 0xF9, 0x28, 0xCA] s12) t ∧ (t.pc == 0x400008#64) = true :=
  exists_next_of_ok (r := Host.Core.run Sys2Proof.core 2 (put [0x66, 0x0F, 0x28, 0xCA, 0xC5, 0xF9, 0x28, 0xCA] s12))
    (f := fun t => t.pc == 0x400008#64) (by decide +kernel)
theorem witness_RunsKeepInvariantAndControlState :
    (put [0x66, 0x0F, 0x28, 0xCA] s12).Inv ∧ ∃ t, Reaches 1 (put [0x66, 0x0F, 0x28, 0xCA] s12) t ∧
      (t.pc == 0x400004#64) = true :=
  ⟨witness_StepKeepsInvariant.1,
    exists_next_of_ok (r := Host.Core.run Sys2Proof.core 1 (put [0x66, 0x0F, 0x28, 0xCA] s12))
      (f := fun t => t.pc == 0x400004#64) (by decide +kernel)⟩

end Sys2Proof.Tests
end

section
/-!
PROOF. What a step can do, said once (`step_next_iff`, `exec_next_iff`), and from it that every step keeps the
invariant. Then the reset state, which meets the invariant, and the refusal of every mode but 64-bit mode.
-/

namespace Sys2Proof.Machine

/-! ### What a step can do -/

/-- Every instruction is its form under one of the two moves: opcode 28h's if it reads its operand, else opcode 29h's
(rule R116). -/
theorem exec_eq_move (i : Instr) (s : State) :
    exec i s = if operandAccess i = .read then moveToReg (formOf i) s else moveFromReg (formOf i) s := by
  cases i <;> rfl

/-- No operand is accessed as a fetch. -/
theorem operandAccess_eq_write_iff (i : Instr) : operandAccess i = .write ↔ operandAccess i ≠ .read := by
  cases i <;> simp [operandAccess]

/-- An instruction answers a next state exactly when nothing stops it and the pc stays in range; the state is then
that of one of three moves: into register ModRM.reg, into register ModRM.rm, into memory (rules R116, R130). -/
theorem exec_next_iff (i : Instr) (s t : State) :
    exec i s = .next t ↔
      stopOf (formOf i) (operandAccess i) s = none ∧ pcFits s (formOf i).len = true ∧
        ((operandAccess i = .read ∧
            t = { writeDest (formOf i) (regNum (formOf i).ext (formOf i).reg) (rmSource (formOf i) s) s with
                    pc := s.pc + BitVec.ofNat 64 (formOf i).len }) ∨
          (∃ rm, operandAccess i = .write ∧ (formOf i).rm = .reg rm ∧
            t = { writeDest (formOf i) (rmNum (formOf i).cls (formOf i).ext rm)
                    (s.readV (regNum (formOf i).ext (formOf i).reg)) s with
                    pc := s.pc + BitVec.ofNat 64 (formOf i).len }) ∨
          (∃ m, operandAccess i = .write ∧ (formOf i).rm = .mem m ∧
            t = { s with
                    mem := memWriteMasked s.mem (linearAddr (formOf i) m s) (vlBytes (formOf i).vl)
                      (s.readV (regNum (formOf i).ext (formOf i).reg)) (byteMask (formOf i) s)
                    pc := s.pc + BitVec.ofNat 64 (formOf i).len })) := by
  rw [exec_eq_move]
  by_cases hread : operandAccess i = .read
  · simp [hread, moveToReg_next_iff]
  · have hwrite := (operandAccess_eq_write_iff i).2 hread
    rw [if_neg hread, hwrite]
    cases hrm : (formOf i).rm with
    | reg rm => simp [moveFromReg_reg_next_iff _ rm hrm]
    | mem m => simp [moveFromReg_mem_next_iff _ m hrm]

/-- Fetch and decode answer an instruction to run exactly when the fetched bytes decode to it. -/
theorem fetchDecode_run_iff (s : State) (i : Instr) :
    fetchDecode s = .run i ↔ decode (fetchBytes s).1 = .instr i := by
  unfold fetchDecode
  cases decode (fetchBytes s).1 with
  | short => cases (fetchBytes s).2 <;> simp
  | instr | ud | refuse => simp

/-- A step answers a next state exactly when nothing stops it before the fetch, the fetched bytes decode to an
instruction, and that instruction answers the state (rule R130). -/
theorem step_next_iff (s t : State) :
    step s = .next t ↔
      stepStop s = none ∧ ∃ i, decode (fetchBytes s).1 = .instr i ∧ exec i s = .next t := by
  unfold step
  cases hstop : stepStop s with
  | some st => simp [out_ne_next]
  | none =>
    cases hfetch : fetchDecode s with
    | run i => simp [(fetchDecode_run_iff s i).1 hfetch]
    | stop st =>
      have hnone : ∀ i, decode (fetchBytes s).1 ≠ .instr i := fun i hi => by
        simp [(fetchDecode_run_iff s i).2 hi] at hfetch
      simp [out_ne_next, hnone]

/-! ### What the classes share: vector lengths and register numbers -/

/-- Class, vector length and register extension agree: legacy forms move 128 bits (R87), VEX forms at most 256
(R140), and only EVEX forms have R' (R101). -/
structure Form.ClassConsistent (f : Form) : Prop where
  legacy_vl : f.cls = .legacy → f.vl = .v128
  vex_vl : f.cls = .vex → f.vl ≠ .v512
  narrow_rHi : f.cls ≠ .evex → f.ext.rHi = false

theorem legacyForm_classConsistent (pre : List Prefix) (rexLen : Nat) {ext : Ext} (reg : BitVec 3) (rm : RM)
    (hext : ext.rHi = false) : (legacyForm pre rexLen ext reg rm).ClassConsistent :=
  ⟨fun _ => rfl, nofun, fun _ => hext⟩

theorem vexForm_classConsistent (prefixLen : Nat) {vl : VL} (pre : List Prefix) {ext : Ext} (vvvv : BitVec 4)
    (reg : BitVec 3) (rm : RM) (hvl : vl ≠ .v512) (hext : ext.rHi = false) :
    (vexForm prefixLen vl pre ext vvvv reg rm).ClassConsistent :=
  ⟨nofun, fun _ => hvl, fun _ => hext⟩

theorem evexForm_classConsistent (vl : VL) (store : Bool) (pre : List Prefix) (e : Evex) (reg : BitVec 3) (rm : RM) :
    (evexForm vl store pre e reg rm).ClassConsistent :=
  ⟨nofun, nofun, fun h => absurd rfl h⟩

theorem formOf_classConsistent : ∀ i : Instr, (formOf i).ClassConsistent
  | .movapdLoad .. | .movapdStore .. => legacyForm_classConsistent _ 0 _ _ rfl
  | .movapdLoadRex .. | .movapdStoreRex .. => legacyForm_classConsistent _ 1 _ _ rfl
  | .vmovapdVex128LoadC5 .. | .vmovapdVex128LoadC4 .. | .vmovapdVex128StoreC5 .. | .vmovapdVex128StoreC4 ..
  | .vmovapdVex256LoadC5 .. | .vmovapdVex256LoadC4 .. | .vmovapdVex256StoreC5 .. | .vmovapdVex256StoreC4 .. =>
    vexForm_classConsistent _ _ _ _ _ nofun rfl
  | .vmovapdEvex128Load .. | .vmovapdEvex256Load .. | .vmovapdEvex512Load ..
  | .vmovapdEvex128Store .. | .vmovapdEvex256Store .. | .vmovapdEvex512Store .. =>
    evexForm_classConsistent _ _ _ _ _ _

/-- A register number without a fifth bit is below 16. -/
theorem narrowNum_lt (ext : Bool) (low : BitVec 3) : (0#1 ++ BitVec.ofBool ext ++ low).toNat < 16 := by
  revert ext low
  decide

/-- Without R', `reg_num` is below 16. -/
theorem regNum_lt {e : Ext} (h : e.rHi = false) (reg : BitVec 3) : (regNum e reg).toNat < 16 := by
  rw [regNum, h]
  exact narrowNum_lt e.r reg

/-- Outside the EVEX class `rm_num` is below 16. -/
theorem rmNum_lt {cls : EncClass} (h : cls ≠ .evex) (e : Ext) (rm : BitVec 3) : (rmNum cls e rm).toNat < 16 := by
  cases cls with
  | evex => exact absurd rfl h
  | legacy | vex => exact narrowNum_lt e.b rm

/-- In 64-bit mode a form whose features are there names only registers that exist (R7, R20). -/
theorem lt_nvreg {f : Form} {c : Config} {d : BitVec 5} (hmode : c.mode = .long64) (hfeat : featureOk f c = true)
    (hd : f.cls ≠ .evex → d.toNat < 16) : d.toNat < nvreg c := by
  have hlt := d.isLt
  cases hcls : f.cls with
  | evex =>
    simp only [featureOk, hcls, Bool.and_eq_true] at hfeat
    simpa [nvreg, hmode, hfeat.1] using hlt
  | legacy | vex =>
    have hlow := hd (by simp [hcls])
    simp only [nvreg, hmode, if_true]
    split <;> omega

/-- A form whose features are there moves no element above MAXVL (R7, R150). -/
theorem vlLanes_le_maxvl {f : Form} {c : Config} (hf : f.ClassConsistent) (hfeat : featureOk f c = true) :
    64 * vlLanes f.vl ≤ maxvl c := by
  cases hcls : f.cls with
  | legacy =>
    rw [hf.legacy_vl hcls]
    simp only [vlLanes, maxvl]
    split_ifs <;> omega
  | vex =>
    have havx : c.hasAVX = true := by simpa [featureOk, hcls] using hfeat
    have hvl := hf.vex_vl hcls
    cases hlen : f.vl with
    | v512 => exact absurd hlen hvl
    | v128 | v256 => simp only [vlLanes, maxvl, havx]; split_ifs <;> omega
  | evex =>
    simp only [featureOk, hcls, Bool.and_eq_true] at hfeat
    simp only [maxvl, hfeat.1, if_true]
    cases f.vl <;> decide

/-- An element above the form's vector length that was 0 stays 0: kept by a legacy form, cleared by the others
(rules R132, R141, R152). -/
theorem lane_destValue_above {f : Form} (s : State) {old : Vec} (src : Vec) {j : Nat} (hj : j < 8)
    (habove : vlLanes f.vl ≤ j) (hold : lane old j = 0#64) : lane (destValue f s old src) j = 0#64 := by
  have hnot : ¬ j < vlLanes f.vl := by omega
  unfold destValue
  cases f.cls with
  | legacy => rw [lane_keepAbove _ _ _ hj, if_neg hnot, hold]
  | vex => rw [lane_zeroAbove _ _ hj, if_neg hnot]
  | evex => rw [lane_blend _ _ _ _ _ hj, if_neg hnot]

/-! ### The invariant under each state update -/

theorem inv_setPc {s : State} (h : s.Inv) {p : Word} (hp : canonical s.cfg p = true) : { s with pc := p }.Inv where
  mem_wf := h.mem_wf
  cfg_ok := h.cfg_ok
  pc_canonical := hp
  above_maxvl := h.above_maxvl
  above_nvreg := h.above_nvreg
  above_kw := h.above_kw
  no_opmask := h.no_opmask

theorem inv_setMem {s : State} (h : s.Inv) {m : Memory} (hm : Memory.wf m = true) : { s with mem := m }.Inv where
  mem_wf := hm
  cfg_ok := h.cfg_ok
  pc_canonical := h.pc_canonical
  above_maxvl := h.above_maxvl
  above_nvreg := h.above_nvreg
  above_kw := h.above_kw
  no_opmask := h.no_opmask

theorem inv_writeV {s : State} (h : s.Inv) {d : BitVec 5} {e : Vec} (hd : d.toNat < nvreg s.cfg)
    (he : ∀ j, j < 8 → maxvl s.cfg ≤ 64 * j → lane e j = 0#64) : (s.writeV d e).Inv where
  mem_wf := h.mem_wf
  cfg_ok := h.cfg_ok
  pc_canonical := h.pc_canonical
  above_maxvl n j hj habove := by
    rw [readV_writeV]
    split
    · exact he j hj habove
    · exact h.above_maxvl n j hj habove
  above_nvreg n hn := by
    have hne : n ≠ d := fun heq => absurd hd (by rw [← heq]; exact Nat.not_lt.2 hn)
    rw [readV_writeV_other s e hne]
    exact h.above_nvreg n hn
  above_kw := h.above_kw
  no_opmask := h.no_opmask

/-- Writing a register destination keeps the invariant where the mode is 64-bit and the form's features are there. -/
theorem inv_writeDest {s : State} (h : s.Inv) {f : Form} (hf : f.ClassConsistent) (hmode : s.cfg.mode = .long64)
    (hfeat : featureOk f s.cfg = true) {d : BitVec 5} (hd : f.cls ≠ .evex → d.toNat < 16) (src : Vec) :
    (writeDest f d src s).Inv := by
  refine inv_writeV h (lt_nvreg hmode hfeat hd) fun j hj habove => ?_
  have hvl := vlLanes_le_maxvl hf hfeat
  exact lane_destValue_above s src hj (by omega) (h.above_maxvl d j hj habove)

/-! ### The statements -/

/-- An instruction that answers a next state keeps the invariant. -/
theorem exec_keeps_inv {i : Instr} {s t : State} (h : s.Inv) (hexec : exec i s = .next t) : t.Inv := by
  obtain ⟨hstop, hfits, hmove⟩ := (exec_next_iff i s t).1 hexec
  obtain ⟨hmode, -, ⟨-, hfeat, -⟩, -, -⟩ := (stopOf_none_iff _ _ s).1 hstop
  have hf := formOf_classConsistent i
  have hpc : canonical s.cfg (s.pc + BitVec.ofNat 64 (formOf i).len) = true := by
    simp only [pcFits, Bool.and_eq_true] at hfits
    exact hfits.2
  obtain ⟨-, rfl⟩ | ⟨rm, -, -, rfl⟩ | ⟨m, -, -, rfl⟩ := hmove
  · exact inv_setPc (inv_writeDest h hf hmode hfeat (fun hcls => regNum_lt (hf.narrow_rHi hcls) _) _) hpc
  · exact inv_setPc (inv_writeDest h hf hmode hfeat (fun hcls => rmNum_lt hcls _ rm) _) hpc
  · exact inv_setPc (inv_setMem h (wf_memWriteMasked _ _ _ _ h.mem_wf)) hpc

/-- Settles O48: a step is an instruction's meaning, and each of its three moves keeps the invariant. -/
theorem stepKeepsInvariant : Obligations.StepKeepsInvariant := by
  intro s t h hstep
  obtain ⟨-, i, -, hexec⟩ := (step_next_iff s t).1 hstep
  exact exec_keeps_inv h hexec

/-- Outside 64-bit mode the refusal comes before any fetch. -/
theorem stepStop_of_other_mode {s : State} (h : s.cfg.mode ≠ .long64) : stepStop s = some (.refuse .mode) := by
  simp [stepStop, modeStop, h]

/-- Settles O8: the mode is checked first. -/
theorem otherModesAreRefused : Obligations.OtherModesAreRefused := by
  intro s h
  simp [step, stepStop_of_other_mode h]

@[simp] theorem readV_reset (n : BitVec 5) : State.reset.readV n = 0#512 := by
  simp [State.readV, State.reset]

@[simp] theorem readK_reset (a : BitVec 3) : State.reset.readK a = 0#64 := by
  simp [State.readK, State.reset]

/-- Settles O47: memory is empty, and every register and the pc are 0. -/
theorem resetMeetsInvariant : Obligations.ResetMeetsInvariant where
  mem_wf := rfl
  cfg_ok := rfl
  pc_canonical := by decide
  above_maxvl n j _ _ := by simp [lane]
  above_nvreg n _ := readV_reset n
  above_kw a := by simp
  no_opmask _ a := readK_reset a

end Sys2Proof.Machine
end

section
/-!
PROOF. What holds an instruction up, said of instructions and no longer of their forms (`stopOf_formOf_none_iff`,
`exec_ud_of_not_sound`, `exec_pcRange`); what every step leaves alone and how far it moves the pc; the register copies
of the legacy and VEX classes; and the enables and features that CR0, CR4, XCR0 and CPUID stand for.
-/

namespace Sys2Proof.Machine

/-! ### An instruction and its form -/

open Laws in
/-- Every instruction has the length of rule R114, and a well-formed one at least 4 bytes. -/
theorem encodedLength : ∀ i : Instr, EncodedLength.Statement i
  | .movapdLoad .. => EncodedLength.movapdLoad ..
  | .movapdLoadRex .. => EncodedLength.movapdLoadRex ..
  | .movapdStore .. => EncodedLength.movapdStore ..
  | .movapdStoreRex .. => EncodedLength.movapdStoreRex ..
  | .vmovapdVex128LoadC5 .. => EncodedLength.vmovapdVex128LoadC5 ..
  | .vmovapdVex128LoadC4 .. => EncodedLength.vmovapdVex128LoadC4 ..
  | .vmovapdVex128StoreC5 .. => EncodedLength.vmovapdVex128StoreC5 ..
  | .vmovapdVex128StoreC4 .. => EncodedLength.vmovapdVex128StoreC4 ..
  | .vmovapdVex256LoadC5 .. => EncodedLength.vmovapdVex256LoadC5 ..
  | .vmovapdVex256LoadC4 .. => EncodedLength.vmovapdVex256LoadC4 ..
  | .vmovapdVex256StoreC5 .. => EncodedLength.vmovapdVex256StoreC5 ..
  | .vmovapdVex256StoreC4 .. => EncodedLength.vmovapdVex256StoreC4 ..
  | .vmovapdEvex128Load .. => EncodedLength.vmovapdEvex128Load ..
  | .vmovapdEvex256Load .. => EncodedLength.vmovapdEvex256Load ..
  | .vmovapdEvex512Load .. => EncodedLength.vmovapdEvex512Load ..
  | .vmovapdEvex128Store .. => EncodedLength.vmovapdEvex128Store ..
  | .vmovapdEvex256Store .. => EncodedLength.vmovapdEvex256Store ..
  | .vmovapdEvex512Store .. => EncodedLength.vmovapdEvex512Store ..

@[simp] theorem length_encode (i : Instr) : (encode i).length = (formOf i).len := (encodedLength i).1

@[simp] theorem formOf_rm (i : Instr) : (formOf i).rm = rmOperand i := by cases i <;> rfl

@[simp] theorem vlBytes_formOf (i : Instr) : vlBytes (formOf i).vl = operandBytes i := by cases i <;> rfl

/-- A form is legacy or VEX exactly when its class is not EVEX (rule R80). -/
theorem narrowForm_iff (i : Instr) : narrowForm i = true ↔ (formOf i).cls ≠ .evex := by
  cases i <;> simp [narrowForm, formOf, legacyForm, vexForm, evexForm]

theorem pcInRange_iff (i : Instr) (s : State) : PcInRange i s ↔ pcFits s (formOf i).len = true := by
  simp [PcInRange, pcFits]

/-! ### The reasons for #UD, by form (rules R174 to R179) -/

/-- Stage 3 has no reason for #UD. -/
def Form.Sound (f : Form) (c : Config) : Prop :=
  f.badEncoding = false ∧ featureOk f c = true ∧ osOk f c = true

theorem plainPrefix_iff (p : Prefix) : plainPrefix p = true ↔ vexForbidden p = false := by
  cases p <;> simp [plainPrefix, vexForbidden]

theorem sound_legacyForm (pre : List Prefix) (rexLen : Nat) (ext : Ext) (reg : BitVec 3) (rm : RM) (c : Config) :
    (legacyForm pre rexLen ext reg rm).Sound c ↔ LegacySound pre c := by
  simp [Form.Sound, LegacySound, legacyForm, featureOk, osOk]

theorem sound_vexForm (prefixLen : Nat) (vl : VL) (pre : List Prefix) (ext : Ext) (vvvv : BitVec 4) (reg : BitVec 3)
    (rm : RM) (c : Config) : (vexForm prefixLen vl pre ext vvvv reg rm).Sound c ↔ VexSound pre vvvv c := by
  simp [Form.Sound, VexSound, vexForm, featureOk, osOk, plainPrefix_iff, and_assoc]

/-- The encoding reasons of an EVEX form, as `EvexSound` lists them. -/
theorem evexViolated_eq_false_iff (e : Evex) (store : Bool) (rm : RM) :
    evexViolated e store rm = false ↔
      EvexFieldsSound e ∧ (e.z = true → e.aaa ≠ 0#3 ∧ (store = true → rmIsMem rm = false)) := by
  simp [evexViolated, EvexFieldsSound, and_assoc]

theorem sound_evexForm (vl : VL) (store : Bool) (pre : List Prefix) (e : Evex) (reg : BitVec 3) (rm : RM)
    (c : Config) : (evexForm vl store pre e reg rm).Sound c ↔ EvexSound vl store pre e rm c := by
  have hvl : (vl = .v512 ∨ c.hasAVX512VL = true) ↔ (vl ≠ .v512 → c.hasAVX512VL = true) := or_iff_not_imp_left
  simp [Form.Sound, EvexSound, evexForm, featureOk, osOk, plainPrefix_iff, evexViolated_eq_false_iff, hvl, and_assoc]

/-- No #UD condition of rules R174 to R179 holds exactly when stage 3 finds none. -/
theorem noUndefined_iff (i : Instr) (c : Config) : NoUndefined i c ↔ (formOf i).Sound c := by
  cases i with
  | movapdLoad | movapdLoadRex | movapdStore | movapdStoreRex => exact (sound_legacyForm ..).symm
  | vmovapdVex128LoadC5 | vmovapdVex128LoadC4 | vmovapdVex128StoreC5 | vmovapdVex128StoreC4
  | vmovapdVex256LoadC5 | vmovapdVex256LoadC4 | vmovapdVex256StoreC5 | vmovapdVex256StoreC4 =>
    exact (sound_vexForm ..).symm
  | vmovapdEvex128Load | vmovapdEvex256Load | vmovapdEvex512Load
  | vmovapdEvex128Store | vmovapdEvex256Store | vmovapdEvex512Store => exact (sound_evexForm ..).symm

/-! ### What stops an instruction -/

/-- Stage 5 lets an instruction through exactly when its memory operand, if it has one, is accessible. -/
theorem operandStop_formOf_none_iff (i : Instr) (kind : Access) (s : State) :
    operandStop (formOf i) kind s = none ↔
      ∀ m, rmOperand i = .mem m → Accessible kind (operandAddr i m s) (operandBytes i) (enabledByte i s) s := by
  unfold operandStop
  rw [formOf_rm]
  cases rmOperand i with
  | reg rm => simp
  | mem m =>
    simp only [RM.mem.injEq, forall_eq']
    rw [accessStop_none_iff, vlBytes_formOf]
    rfl

/-- Nothing stops an instruction exactly when stages 2 to 4 let it through and its memory operand is accessible. -/
theorem stopOf_formOf_none_iff (i : Instr) (kind : Access) (s : State) :
    stopOf (formOf i) kind s = none ↔
      PastChecks i s ∧
        ∀ m, rmOperand i = .mem m → Accessible kind (operandAddr i m s) (operandBytes i) (enabledByte i s) s := by
  rw [stopOf_none_iff, operandStop_formOf_none_iff, PastChecks, Admitted, noUndefined_iff, length_encode]
  simp only [Form.Sound, and_assoc]

/-- A stop of stages 2 to 5 is the instruction's outcome. -/
theorem exec_of_stop {i : Instr} {s : State} {st : Stop} (h : stopOf (formOf i) (operandAccess i) s = some st) :
    exec i s = st.out := by
  rw [exec_eq_move]
  by_cases hread : operandAccess i = .read
  · rw [hread] at h
    simp [hread, moveToReg, h]
  · rw [(operandAccess_eq_write_iff i).2 hread] at h
    simp [hread, moveFromReg, h]

/-- Where stages 1 and 2 let an instruction through and stage 3 does not, it raises #UD. -/
theorem exec_ud_of_not_sound {i : Instr} {s : State} (hadm : Admitted i s) (h : ¬ (formOf i).Sound s.cfg) :
    exec i s = .fault (.ud s.pc) := by
  obtain ⟨hmode, hlen⟩ := hadm
  rw [length_encode] at hlen
  have hud : udStop (formOf i) s = some (raise .ud s) := by
    refine if_pos ?_
    by_contra hnone
    exact h (by simpa [Form.Sound, and_assoc] using hnone)
  have hstop : stopOf (formOf i) (operandAccess i) s = some (raise .ud s) := by
    simp [stopOf, modeStop, hmode, (lengthStop_none_iff _ s).2 hlen, hud]
  simp [exec_of_stop hstop]

/-- The advance of the pc is refused where the pc would leave its range (rule R26). -/
theorem advance_pcRange {len : Nat} {t : State} (h : pcFits t len = false) : advance len t = .refused .pcRange := by
  simp [advance, h]

/-- An instruction that nothing else stops is refused where the pc would leave its range: all three moves end in the
advance of the pc, and leave what it looks at alone. -/
theorem exec_pcRange {i : Instr} {s : State} (hstop : stopOf (formOf i) (operandAccess i) s = none)
    (hfits : pcFits s (formOf i).len = false) : exec i s = .refused .pcRange := by
  rw [exec_eq_move]
  by_cases hread : operandAccess i = .read
  · rw [hread] at hstop
    simp only [hread, if_true, moveToReg, hstop]
    exact advance_pcRange hfits
  · rw [(operandAccess_eq_write_iff i).2 hread] at hstop
    simp only [hread, if_false, moveFromReg, hstop]
    cases (formOf i).rm with
    | reg rm => exact advance_pcRange hfits
    | mem m => exact advance_pcRange hfits

/-- Settles O24: the advance of the pc is the last thing an instruction does. -/
theorem pcOutOfRangeIsRefused : Obligations.PcOutOfRangeIsRefused := by
  intro i s hpast haccess hrange
  rw [pcInRange_iff, Bool.not_eq_true] at hrange
  exact exec_pcRange ((stopOf_formOf_none_iff i _ s).2 ⟨hpast, haccess⟩) hrange

/-! ### What a step leaves alone -/

/-- `t` differs from `s` at most in vector registers, memory and the pc. -/
def ControlKept (s t : State) : Prop := t = { s with v := t.v, mem := t.mem, pc := t.pc }

theorem ControlKept.refl (s : State) : ControlKept s s := rfl

theorem ControlKept.trans {s t u : State} (hst : ControlKept s t) (htu : ControlKept t u) : ControlKept s u := by
  unfold ControlKept at *
  rw [htu, hst]

/-- An instruction writes a vector register or memory, never both, and the pc. -/
theorem exec_controlKept {i : Instr} {s t : State} (h : exec i s = .next t) :
    ControlKept s t ∧ (t.v = s.v ∨ t.mem = s.mem) := by
  obtain ⟨-, -, hmove⟩ := (exec_next_iff i s t).1 h
  obtain ⟨-, rfl⟩ | ⟨rm, -, -, rfl⟩ | ⟨m, -, -, rfl⟩ := hmove
  · exact ⟨rfl, .inr rfl⟩
  · exact ⟨rfl, .inr rfl⟩
  · exact ⟨rfl, .inl rfl⟩

/-- Settles O49: a step is an instruction's meaning. -/
theorem stepChangesOnlyVectorOrMemoryAndPc : Obligations.StepChangesOnlyVectorOrMemoryAndPc := by
  intro s t hstep
  obtain ⟨-, i, -, hexec⟩ := (step_next_iff s t).1 hstep
  exact exec_controlKept hexec

/-- Settles O50: outside the EVEX class both register numbers are below 16, so no destination is above. -/
theorem highRegistersSurviveLegacyAndVex : Obligations.HighRegistersSurviveLegacyAndVex := by
  intro i s t hnarrow hexec n hn
  have hcls := (narrowForm_iff i).1 hnarrow
  have hne : ∀ d : BitVec 5, d.toNat < 16 → n ≠ d := fun d hd heq => by subst heq; omega
  obtain ⟨-, -, hmove⟩ := (exec_next_iff i s t).1 hexec
  obtain ⟨-, rfl⟩ | ⟨rm, -, -, rfl⟩ | ⟨m, -, -, rfl⟩ := hmove
  · exact readV_writeV_other s _ (hne _ (regNum_lt ((formOf_classConsistent i).narrow_rHi hcls) _))
  · exact readV_writeV_other s _ (hne _ (rmNum_lt hcls _ rm))
  · rfl

/-! ### Runs -/

theorem reaches_zero_iff (s t : State) : Reaches 0 s t ↔ t = s :=
  ⟨fun h => (Host.Outcome.next.inj h).symm, fun h => congrArg Host.Outcome.next h.symm⟩

/-- A run of `k + 1` steps is a step and a run of `k` steps. -/
theorem reaches_succ_iff (k : Nat) (s t : State) :
    Reaches (k + 1) s t ↔ ∃ u, step s = .next u ∧ Reaches k u t := by
  have hcore : Sys2Proof.core.step s = step s := rfl
  simp only [Reaches, Host.Core.run, hcore]
  cases step s <;> simp

/-- What every step keeps, every run keeps. -/
theorem reaches_keeps {P : State → Prop} (hstep : ∀ u v, P u → step u = .next v → P v) {k : Nat} {s t : State}
    (hs : P s) (hrun : Reaches k s t) : P t := by
  induction k generalizing s with
  | zero => exact ((reaches_zero_iff s t).1 hrun) ▸ hs
  | succ k ih =>
    obtain ⟨u, hu, hrest⟩ := (reaches_succ_iff k s t).1 hrun
    exact ih (hstep s u hs hu) hrest

/-- Settles O53: every step keeps the invariant, and agreement with the start outside vector registers, memory and
pc. -/
theorem runsKeepInvariantAndControlState : Obligations.RunsKeepInvariantAndControlState := by
  intro k s t hinv hrun
  have hstep : ∀ u v, u.Inv ∧ ControlKept s u → step u = .next v → v.Inv ∧ ControlKept s v :=
    fun u v ⟨hu, hsu⟩ huv =>
      ⟨stepKeepsInvariant u v hu huv, hsu.trans (stepChangesOnlyVectorOrMemoryAndPc u v huv).1⟩
  obtain ⟨htinv, hkept⟩ := reaches_keeps hstep ⟨hinv, ControlKept.refl s⟩ hrun
  unfold ControlKept at hkept
  rw [hkept] at htinv ⊢
  exact ⟨htinv, rfl, rfl, rfl, rfl, rfl, rfl, rfl⟩

/-! ### How far a step moves the pc -/

/-- An instruction decoded past ModRM is one the continuation gave. -/
theorem withModRM_instr {bs : List Byte} {k : BitVec 3 → RM → Decoded} {i : Instr}
    (h : withModRM bs k = .instr i) : ∃ reg rm, k reg rm = .instr i := by
  unfold withModRM at h
  cases hm : takeModRM bs with
  | none => simp [hm] at h
  | some o =>
    rw [hm] at h
    exact ⟨o.1, o.2, h⟩

/-- The legacy class admits only what has its 66h (rules R82, R117). -/
theorem opSize_mem_of_decodeLegacy {pre : List Prefix} {rex : Option Rex} {bs : List Byte} {i : Instr}
    (h : decodeLegacy pre rex bs = .instr i) : .opSize ∈ prefixesOf i := by
  cases bs with
  | nil => simp [decodeLegacy] at h
  | cons op bs =>
    simp only [decodeLegacy] at h
    split_ifs at h with hadm hop
    all_goals
      have hmem : .opSize ∈ pre := by simpa using hop
      obtain ⟨reg, rm, hk⟩ := withModRM_instr h
      cases rex <;> cases hk <;> exact hmem

/-- The other three class-telling bytes lead to no legacy form. -/
theorem cls_ne_legacy_of_decodeVexEvex {pre : List Prefix} {bs : List Byte} {i : Instr}
    (h : decodeVex2 pre bs = .instr i ∨ decodeVex3 pre bs = .instr i ∨ decodeEvex pre bs = .instr i) :
    (formOf i).cls ≠ .legacy := by
  obtain h | h | h := h <;> [unfold decodeVex2 at h; unfold decodeVex3 at h; unfold decodeEvex at h]
  all_goals
    split at h
    · dsimp only at h
      split_ifs at h
      all_goals
        obtain ⟨reg, rm, hk⟩ := withModRM_instr h
        cases hk <;> nofun
    · cases h

/-- A decoded legacy instruction has its 66h. -/
theorem opSize_mem_of_decode {bs : List Byte} {i : Instr} (h : decode bs = .instr i)
    (hcls : (formOf i).cls = .legacy) : .opSize ∈ prefixesOf i := by
  unfold decode decodeClass at h
  split at h
  · cases h
  · split_ifs at h
    · exact opSize_mem_of_decodeLegacy h
    · exact absurd hcls (cls_ne_legacy_of_decodeVexEvex (.inl h))
    · exact absurd hcls (cls_ne_legacy_of_decodeVexEvex (.inr (.inl h)))
    · exact absurd hcls (cls_ne_legacy_of_decodeVexEvex (.inr (.inr h)))

/-- With its 66h a legacy instruction has at least 4 bytes; the other classes have them anyway (rule R114). -/
theorem four_le_len {i : Instr} (h : (formOf i).cls = .legacy → .opSize ∈ prefixesOf i) : 4 ≤ (formOf i).len := by
  cases i with
  | movapdLoad | movapdLoadRex | movapdStore | movapdStoreRex =>
    have hpos := List.length_pos_of_mem (h rfl)
    simp only [formOf, legacyForm, prefixesOf] at hpos ⊢
    omega
  | vmovapdVex128LoadC5 | vmovapdVex128LoadC4 | vmovapdVex128StoreC5 | vmovapdVex128StoreC4
  | vmovapdVex256LoadC5 | vmovapdVex256LoadC4 | vmovapdVex256StoreC5 | vmovapdVex256StoreC4 =>
    simp only [formOf, vexForm]
    omega
  | vmovapdEvex128Load | vmovapdEvex256Load | vmovapdEvex512Load
  | vmovapdEvex128Store | vmovapdEvex256Store | vmovapdEvex512Store =>
    simp only [formOf, evexForm]
    omega

/-- An instruction that completes has at most 15 bytes and moves the pc past them, without a wrap (rules R26, R115). -/
theorem exec_advances_pc {i : Instr} {s t : State} (h : exec i s = .next t) :
    (formOf i).len ≤ 15 ∧ t.pc.toNat = s.pc.toNat + (formOf i).len := by
  obtain ⟨hstop, hfits, hmove⟩ := (exec_next_iff i s t).1 h
  obtain ⟨-, hlen, -⟩ := (stopOf_none_iff _ _ s).1 hstop
  simp only [pcFits, Bool.and_eq_true, decide_eq_true_eq] at hfits
  have hpc : t.pc = s.pc + BitVec.ofNat 64 (formOf i).len := by
    obtain ⟨-, rfl⟩ | ⟨rm, -, -, rfl⟩ | ⟨m, -, -, rfl⟩ := hmove <;> rfl
  refine ⟨hlen, ?_⟩
  rw [hpc, BitVec.toNat_add, BitVec.toNat_ofNat]
  omega

/-- Settles O51: the pc moves by the length of the decoded instruction. -/
theorem stepAdvancesPc : Obligations.StepAdvancesPc := by
  intro s t hstep
  obtain ⟨-, i, hdecode, hexec⟩ := (step_next_iff s t).1 hstep
  obtain ⟨hmax, hpc⟩ := exec_advances_pc hexec
  have hmin := four_le_len (opSize_mem_of_decode hdecode)
  omega

/-! ### Register copies -/

/-- An instruction that completes by a write of register `d` from `src` gives each element of `d` the value its class
says (rule R23). -/
theorem completesWritingReg_of_exec {i : Instr} {s : State} {d : BitVec 5} {src : Vec}
    (h : exec i s = .next { writeDest (formOf i) d src s with pc := s.pc + BitVec.ofNat 64 (formOf i).len }) :
    CompletesWritingReg i s d fun j => lane (destValue (formOf i) s (s.readV d) src) j := by
  refine ⟨_, h, ⟨?_, fun n hn => readV_writeV_other s _ hn⟩, fun j _ => ?_⟩
  · rw [length_encode]
    rfl
  · exact congrArg (lane · j) (readV_writeV_same s d _)

/-- Two ways to say the elements of the destination. -/
theorem CompletesWritingReg.congr {i : Instr} {s : State} {d : BitVec 5} {f g : Nat → Word}
    (h : CompletesWritingReg i s d f) (hfg : ∀ j, j < 8 → f j = g j) : CompletesWritingReg i s d g := by
  obtain ⟨t, hexec, hframe, hlane⟩ := h
  exact ⟨t, hexec, hframe, fun j hj => (hlane j hj).trans (hfg j hj)⟩

/-- The number of the register that ModRM.rm names (rules R87, R91, R92, R101). -/
def rmRegister (i : Instr) (rm : BitVec 3) : BitVec 5 := rmNum (formOf i).cls (formOf i).ext rm

/-- The destination of a register copy: ModRM.reg under opcode 28h, ModRM.rm under opcode 29h (rule R116). -/
def copyDest (i : Instr) (rm : BitVec 3) : BitVec 5 :=
  if operandAccess i = .read then regOperand i else rmRegister i rm

/-- The source of a register copy: the other one of the two. -/
def copySource (i : Instr) (rm : BitVec 3) : BitVec 5 :=
  if operandAccess i = .read then rmRegister i rm else regOperand i

theorem regNum_formOf (i : Instr) : regNum (formOf i).ext (formOf i).reg = regOperand i := by
  cases i with
  | movapdLoad | movapdStore => simp [regNum, formOf, legacyForm, extNone, regOperand]
  | _ => rfl

/-- B is the fourth bit of the register that ModRM.rm names, and in the EVEX class X the fifth. -/
theorem rmRegister_eq (i : Instr) (rm : BitVec 3) :
    rmRegister i rm = BitVec.ofBool (!narrowForm i && indexExt i) ++ BitVec.ofBool (baseExt i) ++ rm := by
  cases i <;> rfl

theorem rmSource_reg {f : Form} {rm : BitVec 3} (h : f.rm = .reg rm) (s : State) :
    rmSource f s = s.readV (rmNum f.cls f.ext rm) := by
  simp only [rmSource, h]

/-- A register copy that stages 2 to 4 let through completes, with the pc in range: stage 5 has nothing to check
(rule R130). -/
theorem registerCopy_completes {i : Instr} {rm : BitVec 3} {s : State} (hrm : rmOperand i = .reg rm)
    (hready : Ready i s) :
    CompletesWritingReg i s (copyDest i rm) fun j =>
      lane (destValue (formOf i) s (s.readV (copyDest i rm)) (s.readV (copySource i rm))) j := by
  obtain ⟨hpast, hrange⟩ := hready
  have hstop : stopOf (formOf i) (operandAccess i) s = none :=
    (stopOf_formOf_none_iff i _ s).2 ⟨hpast, fun m hm => by simp [hrm] at hm⟩
  have hform : (formOf i).rm = .reg rm := (formOf_rm i).trans hrm
  refine completesWritingReg_of_exec ((exec_next_iff i s _).2 ⟨hstop, (pcInRange_iff i s).1 hrange, ?_⟩)
  rw [rmSource_reg hform, regNum_formOf]
  by_cases hread : operandAccess i = .read
  · exact .inl ⟨hread, by simp only [copyDest, copySource, hread, if_true, rmRegister]⟩
  · exact .inr (.inl ⟨rm, (operandAccess_eq_write_iff i).2 hread, hform,
      by simp only [copyDest, copySource, hread, if_false, rmRegister]⟩)

/-- A legacy register copy: the low two elements are the source's, the others are kept (rule R132). -/
theorem legacyCopy_completes {i : Instr} {rm : BitVec 3} {s : State} {d src : BitVec 5}
    (hcls : (formOf i).cls = .legacy) (hrm : rmOperand i = .reg rm) (hd : copyDest i rm = d)
    (hsrc : copySource i rm = src) (hready : Ready i s) :
    CompletesWritingReg i s d fun j => if j < 2 then lane (s.readV src) j else lane (s.readV d) j := by
  subst hd hsrc
  refine (registerCopy_completes hrm hready).congr fun j hj => ?_
  simp only [destValue, hcls, (formOf_classConsistent i).legacy_vl hcls, vlLanes]
  exact lane_keepAbove 2 _ _ hj

/-- A VEX register copy: the low elements are the source's, the others become 0 (rules R141, R143). -/
theorem vexCopy_completes {i : Instr} {rm : BitVec 3} {s : State} {d src : BitVec 5}
    (hcls : (formOf i).cls = .vex) (hrm : rmOperand i = .reg rm) (hd : copyDest i rm = d)
    (hsrc : copySource i rm = src) (hready : Ready i s) :
    CompletesWritingReg i s d fun j => if j < vlLanes (formOf i).vl then lane (s.readV src) j else 0#64 := by
  subst hd hsrc
  refine (registerCopy_completes hrm hready).congr fun j hj => ?_
  simp only [destValue, hcls]
  exact lane_zeroAbove _ _ hj

/-- Settles O28: each of the four forms is a legacy register copy. -/
theorem legacyRegisterCopy : Obligations.LegacyRegisterCopy := by
  intro pre x reg rm s
  refine ⟨?_, ?_, ?_, ?_⟩ <;>
  exact legacyCopy_completes (rm := rm) rfl rfl
    (by simp [copyDest, operandAccess, regOperand, rmRegister_eq, narrowForm, baseExt])
    (by simp [copySource, operandAccess, regOperand, rmRegister_eq, narrowForm, baseExt])

/-- Settles O32: each of the eight forms is a VEX register copy of its vector length. -/
theorem vexRegisterCopy : Obligations.VexRegisterCopy := by
  intro pre v w reg rm s i d src kl hform hready
  obtain ⟨rfl, rfl, rfl, rfl⟩ | ⟨rfl, rfl, rfl, rfl⟩ | ⟨rfl, rfl, rfl, rfl⟩ | ⟨rfl, rfl, rfl, rfl⟩ |
    ⟨rfl, rfl, rfl, rfl⟩ | ⟨rfl, rfl, rfl, rfl⟩ | ⟨rfl, rfl, rfl, rfl⟩ | ⟨rfl, rfl, rfl, rfl⟩ := hform <;>
  exact vexCopy_completes (rm := rm) rfl rfl
    (by simp [copyDest, operandAccess, regOperand, rmRegister_eq, narrowForm, baseExt])
    (by simp [copySource, operandAccess, regOperand, rmRegister_eq, narrowForm, baseExt]) hready

/-! ### What control registers and CPUID stand for -/

/-- A field is all ones exactly when each of its bits is set. -/
theorem extractLsb'_eq_allOnes_iff {w : Nat} (x : BitVec w) (start len : Nat) :
    x.extractLsb' start len = BitVec.allOnes len ↔ ∀ j, j < len → x.getLsbD (start + j) = true := by
  simp +contextual [BitVec.eq_of_getLsbD_eq_iff]

/-- Settles O27: each enable is its bits, a field of all ones being its bits set. -/
theorem enablesFromControlRegisters : Obligations.EnablesFromControlRegisters := by
  intro c cr0 cr4 xcr0
  have htwo : xcr0.extractLsb' 1 2 = 3#2 ↔ _ := extractLsb'_eq_allOnes_iff xcr0 1 2
  have hthree : xcr0.extractLsb' 5 3 = 7#3 ↔ _ := extractLsb'_eq_allOnes_iff xcr0 5 3
  simp only [Nat.forall_lt_succ_right, Nat.not_lt_zero] at htwo hthree
  rw [htwo, hthree]
  simp [withControlRegisters, osSSEOf, osAVXOf, osAVX512Of, tsOf, and_assoc]

/-- With CR4 = 0 no class is enabled (rules R33, R34). -/
theorem osOk_withControlRegisters_cr4_zero (f : Form) (c : Config) (cr0 xcr0 : Word) :
    osOk f (withControlRegisters c cr0 0#64 xcr0) = false := by
  cases hcls : f.cls <;> simp [osOk, hcls, withControlRegisters, osSSEOf, osAVXOf, osAVX512Of]

/-- Settles O26: no form is enabled while CR4 is 0. -/
theorem undefinedUntilSystemSoftwareEnables : Obligations.UndefinedUntilSystemSoftwareEnables := by
  intro i s hcfg hadm
  refine exec_ud_of_not_sound hadm fun ⟨_, _, hos⟩ => ?_
  rw [hcfg, osOk_withControlRegisters_cr4_zero] at hos
  cases hos

/-- The feature a form needs is there exactly when its CPUID bits are set (rules R36, R106). -/
theorem featureOk_withCpuid (i : Instr) (c : Config) (edx1 ecx1 ebx7 : BitVec 32) :
    featureOk (formOf i) (withCpuid c edx1 ecx1 ebx7) = cpuidBits edx1 ecx1 ebx7 i := by
  cases i with
  | movapdLoad | movapdLoadRex | movapdStore | movapdStoreRex => rfl
  | vmovapdVex128LoadC5 | vmovapdVex128LoadC4 | vmovapdVex128StoreC5 | vmovapdVex128StoreC4
  | vmovapdVex256LoadC5 | vmovapdVex256LoadC4 | vmovapdVex256StoreC5 | vmovapdVex256StoreC4 => rfl
  | vmovapdEvex128Load | vmovapdEvex256Load | vmovapdEvex128Store | vmovapdEvex256Store => rfl
  | vmovapdEvex512Load | vmovapdEvex512Store => exact Bool.and_true _

/-- Settles O55: the flags are the bits by definition, and a form whose bit is 0 lacks its feature. -/
theorem featuresFromCpuid : Obligations.FeaturesFromCpuid := by
  intro c edx1 ecx1 ebx7
  refine ⟨rfl, fun i s hcfg hadm hbits => exec_ud_of_not_sound hadm fun ⟨_, hfeat, _⟩ => ?_⟩
  rw [hcfg, featureOk_withCpuid, hbits] at hfeat
  cases hfeat
end Sys2Proof.Machine
end

section
/-!
PROOF. Memory, operands and fetch. That the decoder reads back what the encoder writes (`decode_encode`) and what a
byte that cannot be fetched does (`fetchBytes_of_short`), for a step at an instruction's bytes; the stops of a memory
operand in the order of rule R185; loads and stores, said once for every form (`load_completes`, `store_completes`);
and what a later load sees of a store.
-/

namespace Sys2Proof

/-! ### The fields of the encoder's bytes -/

theorem prefixOf_prefixByte (p : Prefix) : prefixOf (prefixByte p) = some p := by
  cases p with
  | opSize | addrSize | lock | repne | rep => rfl
  | seg s => cases s <;> rfl
  | rex r =>
    obtain ⟨w, r, x, b⟩ := r
    revert w r x b
    decide

/-- The three fields of ModRM and of SIB (rules R84, R85). -/
theorem byte233_fields (hi : BitVec 2) (mid lo : BitVec 3) :
    (byte233 hi mid lo).extractLsb' 6 2 = hi ∧ (byte233 hi mid lo).extractLsb' 3 3 = mid ∧
      (byte233 hi mid lo).extractLsb' 0 3 = lo := by
  revert hi mid lo
  decide

/-- A displacement is its four bytes (rule R86). -/
theorem le32_bytes (v : BitVec 32) :
    le32 (v.extractLsb' 0 8) (v.extractLsb' 8 8) (v.extractLsb' 16 8) (v.extractLsb' 24 8) = v := by
  have h16 : v.extractLsb' 24 8 ++ v.extractLsb' 16 8 = v.extractLsb' 16 16 :=
    BitVec.extractLsb'_append_extractLsb'_eq_extractLsb' rfl
  have h24 : v.extractLsb' 16 16 ++ v.extractLsb' 8 8 = v.extractLsb' 8 24 :=
    BitVec.extractLsb'_append_extractLsb'_eq_extractLsb' rfl
  have h32 : v.extractLsb' 8 24 ++ v.extractLsb' 0 8 = v.extractLsb' 0 32 :=
    BitVec.extractLsb'_append_extractLsb'_eq_extractLsb' rfl
  rw [le32, h16, h24, h32, BitVec.extractLsb'_eq_self]

/-- The fields of the byte after C5h (rule R89). -/
theorem vex2Byte_fields (v : Vex2) (l : Bool) :
    (!(vex2Byte v l).getLsbD 7) = v.r ∧ (vex2Byte v l).extractLsb' 3 4 = v.vvvv ∧
      (vex2Byte v l).getLsbD 2 = l ∧ (vex2Byte v l).extractLsb' 0 2 = 1#2 := by
  cases v
  simp only [vex2Byte]
  decide +revert

/-- The fields of the byte after C4h (rule R88). -/
theorem vex3Byte1_fields (v : Vex3) :
    (!(vex3Byte1 v).getLsbD 7) = v.r ∧ (!(vex3Byte1 v).getLsbD 6) = v.x ∧ (!(vex3Byte1 v).getLsbD 5) = v.b ∧
      (vex3Byte1 v).extractLsb' 0 5 = 1#5 := by
  cases v
  simp only [vex3Byte1]
  decide +revert

/-- The fields of the byte after that one (rule R88). -/
theorem vex3Byte2_fields (v : Vex3) (l : Bool) :
    (vex3Byte2 v l).getLsbD 7 = v.w ∧ (vex3Byte2 v l).extractLsb' 3 4 = v.vvvv ∧
      (vex3Byte2 v l).getLsbD 2 = l ∧ (vex3Byte2 v l).extractLsb' 0 2 = 1#2 := by
  cases v
  simp only [vex3Byte2]
  decide +revert

/-- The fields of P0 (rule R97). -/
theorem evexP0_fields (e : Evex) :
    (!(evexP0 e).getLsbD 7) = e.r ∧ (!(evexP0 e).getLsbD 6) = e.x ∧ (!(evexP0 e).getLsbD 5) = e.b ∧
      (!(evexP0 e).getLsbD 4) = e.rHi ∧ (evexP0 e).extractLsb' 2 2 = e.p0Res ∧ (evexP0 e).extractLsb' 0 2 = 1#2 := by
  cases e
  simp only [evexP0]
  decide +revert

/-- The fields of P1 (rule R98). -/
theorem evexP1_fields (e : Evex) :
    (evexP1 e).getLsbD 7 = true ∧ (evexP1 e).extractLsb' 3 4 = e.vvvv ∧ (evexP1 e).getLsbD 2 = e.p1Fix ∧
      (evexP1 e).extractLsb' 0 2 = 1#2 := by
  cases e
  simp only [evexP1]
  decide +revert

/-- The fields of P2 (rule R99). -/
theorem evexP2_fields (e : Evex) (ll : BitVec 2) :
    (evexP2 e ll).getLsbD 7 = e.z ∧ (evexP2 e ll).extractLsb' 5 2 = ll ∧ (evexP2 e ll).getLsbD 4 = e.bcast ∧
      (evexP2 e ll).getLsbD 3 = e.vHi ∧ (evexP2 e ll).extractLsb' 0 3 = e.aaa := by
  cases e
  simp only [evexP2]
  decide +revert

theorem evexFields_bytes (e : Evex) (ll : BitVec 2) : evexFields (evexP0 e) (evexP1 e) (evexP2 e ll) = e := by
  simp only [evexFields, evexP0_fields, evexP1_fields, evexP2_fields]

/-! ### Reading back what the encoder writes -/

/-- Encoded prefixes are scanned as those prefixes, up to the class-telling byte (rule R117 step 1). -/
theorem scanPrefixes_encoded (pre : List Prefix) {b : Byte} (hb : prefixOf b = none) (rest : List Byte) :
    scanPrefixes (pre.map prefixByte ++ b :: rest) = (pre, b :: rest) := by
  induction pre with
  | nil => simp [scanPrefixes, hb]
  | cons p pre ih => simp [scanPrefixes, prefixOf_prefixByte, ih]

/-- Without a REX byte there is none to split off. -/
theorem splitRex_of_no_rex {pre : List Prefix} (h : ∀ r, .rex r ∉ pre) : splitRex pre = (pre, none) := by
  induction pre with
  | nil => rfl
  | cons p pre ih =>
    have hp : ∀ r, p ≠ .rex r := fun r heq => h r (by simp [heq])
    have htail : splitRex pre = (pre, none) := ih fun r hr => h r (List.mem_cons_of_mem _ hr)
    cases p with
    | rex r => exact absurd rfl (hp r)
    | opSize | addrSize | seg | lock | repne | rep => simp only [splitRex, htail]

/-- A REX byte in the last place is the one split off (rule R82). -/
theorem splitRex_append_rex (pre : List Prefix) (r : Rex) : splitRex (pre ++ [.rex r]) = (pre, some r) := by
  induction pre with
  | nil => rfl
  | cons p pre ih =>
    obtain ⟨q, qs, hq⟩ : ∃ q qs, pre ++ [Prefix.rex r] = q :: qs := by cases pre <;> exact ⟨_, _, rfl⟩
    rw [List.cons_append, hq, splitRex]
    · rw [← hq, ih]
    · simp

theorem takeDisp32_bytesLe32 (v : BitVec 32) : takeDisp32 (bytesLe32 v) = some v :=
  congrArg some (le32_bytes v)

theorem takeDisp_dispBytes (d : Disp) : takeDisp (dispMod d) (dispBytes d) = some d := by
  cases d with
  | none => rfl
  | d8 v => rfl
  | d32 v => exact congrArg (Option.map Disp.d32) (takeDisp32_bytesLe32 v)

theorem dispMod_ne_three (d : Disp) : dispMod d ≠ 3#2 := by
  cases d <;> simp [dispMod]

/-- `mod` = 00b says that there is no displacement beside a base register (rule R86). -/
theorem dispMod_eq_zero_iff (d : Disp) : dispMod d = 0#2 ↔ d = .none := by
  cases d <;> simp [dispMod]

/-- ModRM, SIB and displacement are read back, for the shapes they can express (rules R84 to R86). -/
theorem takeModRM_encodeModRM (reg : BitVec 3) {rm : RM} (h : rm.wf = true) :
    takeModRM (encodeModRM reg rm) = some (reg, rm) := by
  cases rm with
  | reg rm => simp [encodeModRM, takeModRM, byte233_fields, takeRM]
  | mem m =>
    cases m with
    | rip d => simp [encodeModRM, takeModRM, byte233_fields, takeRM, takeDisp32_bytesLe32]
    | base rm d =>
      have hrm : rm ≠ 4#3 ∧ ¬ (d = .none ∧ rm = 5#3) := by
        simpa [RM.wf, MemOperand.wf, ← imp_iff_not_or, not_and] using h
      simp [encodeModRM, takeModRM, byte233_fields, takeRM, dispMod_ne_three, dispMod_eq_zero_iff, hrm,
        takeDisp_dispBytes]
    | sib sc ix sb d =>
      have hsb : ¬ (d = .none ∧ sb = 5#3) := by
        simpa [RM.wf, MemOperand.wf, ← imp_iff_not_or, not_and] using h
      simp [encodeModRM, takeModRM, byte233_fields, takeRM, takeSib, dispMod_ne_three, dispMod_eq_zero_iff, hsb,
        takeDisp_dispBytes]
    | sibNoBase sc ix d =>
      simp [encodeModRM, takeModRM, byte233_fields, takeRM, takeSib, takeDisp32_bytesLe32]

theorem withModRM_encodeModRM (reg : BitVec 3) {rm : RM} (h : rm.wf = true) (k : BitVec 3 → RM → Decoded) :
    withModRM (encodeModRM reg rm) k = k reg rm := by
  simp [withModRM, takeModRM_encodeModRM reg h]

/-! ### The classes -/

/-- The class-telling byte and what follows it decode under the prefixes before it (rule R117). -/
theorem decode_encoded_prefixes (pre : List Prefix) {b : Byte} (hb : prefixOf b = none) (rest : List Byte) :
    decode (pre.map prefixByte ++ b :: rest) = decodeClass pre (b :: rest) := by
  rw [decode, scanPrefixes_encoded pre hb]

/-- A legacy encoding, without or with its REX byte, is read as the legacy class (rules R82, R87). -/
theorem decode_encodeLegacy {pre : List Prefix} (rex : Option Rex) (op : Byte) (reg : BitVec 3) {rm : RM}
    (h : legacyWf pre rm = true) :
    decode (encodeLegacy pre rex.toList op reg rm) = decodeLegacy pre rex (op :: encodeModRM reg rm) := by
  cases rex with
  | none =>
    simp only [legacyWf, legacyPrefixesAdmitted, Bool.and_eq_true, List.all_eq_true] at h
    obtain ⟨⟨⟨hadm, -⟩, -⟩, -⟩ := h
    have hrex : ∀ r, .rex r ∉ pre := fun r hr => absurd (hadm _ hr) (by simp [Prefix.legacyAdmitted])
    simp [encodeLegacy, decode_encoded_prefixes pre (b := 0x0F#8) rfl, decodeClass, splitRex_of_no_rex hrex]
  | some r =>
    have happ : encodeLegacy pre [r] op reg rm =
        (pre ++ [Prefix.rex r]).map prefixByte ++ 0x0F#8 :: op :: encodeModRM reg rm := by simp [encodeLegacy]
    rw [Option.toList_some, happ, decode_encoded_prefixes _ (b := 0x0F#8) rfl]
    simp [decodeClass, splitRex_append_rex]

/-- Opcodes 28h and 29h in the legacy class (rule R117 step 2). -/
theorem decodeLegacy_encoded {pre : List Prefix} (rex : Option Rex) (reg : BitVec 3) {rm : RM}
    (h : legacyWf pre rm = true) :
    decodeLegacy pre rex (0x28#8 :: encodeModRM reg rm) =
        .instr (rex.elim (.movapdLoad pre reg rm) fun x => .movapdLoadRex pre x reg rm) ∧
      decodeLegacy pre rex (0x29#8 :: encodeModRM reg rm) =
        .instr (rex.elim (.movapdStore pre reg rm) fun x => .movapdStoreRex pre x reg rm) := by
  simp only [legacyWf, Bool.and_eq_true, List.contains_iff_mem] at h
  obtain ⟨⟨hadm, hop⟩, hrm⟩ := h
  cases rex <;> simp [decodeLegacy, hadm, hop, withModRM_encodeModRM reg hrm]

/-- Opcodes 28h and 29h behind C5h (rule R117 step 3). -/
theorem decode_encodeVex2 {pre : List Prefix} (v : Vex2) (l : Bool) (reg : BitVec 3) {rm : RM}
    (h : vexWf pre rm = true) :
    decode (encodeVex2 pre v l 0x28#8 reg rm) =
        .instr (if l then .vmovapdVex256LoadC5 pre v reg rm else .vmovapdVex128LoadC5 pre v reg rm) ∧
      decode (encodeVex2 pre v l 0x29#8 reg rm) =
        .instr (if l then .vmovapdVex256StoreC5 pre v reg rm else .vmovapdVex128StoreC5 pre v reg rm) := by
  simp only [vexWf, Bool.and_eq_true] at h
  obtain ⟨hadm, hrm⟩ := h
  obtain ⟨hr, hvvvv, hl, hpp⟩ := vex2Byte_fields v l
  simp only [encodeVex2, decode_encoded_prefixes pre (b := 0xC5#8) rfl]
  simp [-BitVec.getLsbD_eq_getElem, decodeClass, decodeVex2, hadm, hr, hvvvv, hl, hpp, withModRM_encodeModRM reg hrm]

/-- Opcodes 28h and 29h behind C4h (rule R117 step 3). -/
theorem decode_encodeVex3 {pre : List Prefix} (v : Vex3) (l : Bool) (reg : BitVec 3) {rm : RM}
    (h : vexWf pre rm = true) :
    decode (encodeVex3 pre v l 0x28#8 reg rm) =
        .instr (if l then .vmovapdVex256LoadC4 pre v reg rm else .vmovapdVex128LoadC4 pre v reg rm) ∧
      decode (encodeVex3 pre v l 0x29#8 reg rm) =
        .instr (if l then .vmovapdVex256StoreC4 pre v reg rm else .vmovapdVex128StoreC4 pre v reg rm) := by
  simp only [vexWf, Bool.and_eq_true] at h
  obtain ⟨hadm, hrm⟩ := h
  obtain ⟨hr, hx, hb, hmap⟩ := vex3Byte1_fields v
  obtain ⟨hw, hvvvv, hl, hpp⟩ := vex3Byte2_fields v l
  simp only [encodeVex3, decode_encoded_prefixes pre (b := 0xC4#8) rfl]
  simp [-BitVec.getLsbD_eq_getElem, decodeClass, decodeVex3, hadm, hr, hx, hb, hmap, hw, hvvvv, hl, hpp,
    withModRM_encodeModRM reg hrm]

/-- Opcodes 28h and 29h behind 62h; L'L = 11b selects no row (rules R102, R117 step 4). -/
theorem decode_encodeEvex {pre : List Prefix} (e : Evex) (ll : BitVec 2) (reg : BitVec 3) {rm : RM}
    (h : vexWf pre rm = true) :
    decode (encodeEvex pre e ll 0x28#8 reg rm) =
        (if ll = 0#2 then .instr (.vmovapdEvex128Load pre e reg rm)
        else if ll = 1#2 then .instr (.vmovapdEvex256Load pre e reg rm)
        else if ll = 2#2 then .instr (.vmovapdEvex512Load pre e reg rm)
        else .ud (evexLen pre rm)) ∧
      decode (encodeEvex pre e ll 0x29#8 reg rm) =
        (if ll = 0#2 then .instr (.vmovapdEvex128Store pre e reg rm)
        else if ll = 1#2 then .instr (.vmovapdEvex256Store pre e reg rm)
        else if ll = 2#2 then .instr (.vmovapdEvex512Store pre e reg rm)
        else .ud (evexLen pre rm)) := by
  simp only [vexWf, Bool.and_eq_true] at h
  obtain ⟨hadm, hrm⟩ := h
  obtain ⟨hw, -, -, hpp⟩ := evexP1_fields e
  obtain ⟨-, -, -, -, -, hmm⟩ := evexP0_fields e
  obtain ⟨-, hll, -⟩ := evexP2_fields e ll
  have hlisted : ∀ op, evexListed (evexP0 e) (evexP1 e) op = (op == 0x28#8 || op == 0x29#8) := fun op => by
    simp only [evexListed, hmm, hpp, hw, beq_self_eq_true, Bool.true_and]
  simp only [encodeEvex, decode_encoded_prefixes pre (b := 0x62#8) rfl]
  simp [decodeClass, decodeEvex, hadm, hlisted, hll, evexFields_bytes, withModRM_encodeModRM reg hrm]

/-- The bytes of a well-formed instruction decode to it (rule R117). -/
theorem decode_encode {i : Instr} (h : i.wf = true) : decode (encode i) = .instr i := by
  cases i with
  | movapdLoad pre reg rm => exact (decode_encodeLegacy none _ reg h).trans (decodeLegacy_encoded none reg h).1
  | movapdStore pre reg rm => exact (decode_encodeLegacy none _ reg h).trans (decodeLegacy_encoded none reg h).2
  | movapdLoadRex pre rex reg rm =>
    exact (decode_encodeLegacy (some rex) _ reg h).trans (decodeLegacy_encoded (some rex) reg h).1
  | movapdStoreRex pre rex reg rm =>
    exact (decode_encodeLegacy (some rex) _ reg h).trans (decodeLegacy_encoded (some rex) reg h).2
  | vmovapdVex128LoadC5 | vmovapdVex256LoadC5 => exact (decode_encodeVex2 _ _ _ h).1
  | vmovapdVex128StoreC5 | vmovapdVex256StoreC5 => exact (decode_encodeVex2 _ _ _ h).2
  | vmovapdVex128LoadC4 | vmovapdVex256LoadC4 => exact (decode_encodeVex3 _ _ _ h).1
  | vmovapdVex128StoreC4 | vmovapdVex256StoreC4 => exact (decode_encodeVex3 _ _ _ h).2
  | vmovapdEvex128Load | vmovapdEvex256Load | vmovapdEvex512Load => exact (decode_encodeEvex _ _ _ h).1
  | vmovapdEvex128Store | vmovapdEvex256Store | vmovapdEvex512Store => exact (decode_encodeEvex _ _ _ h).2

end Sys2Proof

namespace Sys2Proof.Machine

/-! ### Bytes of memory -/

theorem byteAddr_zero (a : Word) : byteAddr a 0 = a := by
  simp [byteAddr]

/-- Offsets add up, modulo 2^64 (rule R52). -/
theorem byteAddr_byteAddr (a : Word) (t u : Nat) : byteAddr (byteAddr a t) u = byteAddr a (t + u) := by
  simp [byteAddr, BitVec.ofNat_add, BitVec.add_assoc]

/-- The byte of a masked read at a place past the operand is 0 (rule R52). -/
theorem byteOf_memReadMasked_above (m : Memory) (addr : Word) {n : Nat} (bm : Nat → Bool) {t : Nat} (ht : n ≤ t) :
    byteOf (memReadMasked m addr n bm) t = 0#8 := by
  apply BitVec.eq_of_getLsbD_eq
  intro i hi
  have hbyte : (8 * t + i) / 8 = t := by omega
  have hpast : ((List.range n).map fun u => if bm u then readAt m addr u else 0#8).getD t 0#8 = 0#8 :=
    List.getD_eq_default _ _ (by simpa using ht)
  simp only [byteOf, memReadMasked, BitVec.getLsbD_extractLsb', getLsbD_joinBytes, hbyte, hpast, BitVec.getLsbD_zero,
    Bool.and_false]

/-- A field of whole bytes is those bytes. -/
theorem extractLsb'_eq_of_bytes {a b : Vec} {p q n : Nat}
    (h : ∀ t, t < n → byteOf a (p + t) = byteOf b (q + t)) :
    a.extractLsb' (8 * p) (8 * n) = b.extractLsb' (8 * q) (8 * n) := by
  apply BitVec.eq_of_getLsbD_eq
  intro i hi
  have hbit := congrArg (fun w : Byte => w.getLsbD (i % 8)) (h (i / 8) (by omega))
  have hmod : i % 8 < 8 := by omega
  have hp : 8 * (p + i / 8) + i % 8 = 8 * p + i := by omega
  have hq : 8 * (q + i / 8) + i % 8 = 8 * q + i := by omega
  simpa [byteOf, hmod, hp, hq, hi] using hbit

/-- A masked write leaves a byte of another operand alone that is none of its enabled bytes (rule R54). -/
theorem readAt_memWriteMasked_other (m : Memory) (addr : Word) (n : Nat) (val : Vec) (bm : Nat → Bool) {b : Word}
    {t : Nat} (h : ∀ u, u < n → bm u = true → byteAddr b t ≠ byteAddr addr u) :
    readAt (memWriteMasked m addr n val bm) b t = readAt m b t :=
  read_memWriteMasked_other m addr n val bm fun u hu hb heq => h u hu hb (BitVec.eq_of_toNat_eq heq)

/-- A byte of another operand that is an enabled byte of the write becomes the value's byte (rule R54). -/
theorem readAt_memWriteMasked_at {m : Memory} (hm : Memory.wf m = true) {addr : Word} {n : Nat} (hn : n ≤ 2 ^ 64)
    (val : Vec) {bm : Nat → Bool} {b : Word} {t u : Nat} (hu : u < n) (hb : bm u = true)
    (haddr : byteAddr b t = byteAddr addr u) :
    readAt (memWriteMasked m addr n val bm) b t = byteOf val u := by
  rw [readAt, haddr]
  exact readAt_memWriteMasked_self hm addr hn val hu hb

/-- Byte `t` of a read is the byte of memory there (rule R52). -/
theorem byteOf_memRead (m : Memory) (addr : Word) {n t : Nat} (hn : n ≤ 64) (ht : t < n) :
    byteOf (memRead m addr n) t = readAt m addr t :=
  byteOf_memReadMasked m addr hn _ ht

/-- Settles O44: each of the operand's bytes is the value's, and no other byte is written. -/
theorem memoryReadAfterWrite : Obligations.MemoryReadAfterWrite := by
  intro m addr val n hn hm
  have hn64 : n ≤ 64 := by omega
  have hself : ∀ t, t < n → readAt (memWrite m addr n val) addr t = byteOf val t := fun t ht =>
    readAt_memWriteMasked_self hm addr (by omega) val ht rfl
  refine ⟨wf_memWrite addr n val hm, hself, fun t ht => ?_, fun t ht _ => ?_, fun a ha => ?_⟩
  · rw [byteOf_memRead _ _ hn64 ht, hself t ht]
  · exact byteOf_memReadMasked_above _ _ _ ht
  · exact read_memWriteMasked_other m addr n val _ fun u hu _ => ha u hu

/-- Settles O45: the second store has none of the first one's bytes, and both are 16 of the 32 read. -/
theorem adjacentStoresReadTogether : Obligations.AdjacentStoresReadTogether := by
  intro m addr a b hm
  have hsecond : ∀ u, byteAddr (addr + 16#64) u = byteAddr addr (16 + u) := byteAddr_byteAddr addr 16
  refine ⟨extractLsb'_eq_of_bytes (p := 0) (q := 0) (n := 16) fun t ht => ?_,
    extractLsb'_eq_of_bytes (p := 16) (q := 0) (n := 16) fun t ht => ?_⟩
  · rw [Nat.zero_add, byteOf_memRead _ _ (by omega) (by omega)]
    refine (readAt_memWriteMasked_other _ _ _ _ _ fun u hu _ heq => ?_).trans
      (readAt_memWriteMasked_self hm addr (by omega) a ht rfl)
    rw [hsecond] at heq
    have := byteAddr_inj (by omega) (by omega) heq
    omega
  · rw [Nat.zero_add, byteOf_memRead _ _ (by omega) (by omega)]
    exact readAt_memWriteMasked_at (wf_memWrite addr 16 a hm) (by omega) b ht rfl (hsecond t).symm

/-! ### Placed bytes -/

theorem wf_placeBytes (a : Word) (bs : List Byte) {m : Memory} (h : Memory.wf m = true) :
    Memory.wf (placeBytes a bs m) = true := by
  induction bs generalizing a m with
  | nil => exact h
  | cons b bs ih => exact ih _ (wf_write b a.isLt h)

/-- Placed bytes leave every other address alone. -/
theorem read_placeBytes_other (a : Word) (bs : List Byte) (m : Memory) {x : Nat}
    (h : ∀ t, t < bs.length → x ≠ (byteAddr a t).toNat) : Memory.read (placeBytes a bs m) x = Memory.read m x := by
  induction bs generalizing a m with
  | nil => rfl
  | cons b bs ih =>
    have hx : x ≠ a.toNat := by simpa [byteAddr_zero] using h 0 (by simp)
    rw [placeBytes, ih, read_write_other b m hx]
    intro t ht
    have hnext := h (1 + t) (by simp; omega)
    rwa [← byteAddr_byteAddr] at hnext

/-- Placed bytes, no more than there are addresses, are read where they were placed. -/
theorem readAt_placeBytes (a : Word) {bs : List Byte} {m : Memory} (hm : Memory.wf m = true)
    (hlen : bs.length ≤ 2 ^ 64) {t : Nat} (ht : t < bs.length) :
    readAt (placeBytes a bs m) a t = bs.getD t 0#8 := by
  induction bs generalizing a m t with
  | nil => simp at ht
  | cons b bs ih =>
    simp only [List.length_cons] at hlen ht
    cases t with
    | zero =>
      have hne : ∀ u, u < bs.length → a.toNat ≠ (byteAddr (a + 1#64) u).toNat := fun u hu heq => by
        have h01 : byteAddr a 0 = byteAddr a (1 + u) := by
          rw [byteAddr_zero, ← byteAddr_byteAddr]
          exact BitVec.eq_of_toNat_eq heq
        have := byteAddr_inj (by omega) (by omega) h01
        omega
      rw [readAt, byteAddr_zero, placeBytes, read_placeBytes_other _ _ _ hne, read_write_self _ _ hm]
      rfl
    | succ t =>
      have hrec := ih (a + 1#64) (wf_write b a.isLt hm) (by omega) (t := t) (by omega)
      rw [readAt, show a + 1#64 = byteAddr a 1 from rfl, byteAddr_byteAddr, Nat.add_comm 1 t] at hrec
      exact hrec

theorem length_bytesMsbFirst (n w : Nat) : (bytesMsbFirst n w).length = n := by
  induction n with
  | zero => rfl
  | succ n ih => simp [bytesMsbFirst, ih]

theorem length_bytesLsbFirst (n w : Nat) : (bytesLsbFirst n w).length = n := by
  induction n generalizing w with
  | zero => rfl
  | succ n ih => simp [bytesLsbFirst, ih]

/-- A table word of at most 120 bits is a stream of 15 bytes (log 7). -/
theorem length_tableStream {nbits : Nat} (h : nbits ≤ 120) (w : Nat) : (tableStream nbits w).length = 15 := by
  have hn : (nbits + 7) / 8 ≤ 15 := by omega
  unfold tableStream padded
  split <;> simp [length_bytesMsbFirst, length_bytesLsbFirst, maxLength] <;> omega

theorem decode_tableStream_of_decodeTableWord {nbits w : Nat} {i : Instr} (h : decodeTableWord nbits w = some i) :
    decode (tableStream nbits w) = .instr i := by
  unfold decodeTableWord at h
  split at h
  · next j hj => rw [hj, Option.some.inj h]
  · cases h

/-- In the configuration made for it, a canonical address of the region can be fetched from (log 7). -/
theorem fetchByte_fetchable {s : State} {pc : Word} {r : Region} {a : Word}
    (ha : inRegion a r = true) (hcan : canonical s.cfg a = true) :
    fetchByte { s with cfg := fetchable s.cfg pc r } a = none := by
  simp only [inRegion, Bool.and_eq_true, decide_eq_true_eq] at ha
  refine (fetchByte_none_iff _ a).2 ⟨hcan, ?_, ?_⟩
  · simp only [translateFault, fetchable, Option.map_eq_none_iff, List.find?_eq_none, List.mem_filter]
    rintro d ⟨-, hkept⟩ hd
    simp only [inRegion, Bool.and_eq_true, decide_eq_true_eq] at hd
    obtain ⟨hkind, hlo, hhi⟩ := hd
    simp only [hkind, regionsMeet, Bool.true_and, Bool.not_eq_true', Bool.and_eq_false_iff, decide_eq_false_iff_not]
      at hkept
    omega
  · simp only [isMapped, fetchable]
    split
    · next hcover =>
      obtain ⟨q, hq, hle⟩ := List.any_eq_true.1 hcover
      simp only [Bool.and_eq_true, decide_eq_true_eq] at hle
      refine List.any_eq_true.2 ⟨q, hq, ?_⟩
      simp only [inRegion, Bool.and_eq_true, decide_eq_true_eq]
      omega
    · simp [inRegion, ha]

/-! ### A step at the bytes of an instruction -/

/-- In 64-bit mode and not at END_ADDR nothing stops a step before the fetch. -/
theorem stepStop_none {s : State} (hmode : s.cfg.mode = .long64) (hend : s.cfg.endAddr ≠ some s.pc) :
    stepStop s = none := by
  simp [stepStop, modeStop, hmode, hend]

/-- The bytes stand at the pc and each passes the checks of a fetch. -/
theorem standsFetchable_iff (bs : List Byte) (s : State) :
    StandsFetchable bs s ↔
      ∀ t, t < bs.length → readAt s.mem s.pc t = bs.getD t 0#8 ∧ fetchByte s (byteAddr s.pc t) = none := by
  simp only [fetchByte_none_iff]

/-- Bytes at the pc that can be fetched and decode to an instruction are what the step runs (rule R130). -/
theorem step_of_standsFetchable {s : State} {bs : List Byte} {i : Instr} (hmode : s.cfg.mode = .long64)
    (hend : s.cfg.endAddr ≠ some s.pc) (hbs : StandsFetchable bs s) (hdec : decode bs = .instr i) :
    step s = exec i s := by
  have hfetched : decode (fetchBytes s).1 = .instr i :=
    (decode_fetchBytes ((standsFetchable_iff bs s).1 hbs) (by simp [hdec])).trans hdec
  simp [step, stepStop_none hmode hend, (fetchDecode_run_iff s i).2 hfetched]

/-- Settles O7: an encoding decodes to its instruction. -/
theorem stepRunsEncodedInstruction : Obligations.StepRunsEncodedInstruction := by
  intro s i hmode hend hwf hbs
  exact step_of_standsFetchable hmode hend hbs (decode_encode hwf)

/-- The first bytes at the pc, read one by one. -/
theorem map_readAt_range_eq_take {s : State} {bs : List Byte}
    (h : ∀ t, t < bs.length → readAt s.mem s.pc t = bs.getD t 0#8) {n : Nat} (hn : n ≤ bs.length) :
    (List.range n).map (readAt s.mem s.pc) = bs.take n :=
  List.ext_getElem (by simp [hn]) fun t h1 h2 => by
    have ht : t < bs.length := by simp at h2; omega
    simp [h t ht, ht]

/-- A mere beginning followed by a byte that cannot be fetched is all that fetch answers, with that byte's stop. -/
theorem fetchBytes_of_short {s : State} {bs : List Byte} {st : Stop} (hbs : StandsFetchable bs s)
    (hshort : decode bs = .short) (hnext : fetchByte s (byteAddr s.pc bs.length) = some st) :
    fetchBytes s = (bs, some st) := by
  rw [standsFetchable_iff] at hbs
  have htake := fun n hn => map_readAt_range_eq_take (fun t ht => (hbs t ht).1) (n := n) hn
  obtain ⟨k, -, hl, hok, hend⟩ := fetchFrom_spec (fetchWindow s) s.pc s
  have hk : k ≤ bs.length := by
    by_contra hlt
    rw [hok _ (Nat.lt_of_not_le hlt)] at hnext
    cases hnext
  have hbytes : (fetchBytes s).1 = bs.take k := hl.trans (htake k hk)
  obtain ⟨-, hnone⟩ | ⟨-, st', hst', hsome⟩ := hend
  · have hdec : decode (bs.take k) ≠ .short := hbytes ▸ decode_fetchBytes_ne_short hnone
    have hall := decode_append (bs.drop k) hdec
    rw [List.take_append_drop, hshort] at hall
    exact absurd hall.symm hdec
  · obtain hlt | rfl := Nat.lt_or_eq_of_le hk
    · rw [(hbs k hlt).2] at hst'
      cases hst'
    · rw [hnext] at hst'
      cases hst'
      rw [List.take_length] at hbytes
      exact Prod.ext hbytes hsome

/-- Where a byte that the decoder still needs cannot be fetched, its stop is the step's (rules R130, R185). -/
theorem step_of_unfetchable {s : State} {bs : List Byte} {st : Stop} (hmode : s.cfg.mode = .long64)
    (hend : s.cfg.endAddr ≠ some s.pc) (hbs : StandsFetchable bs s) (hshort : decode bs = .short)
    (hnext : fetchByte s (byteAddr s.pc bs.length) = some st) : step s = st.out := by
  simp [step, stepStop_none hmode hend, fetchDecode, fetchBytes_of_short hbs hshort hnext, hshort]

/-- Settles O10: the three ways in which a byte cannot be fetched, in their order. -/
theorem fetchFaults : Obligations.FetchFaults := by
  intro s bs hmode hend hshort hbs addr
  have hstep : ∀ st, fetchByte s addr = some st → step s = st.out :=
    fun st => step_of_unfetchable hmode hend hbs hshort
  refine ⟨fun hcan => ?_, fun code hcan hpage => ?_, fun hcan hpage hmap => ?_⟩
  · exact hstep (raise (.gp 0) s) (by simp [fetchByte, canonicalStop, hcan])
  · exact hstep (raise (.pf code addr) s) (by simp [fetchByte, canonicalStop, hcan, pageStop, firstPageFault, hpage])
  · exact hstep (.refuse .unmapped)
      (by simp [fetchByte, canonicalStop, hcan, pageStop, firstPageFault, hpage, mapStop, hmap])

/-- Settles O12: the stream of the word stands at the pc, where it can be fetched. -/
theorem placedTableWordRuns : Obligations.PlacedTableWordRuns := by
  intro s nbits w i hwf hbits hpc hcan hdec
  have hlen := length_tableStream hbits w
  refine step_of_standsFetchable (bs := tableStream nbits w) rfl ?_ ?_ (decode_tableStream_of_decodeTableWord hdec)
  · simp only [State.withFetchWord, placeFetchWord, fetchable]
    split
    · simp
    · assumption
  · refine (standsFetchable_iff _ _).2 fun t ht => ⟨readAt_placeBytes s.pc hwf (by omega) ht, ?_⟩
    have haddr : (byteAddr s.pc t).toNat = s.pc.toNat + t := by
      rw [byteAddr, BitVec.toNat_add, BitVec.toNat_ofNat]
      omega
    have hregion : inRegion (byteAddr s.pc t) ⟨s.pc.toNat, maxLength⟩ = true := by
      simp only [inRegion, haddr, maxLength, Bool.and_eq_true, decide_eq_true_eq]
      omega
    exact fetchByte_fetchable (s := { s with mem := placeBytes s.pc (tableStream nbits w) s.mem })
      hregion (hcan t (by omega))

/-! ### What stops an access (rule R185 (5) to (8)) -/

/-- The accessed bytes at and past an enabled byte come after those below it. -/
theorem accessed_eq_append (addr : Word) {n t : Nat} {bm : Nat → Bool} (ht : t < n) (hb : bm t = true) :
    ∃ rest, accessed addr n bm = accessed addr t bm ++ byteAddr addr t :: rest := by
  obtain ⟨k, rfl⟩ : ∃ k, n = t + (k + 1) := ⟨n - t - 1, by omega⟩
  simp only [accessed, List.range_add, List.range_succ_eq_map, List.map_cons, List.filter_append, List.map_append,
    Nat.add_zero, List.filter_cons_of_pos hb]
  exact ⟨_, rfl⟩

/-- The page fault of the first byte that has one. -/
theorem firstPageFault_append_cons {c : Config} {kind : Access} {below rest : List Word} {a : Word} {code : ErrCode}
    (hbelow : ∀ b ∈ below, translateFault c kind b = none) (ha : translateFault c kind a = some code) :
    firstPageFault c kind (below ++ a :: rest) = some (code, a) := by
  induction below with
  | nil => simp [firstPageFault, ha]
  | cons b below ih =>
    rw [List.forall_mem_cons] at hbelow
    simp [firstPageFault, hbelow.1, ih hbelow.2]

section
variable {kind : Access} {addr : Word} {n : Nat} {bm : Nat → Bool} {stack : Bool} {s : State} {t : Nat}

theorem accessStop_misaligned (h : addr.toNat % n ≠ 0) :
    accessStop kind addr n bm stack s = some (raise (.gp 0) s) := by
  simp [accessStop, alignStop, h]

theorem accessStop_noncanonical (halign : addr.toNat % n = 0) (ht : t < n) (hb : bm t = true)
    (hcan : canonical s.cfg (byteAddr addr t) = false) :
    accessStop kind addr n bm stack s = some (raise (if stack then .ss 0 else .gp 0) s) := by
  have hnot : (accessed addr n bm).all (canonical s.cfg) = false :=
    List.all_eq_false.2 ⟨_, (mem_accessed addr n bm _).2 ⟨t, ht, hb, rfl⟩, by simp [hcan]⟩
  simp [accessStop, alignStop, halign, canonicalStop, hnot]

/-- A property of every accessed byte, in the terms of the statements. -/
theorem accessed_all_iff (p : Word → Bool) :
    (accessed addr n bm).all p = true ↔ ∀ u, u < n → bm u = true → p (byteAddr addr u) = true := by
  simp only [List.all_eq_true, mem_accessed]
  exact ⟨fun h u hu hb => h _ ⟨u, hu, hb, rfl⟩, by rintro h a ⟨u, hu, hb, rfl⟩; exact h u hu hb⟩

/-- No accessed byte faults in Translate, in the terms of the statements. -/
theorem firstPageFault_accessed_none_iff (c : Config) :
    firstPageFault c kind (accessed addr n bm) = none ↔
      ∀ u, u < n → bm u = true → translateFault c kind (byteAddr addr u) = none := by
  simp only [firstPageFault_none_iff, mem_accessed]
  exact ⟨fun h u hu hb => h _ ⟨u, hu, hb, rfl⟩, by rintro h a ⟨u, hu, hb, rfl⟩; exact h u hu hb⟩

theorem accessStop_denied {code : ErrCode} (halign : addr.toNat % n = 0)
    (hcan : ∀ u, u < n → bm u = true → canonical s.cfg (byteAddr addr u) = true) (ht : t < n) (hb : bm t = true)
    (hpage : translateFault s.cfg kind (byteAddr addr t) = some code)
    (hbelow : ∀ u, u < t → bm u = true → translateFault s.cfg kind (byteAddr addr u) = none) :
    accessStop kind addr n bm stack s = some (raise (.pf code (byteAddr addr t)) s) := by
  obtain ⟨rest, hsplit⟩ := accessed_eq_append addr ht hb
  have hfirst : firstPageFault s.cfg kind (accessed addr n bm) = some (code, byteAddr addr t) := by
    rw [hsplit]
    refine firstPageFault_append_cons (fun b hmem => ?_) hpage
    obtain ⟨u, hu, hub, rfl⟩ := (mem_accessed addr t bm b).1 hmem
    exact hbelow u hu hub
  simp [accessStop, alignStop, halign, canonicalStop, (accessed_all_iff _).2 hcan, pageStop, hfirst]

/-- Past alignment, canonicality and translation what is left are the address map and the program text. -/
theorem accessStop_of_translated (halign : addr.toNat % n = 0)
    (hbytes : ∀ u, u < n → bm u = true →
      canonical s.cfg (byteAddr addr u) = true ∧ translateFault s.cfg kind (byteAddr addr u) = none) :
    accessStop kind addr n bm stack s =
      (mapStop (accessed addr n bm) s <|> textStop kind (accessed addr n bm) s) := by
  have hcan := (accessed_all_iff (canonical s.cfg)).2 fun u hu hb => (hbytes u hu hb).1
  have hpage := (firstPageFault_accessed_none_iff s.cfg).2 fun u hu hb => (hbytes u hu hb).2
  simp [accessStop, alignStop, halign, canonicalStop, hcan, pageStop, hpage]

theorem mapStop_unmapped (ht : t < n) (hb : bm t = true) (hmap : isMapped s.cfg (byteAddr addr t) = false) :
    mapStop (accessed addr n bm) s = some (.refuse .unmapped) := by
  have hnot : (accessed addr n bm).all (isMapped s.cfg) = false :=
    List.all_eq_false.2 ⟨_, (mem_accessed addr n bm _).2 ⟨t, ht, hb, rfl⟩, by simp [hmap]⟩
  simp [mapStop, hnot]

theorem mapStop_mapped (hmap : ∀ u, u < n → bm u = true → isMapped s.cfg (byteAddr addr u) = true) :
    mapStop (accessed addr n bm) s = none := by
  simp [mapStop, (accessed_all_iff _).2 hmap]

theorem textStop_text (ht : t < n) (hb : bm t = true) (htext : isText s.cfg (byteAddr addr t) = true) :
    textStop .write (accessed addr n bm) s = some (.refuse .codeWrite) := by
  have hany : (accessed addr n bm).any (isText s.cfg) = true :=
    List.any_eq_true.2 ⟨_, (mem_accessed addr n bm _).2 ⟨t, ht, hb, rfl⟩, htext⟩
  simp [textStop, hany]

end

/-! ### What stops an instruction at its memory operand -/

/-- Past stages 2 to 4 only the operand can stop an instruction (rule R130). -/
theorem stopOf_eq_operandStop {i : Instr} {s : State} (h : PastChecks i s) (kind : Access) :
    stopOf (formOf i) kind s = operandStop (formOf i) kind s := by
  obtain ⟨⟨hmode, hlen⟩, hdef, hts⟩ := h
  rw [length_encode] at hlen
  obtain ⟨henc, hfeat, hos⟩ := (noUndefined_iff i s.cfg).1 hdef
  simp [stopOf, modeStop, hmode, (lengthStop_none_iff _ s).2 hlen, udStop, henc, hfeat, hos, nmStop, hts]

/-- The stop of the access is the instruction's outcome. -/
theorem exec_of_accessStop {i : Instr} {m : MemOperand} {s : State} {st : Stop} (hpast : PastChecks i s)
    (hrm : rmOperand i = .mem m)
    (h : accessStop (operandAccess i) (operandAddr i m s) (operandBytes i) (enabledByte i s)
      (usesStack (formOf i) m) s = some st) : exec i s = st.out := by
  refine exec_of_stop ((stopOf_eq_operandStop hpast _).trans ?_)
  simp only [operandStop, formOf_rm, hrm, vlBytes_formOf]
  exact h

/-- Settles O19: alignment is checked first, of the operand and not of its enabled bytes. -/
theorem misalignedOperandRaisesGP : Obligations.MisalignedOperandRaisesGP := by
  intro i m s hpast hrm halign
  exact exec_of_accessStop hpast hrm (accessStop_misaligned halign)

/-- Settles O20: canonicality comes after alignment and before translation. -/
theorem nonCanonicalOperandRaises : Obligations.NonCanonicalOperandRaises := by
  intro i m s t hpast hrm halign ht hb hcan
  rw [exec_of_accessStop hpast hrm (accessStop_noncanonical halign ht hb hcan), raise_out]
  split <;> rfl

/-- Settles O22: Translate is asked from the lowest byte up. -/
theorem deniedByteRaisesPF : Obligations.DeniedByteRaisesPF := by
  intro i m s t code hpast hrm halign hcan ht hb hpage hbelow
  exact exec_of_accessStop hpast hrm (accessStop_denied halign hcan ht hb hpage hbelow)

/-- Settles O23: the address map is checked before the program text. -/
theorem unmappedOrTextOperandIsRefused : Obligations.UnmappedOrTextOperandIsRefused := by
  intro i m s t hpast hrm halign hbytes ht hb
  have hstop := accessStop_of_translated (stack := usesStack (formOf i) m) halign hbytes
  refine ⟨fun hmap => ?_, fun hmap hwrite htext => ?_⟩
  · exact exec_of_accessStop hpast hrm (hstop.trans (by rw [mapStop_unmapped ht hb hmap]; rfl))
  · refine exec_of_accessStop (st := .refuse .codeWrite) hpast hrm (hstop.trans ?_)
    rw [mapStop_mapped hmap, hwrite, textStop_text ht hb htext]
    rfl

/-! ### Loads and stores -/

/-- Only EVEX forms name a writemask (rules R87, R140). -/
theorem aaa_formOf_narrow {i : Instr} (h : (formOf i).cls ≠ .evex) : (formOf i).aaa = 0#3 := by
  cases i with
  | movapdLoad | movapdLoadRex | movapdStore | movapdStoreRex => rfl
  | vmovapdVex128LoadC5 | vmovapdVex128LoadC4 | vmovapdVex128StoreC5 | vmovapdVex128StoreC4
  | vmovapdVex256LoadC5 | vmovapdVex256LoadC4 | vmovapdVex256StoreC5 | vmovapdVex256StoreC4 => rfl
  | vmovapdEvex128Load | vmovapdEvex256Load | vmovapdEvex512Load
  | vmovapdEvex128Store | vmovapdEvex256Store | vmovapdEvex512Store => exact absurd rfl h

/-- Outside the EVEX class there is no writemask: every byte is enabled (rule R151). -/
theorem enabledByte_narrow {i : Instr} (h : (formOf i).cls ≠ .evex) (s : State) : enabledByte i s = allBytes := by
  funext t
  simp [enabledByte, byteMask, elemMask, aaa_formOf_narrow h]

/-- An operand has 8 bytes to an element (rule R150). -/
theorem operandBytes_eq (i : Instr) : operandBytes i = 8 * vlLanes (formOf i).vl := by
  cases i <;> rfl

theorem operandBytes_le (i : Instr) : operandBytes i ≤ 64 := by
  rw [← vlBytes_formOf]
  cases (formOf i).vl <;> decide

theorem rmSource_mem {i : Instr} {m : MemOperand} (h : rmOperand i = .mem m) (s : State) :
    rmSource (formOf i) s = memReadMasked s.mem (operandAddr i m s) (operandBytes i) (enabledByte i s) := by
  simp only [rmSource, formOf_rm, h, vlBytes_formOf]
  rfl

/-- A load with its enabled bytes accessible completes and writes the register ModRM.reg names (rules R116, R130). -/
theorem load_completes {i : Instr} {m : MemOperand} {s : State} (hload : operandAccess i = .read)
    (hrm : rmOperand i = .mem m) (hready : Ready i s)
    (hacc : Accessible .read (operandAddr i m s) (operandBytes i) (enabledByte i s) s) :
    CompletesWritingReg i s (regOperand i) fun j =>
      lane (destValue (formOf i) s (s.readV (regOperand i))
        (memReadMasked s.mem (operandAddr i m s) (operandBytes i) (enabledByte i s))) j := by
  obtain ⟨hpast, hrange⟩ := hready
  have hstop : stopOf (formOf i) (operandAccess i) s = none :=
    (stopOf_formOf_none_iff i _ s).2 ⟨hpast, fun m' hm' => by rw [hrm] at hm'; cases hm'; rwa [hload]⟩
  refine completesWritingReg_of_exec ((exec_next_iff i s _).2 ⟨hstop, (pcInRange_iff i s).1 hrange, .inl ⟨hload, ?_⟩⟩)
  rw [rmSource_mem hrm, regNum_formOf]

/-- A store with its enabled bytes accessible completes and writes them from the register ModRM.reg names (rules R116,
R130). -/
theorem store_completes {i : Instr} {m : MemOperand} {s : State} (hstore : operandAccess i = .write)
    (hrm : rmOperand i = .mem m) (hready : Ready i s) (hwf : Memory.wf s.mem = true)
    (hacc : Accessible .write (operandAddr i m s) (operandBytes i) (enabledByte i s) s) :
    CompletesWritingMem i s (operandAddr i m s) (operandBytes i) (enabledByte i s) (s.readV (regOperand i)) := by
  obtain ⟨hpast, hrange⟩ := hready
  have hsize := operandBytes_le i
  have hstop : stopOf (formOf i) (operandAccess i) s = none :=
    (stopOf_formOf_none_iff i _ s).2 ⟨hpast, fun m' hm' => by rw [hrm] at hm'; cases hm'; rwa [hstore]⟩
  have hexec := (exec_next_iff i s _).2 ⟨hstop, (pcInRange_iff i s).1 hrange,
    .inr (.inr ⟨m, hstore, (formOf_rm i).trans hrm, rfl⟩)⟩
  rw [vlBytes_formOf, regNum_formOf] at hexec
  refine ⟨_, hexec, ⟨?_, fun a ha => read_memWriteMasked_other _ _ _ _ _ ha⟩, fun u hu hb => ?_⟩
  · rw [length_encode]
  · exact readAt_memWriteMasked_self hwf _ (by omega) _ hu hb

/-- An element of a read without a mask: the 8 bytes there. -/
theorem lane_memRead (m : Memory) (addr : Word) {n j : Nat} (hn : n ≤ 64) (hj : 8 * j + 7 < n) :
    lane (memRead m addr n) j = quadAt m addr j :=
  lane_memReadMasked_enabled m addr hn _ hj fun _ _ => rfl

/-- A load outside the EVEX class puts the operand's elements under what its class keeps or clears (rules R132, R141,
R143). -/
theorem narrowLoad_completes {i : Instr} {m : MemOperand} {s : State} {d : BitVec 5} {kl : Nat}
    (hcls : (formOf i).cls ≠ .evex) (hload : operandAccess i = .read) (hrm : rmOperand i = .mem m)
    (hd : regOperand i = d) (hkl : vlLanes (formOf i).vl = kl) (hready : Ready i s)
    (hacc : Accessible .read (operandAddr i m s) (8 * kl) allBytes s) :
    CompletesWritingReg i s d fun j =>
      if j < kl then quadAt s.mem (operandAddr i m s) j
      else if (formOf i).cls = .legacy then lane (s.readV d) j else 0#64 := by
  subst hd hkl
  rw [← operandBytes_eq] at hacc
  have hbytes := enabledByte_narrow hcls s
  have hsize := operandBytes_le i
  refine (load_completes hload hrm hready (by rwa [hbytes])).congr fun j hj => ?_
  have hquad : j < vlLanes (formOf i).vl →
      lane (memReadMasked s.mem (operandAddr i m s) (operandBytes i) (enabledByte i s)) j =
        quadAt s.mem (operandAddr i m s) j := fun hlt => by
    rw [hbytes]
    exact lane_memRead s.mem _ hsize (by rw [operandBytes_eq]; omega)
  unfold destValue
  cases hc : (formOf i).cls with
  | legacy => exact (lane_keepAbove _ _ _ hj).trans (ite_congr rfl hquad fun _ => rfl)
  | vex => exact (lane_zeroAbove _ _ hj).trans (ite_congr rfl hquad fun _ => rfl)
  | evex => exact absurd hc hcls

/-- A store outside the EVEX class writes all its bytes (rules R133, R142, R144). -/
theorem narrowStore_completes {i : Instr} {m : MemOperand} {s : State} {r : BitVec 5} {n : Nat}
    (hcls : (formOf i).cls ≠ .evex) (hstore : operandAccess i = .write) (hrm : rmOperand i = .mem m)
    (hr : regOperand i = r) (hn : operandBytes i = n) (hready : Ready i s) (hwf : Memory.wf s.mem = true)
    (hacc : Accessible .write (operandAddr i m s) n allBytes s) :
    CompletesWritingMem i s (operandAddr i m s) n allBytes (s.readV r) := by
  subst hr hn
  have hcompletes := store_completes hstore hrm hready hwf (by rwa [enabledByte_narrow hcls s])
  rwa [enabledByte_narrow hcls s] at hcompletes

/-- Settles O29: both forms are legacy loads of two elements. -/
theorem legacyLoad : Obligations.LegacyLoad := by
  intro pre x reg m s i d hform hready hacc
  obtain ⟨rfl, rfl⟩ | ⟨rfl, rfl⟩ := hform <;>
  exact narrowLoad_completes (kl := 2) nofun rfl rfl rfl rfl hready hacc

/-- Settles O30: both forms are legacy stores. -/
theorem legacyStore : Obligations.LegacyStore := by
  intro pre x reg m s i r hform hready hwf hacc
  obtain ⟨rfl, rfl⟩ | ⟨rfl, rfl⟩ := hform <;>
  exact narrowStore_completes nofun rfl rfl rfl rfl hready hwf hacc

/-- Settles O33: each of the four forms is a VEX load of its vector length. -/
theorem vexLoad : Obligations.VexLoad := by
  intro pre v w reg m s i d kl hform hready hacc
  obtain ⟨rfl, rfl, rfl⟩ | ⟨rfl, rfl, rfl⟩ | ⟨rfl, rfl, rfl⟩ | ⟨rfl, rfl, rfl⟩ := hform <;>
  exact narrowLoad_completes nofun rfl rfl rfl rfl hready hacc

/-- Settles O34: each of the four forms is a VEX store of its vector length. -/
theorem vexStore : Obligations.VexStore := by
  intro pre v w reg m s i r n hform hready hwf hacc
  obtain ⟨rfl, rfl, rfl⟩ | ⟨rfl, rfl, rfl⟩ | ⟨rfl, rfl, rfl⟩ | ⟨rfl, rfl, rfl⟩ := hform <;>
  exact narrowStore_completes nofun rfl rfl rfl rfl hready hwf hacc

/-! ### What a load sees -/

/-- Memory that agrees on the enabled bytes is read alike (rule R54). -/
theorem memReadMasked_congr {m m' : Memory} {addr : Word} {n : Nat} {bm : Nat → Bool}
    (h : ∀ t, t < n → bm t = true → readAt m' addr t = readAt m addr t) :
    memReadMasked m' addr n bm = memReadMasked m addr n bm := by
  unfold memReadMasked
  refine congrArg joinBytes (List.map_congr_left fun t ht => ?_)
  split
  · next hb => exact h t (List.mem_range.1 ht) hb
  · rfl

/-- What stops an instruction does not depend on memory: no check reads a byte of it. -/
theorem stopOf_setMem (f : Form) (kind : Access) (s : State) (mem : Memory) :
    stopOf f kind { s with mem := mem } = stopOf f kind s := rfl

/-- Settles O40: of memory the moved value alone depends on it, and only through the enabled bytes. -/
theorem loadsReadOnlyEnabledBytes : Obligations.LoadsReadOnlyEnabledBytes := by
  intro i m s t mem' hload hrm hagree hexec
  have hread : operandAccess i = .read := by simpa [loadForm] using hload
  obtain ⟨hstop, hfits, ⟨-, rfl⟩ | ⟨rm, hwrite, -⟩ | ⟨m', hwrite, -⟩⟩ := (exec_next_iff i s t).1 hexec
  · refine (exec_next_iff i _ _).2 ⟨(stopOf_setMem _ _ s mem').trans hstop, hfits, .inl ⟨hread, ?_⟩⟩
    have hsource : rmSource (formOf i) { s with mem := mem' } = rmSource (formOf i) s := by
      rw [rmSource_mem hrm, rmSource_mem hrm]
      exact memReadMasked_congr hagree
    rw [hsource]
    rfl
  · simp [hread] at hwrite
  · simp [hread] at hwrite

/-- An enabled byte of a register destination is the source's (rule R23). -/
theorem byteOf_destValue (i : Instr) (s : State) (old src : Vec) {p : Nat} (hp : p < operandBytes i)
    (hb : enabledByte i s p = true) : byteOf (destValue (formOf i) s old src) p = byteOf src p := by
  have hlt : p / 8 < vlLanes (formOf i).vl := by rw [operandBytes_eq] at hp; omega
  have h8 : p / 8 < 8 := by have := operandBytes_le i; omega
  have hmask : elemMask (formOf i) s (p / 8) = true := hb
  refine byteOf_eq_of_lane ?_
  unfold destValue
  cases (formOf i).cls with
  | legacy => rw [lane_keepAbove _ _ _ h8, if_pos hlt]
  | vex => rw [lane_zeroAbove _ _ h8, if_pos hlt]
  | evex => rw [lane_blend _ _ _ _ _ h8, if_pos hlt, if_pos hmask]

/-- What a store that completes leaves in memory. -/
theorem store_mem {i : Instr} {m : MemOperand} {s t : State} (hstore : operandAccess i = .write)
    (hrm : rmOperand i = .mem m) (hexec : exec i s = .next t) :
    t.mem = memWriteMasked s.mem (operandAddr i m s) (operandBytes i) (s.readV (regOperand i)) (enabledByte i s) := by
  have hform : (formOf i).rm = .mem m := (formOf_rm i).trans hrm
  obtain ⟨-, -, ⟨hread, -⟩ | ⟨rm, -, hreg, -⟩ | ⟨m', -, hmem, rfl⟩⟩ := (exec_next_iff i s t).1 hexec
  · simp [hstore] at hread
  · cases hform.symm.trans hreg
  · obtain rfl : m = m' := RM.mem.inj (hform.symm.trans hmem)
    rw [vlBytes_formOf, regNum_formOf]
    rfl

/-- An enabled byte of the register a completed load wrote is the byte of memory (rule R160). -/
theorem load_byte {i : Instr} {m : MemOperand} {s t : State} (hload : loadForm i = true) (hrm : rmOperand i = .mem m)
    (hexec : exec i s = .next t) {p : Nat} (hp : p < operandBytes i) (hb : enabledByte i s p = true) :
    byteOf (t.readV (regOperand i)) p = readAt s.mem (operandAddr i m s) p := by
  have hread : operandAccess i = .read := by simpa [loadForm] using hload
  obtain ⟨-, -, ⟨-, rfl⟩ | ⟨rm, hwrite, -⟩ | ⟨m', hwrite, -⟩⟩ := (exec_next_iff i s t).1 hexec
  · rw [regNum_formOf, rmSource_mem hrm, readV_setPc, writeDest, readV_writeV_same, byteOf_destValue i s _ _ hp hb,
      byteOf_memReadMasked _ _ (operandBytes_le i) _ hp, if_pos hb]
  · simp [hread] at hwrite
  · simp [hread] at hwrite

/-- Settles O46: the load reads the memory the store left. -/
theorem loadSeesEarlierStore : Obligations.LoadSeesEarlierStore := by
  intro i j m m' s t u hwf hstore hrm hload hrm' hst htu p hp hb
  have hsize := operandBytes_le i
  rw [load_byte hload hrm' htu hp hb, store_mem hstore hrm hst]
  refine ⟨fun q hq hqb haddr => ?_, fun hnone => ?_⟩
  · exact readAt_memWriteMasked_at hwf (by omega) _ hq hqb haddr
  · exact readAt_memWriteMasked_other _ _ _ _ _ hnone

end Sys2Proof.Machine
end

section
/-!
PROOF. The decoder and the encoder are inverse to each other. What the decoder read is what the encoder writes, part by
part and class by class (`decode_instr`), so that an encoding decodes whatever follows it and no proper beginning of it
does. Then the bytes the decoder turns away: other instructions, unadmitted prefixes, undefined opcodes.
-/

namespace Sys2Proof

/-! ### The bytes that hold the decoder's fields -/

theorem prefixByte_of_prefixOf {b : Byte} {p : Prefix} (h : prefixOf b = some p) : prefixByte p = b := by
  have hall : ∀ b : Byte, ∀ p ∈ prefixOf b, prefixByte p = b := by decide
  exact hall b p h

/-- ModRM and SIB are their three fields (rules R84, R85). -/
theorem byte233_of_fields (b : Byte) : byte233 (b.extractLsb' 6 2) (b.extractLsb' 3 3) (b.extractLsb' 0 3) = b := by
  revert b
  decide

/-- The byte after C5h with pp = 01b is its fields (rule R89). -/
theorem vex2Byte_of_fields {b : Byte} (hpp : b.extractLsb' 0 2 = 1#2) :
    vex2Byte ⟨!b.getLsbD 7, b.extractLsb' 3 4⟩ (b.getLsbD 2) = b := by
  revert b
  decide

/-- The byte after C4h with mmmmm = 00001b is its fields (rule R88). -/
theorem vex3Byte1_of_fields {b : Byte} (w : Bool) (vvvv : BitVec 4) (hmap : b.extractLsb' 0 5 = 1#5) :
    vex3Byte1 ⟨!b.getLsbD 7, !b.getLsbD 6, !b.getLsbD 5, w, vvvv⟩ = b := by
  simp only [vex3Byte1]
  revert b
  decide

/-- The byte after that one, with pp = 01b, is its fields (rule R88). -/
theorem vex3Byte2_of_fields {c : Byte} (r x b : Bool) (hpp : c.extractLsb' 0 2 = 1#2) :
    vex3Byte2 ⟨r, x, b, c.getLsbD 7, c.extractLsb' 3 4⟩ (c.getLsbD 2) = c := by
  simp only [vex3Byte2]
  revert c
  decide

/-- The three bytes after 62h with mm = 01b, W = 1 and pp = 01b are their fields (rules R97 to R99). -/
theorem evexBytes_of_fields {p0 p1 : Byte} (p2 : Byte) (hmm : p0.extractLsb' 0 2 = 1#2)
    (hpp : p1.extractLsb' 0 2 = 1#2) (hw : p1.getLsbD 7 = true) :
    evexP0 (evexFields p0 p1 p2) = p0 ∧ evexP1 (evexFields p0 p1 p2) = p1 ∧
      evexP2 (evexFields p0 p1 p2) (p2.extractLsb' 5 2) = p2 := by
  simp only [evexP0, evexP1, evexP2, evexFields]
  refine ⟨?_, ?_, ?_⟩
  · clear hpp hw
    revert p0
    decide
  · clear hmm
    revert p1
    decide
  · clear hmm hpp hw
    revert p2
    decide

/-- The four bytes of a displacement (rule R86). -/
theorem bytesLe32_le32 (b0 b1 b2 b3 : Byte) : bytesLe32 (le32 b0 b1 b2 b3) = [b0, b1, b2, b3] := by
  have h0 : (b3 ++ b2 ++ b1 ++ b0).extractLsb' 0 8 = b0 := BitVec.extractLsb'_append_eq_right
  have h1 : (b3 ++ b2 ++ b1 ++ b0).extractLsb' 8 8 = b1 :=
    (BitVec.extractLsb'_append_eq_of_le (le_refl 8)).trans BitVec.extractLsb'_append_eq_right
  have h2 : (b3 ++ b2 ++ b1 ++ b0).extractLsb' 16 8 = b2 := by
    rw [BitVec.extractLsb'_append_eq_of_le (by decide), BitVec.extractLsb'_append_eq_of_le (by decide)]
    exact BitVec.extractLsb'_append_eq_right
  have h3 : (b3 ++ b2 ++ b1 ++ b0).extractLsb' 24 8 = b3 := by
    rw [BitVec.extractLsb'_append_eq_of_le (by decide), BitVec.extractLsb'_append_eq_of_le (by decide)]
    exact BitVec.extractLsb'_append_eq_left
  simp only [bytesLe32, le32, h0, h1, h2, h3]

/-! ### What was read is what the encoder writes -/

/-- The bytes are the prefixes scanned and what follows them (rule R117 step 1). -/
theorem map_prefixByte_scanPrefixes (bs : List Byte) :
    (scanPrefixes bs).1.map prefixByte ++ (scanPrefixes bs).2 = bs := by
  induction bs with
  | nil => rfl
  | cons b bs ih =>
    unfold scanPrefixes
    split
    · next p hp => simp [prefixByte_of_prefixOf hp, ih]
    · rfl

/-- The prefixes are those before the REX byte and the REX byte in the last place, if there is one (rule R82). -/
theorem splitRex_append (pre : List Prefix) : (splitRex pre).1 ++ (splitRex pre).2.toList.map .rex = pre := by
  induction pre using splitRex.induct with
  | case1 => rfl
  | case2 r => rfl
  | case3 p pre hlast ih =>
    rw [splitRex]
    · simp [ih]
    · exact hlast

theorem takeDisp32_some {bs : List Byte} {v : BitVec 32} (h : takeDisp32 bs = some v) : bytesLe32 v <+: bs := by
  match bs, h with
  | b0 :: b1 :: b2 :: b3 :: bs, h =>
    rw [← Option.some.inj h, bytesLe32_le32]
    exact List.prefix_append [b0, b1, b2, b3] bs

/-- A displacement is its bytes, and `mod` is the one that calls for it (rule R86). -/
theorem takeDisp_some {mod : BitVec 2} {bs : List Byte} {d : Disp} (h : takeDisp mod bs = some d) (hmod : mod ≠ 3#2) :
    dispMod d = mod ∧ dispBytes d <+: bs := by
  unfold takeDisp at h
  split_ifs at h with h0 h1
  · cases h
    exact ⟨h0.symm, List.nil_prefix⟩
  · cases bs with
    | nil => cases h
    | cons b bs =>
      cases h
      exact ⟨h1.symm, List.prefix_append [b] bs⟩
  · obtain ⟨v, hv, rfl⟩ := Option.map_eq_some_iff.1 h
    have hmod2 : ∀ m : BitVec 2, m ≠ 0#2 → m ≠ 1#2 → m ≠ 3#2 → 2#2 = m := by decide
    exact ⟨hmod2 mod h0 h1 hmod, takeDisp32_some hv⟩

/-- A memory operand behind ModRM.rm = 100b is SIB and what follows it (rules R85, R110). -/
theorem takeSib_some {mod : BitVec 2} {bs : List Byte} {m : MemOperand} (h : takeSib mod bs = some m)
    (hmod : mod ≠ 3#2) (reg : BitVec 3) :
    m.wf = true ∧ encodeModRM reg (.mem m) <+: byte233 mod reg 4#3 :: bs := by
  cases bs with
  | nil => cases h
  | cons sb bs =>
    simp only [takeSib] at h
    split_ifs at h with hbase
    · obtain ⟨rfl, h5⟩ := hbase
      obtain ⟨v, hv, rfl⟩ := Option.map_eq_some_iff.1 h
      have hsib := byte233_of_fields sb
      rw [h5] at hsib
      simp [MemOperand.wf, encodeModRM, hsib, takeDisp32_some hv]
    · obtain ⟨d, hd, rfl⟩ := Option.map_eq_some_iff.1 h
      obtain ⟨rfl, hbytes⟩ := takeDisp_some hd hmod
      rw [dispMod_eq_zero_iff, not_and] at hbase
      simpa [MemOperand.wf, encodeModRM, byte233_of_fields, hbytes, ← imp_iff_not_or] using hbase

/-- The r/m operand is well-formed, and its bytes stand behind ModRM (rules R84 to R86, R108). -/
theorem takeRM_some {mod : BitVec 2} {rm : BitVec 3} {bs : List Byte} {o : RM} (h : takeRM mod rm bs = some o)
    (reg : BitVec 3) : o.wf = true ∧ encodeModRM reg o <+: byte233 mod reg rm :: bs := by
  unfold takeRM at h
  split_ifs at h with h3 h4 hrip
  · cases h
    simp [RM.wf, encodeModRM, h3]
  · obtain ⟨m, hm, rfl⟩ := Option.map_eq_some_iff.1 h
    rw [h4]
    exact takeSib_some hm h3 reg
  · obtain ⟨v, hv, rfl⟩ := Option.map_eq_some_iff.1 h
    simp [RM.wf, MemOperand.wf, encodeModRM, hrip, takeDisp32_some hv]
  · obtain ⟨d, hd, rfl⟩ := Option.map_eq_some_iff.1 h
    obtain ⟨rfl, hbytes⟩ := takeDisp_some hd h3
    rw [dispMod_eq_zero_iff, not_and] at hrip
    simpa [RM.wf, MemOperand.wf, encodeModRM, h4, hbytes, ← imp_iff_not_or] using hrip

theorem takeModRM_some {bs : List Byte} {reg : BitVec 3} {rm : RM} (h : takeModRM bs = some (reg, rm)) :
    rm.wf = true ∧ encodeModRM reg rm <+: bs := by
  cases bs with
  | nil => cases h
  | cons b bs =>
    obtain ⟨o, ho, heq⟩ := Option.map_eq_some_iff.1 h
    obtain ⟨rfl, rfl⟩ := Prod.mk.inj heq
    have hrm := takeRM_some ho (b.extractLsb' 3 3)
    rwa [byte233_of_fields] at hrm

/-- An instruction decoded past ModRM comes of the operands whose bytes stand there. -/
theorem withModRM_some {bs : List Byte} {k : BitVec 3 → RM → Decoded} {i : Instr} (h : withModRM bs k = .instr i) :
    ∃ reg rm, (rm.wf = true ∧ encodeModRM reg rm <+: bs) ∧ k reg rm = .instr i := by
  unfold withModRM at h
  split at h
  · next reg rm hm => exact ⟨reg, rm, takeModRM_some hm, h⟩
  · cases h

/-! ### The classes, read backwards -/

/-- What the legacy class decodes to has its bytes behind the prefixes and REX (rules R82, R87). -/
theorem decodeLegacy_instr {pre : List Prefix} {rex : Option Rex} {bs : List Byte} {i : Instr}
    (h : decodeLegacy pre rex bs = .instr i) :
    i.wf = true ∧ encode i <+: (pre ++ rex.toList.map Prefix.rex).map prefixByte ++ 0x0F#8 :: bs := by
  cases bs with
  | nil => cases h
  | cons op bs =>
    simp only [decodeLegacy] at h
    split_ifs at h with hadm hop h28 h29
    all_goals
      obtain ⟨reg, rm, ⟨hrm, hbytes⟩, hk⟩ := withModRM_some h
      have hwf : legacyWf pre rm = true := by simp_all [legacyWf]
      subst op
      cases rex <;> cases hk <;>
        exact ⟨hwf, by simpa [encode, encodeLegacy, List.prefix_append_right_inj] using hbytes⟩

/-- Behind C5h stands the byte of the fields read from it (rules R89, R90). -/
theorem decodeVex2_instr {pre : List Prefix} {bs : List Byte} {i : Instr} (h : decodeVex2 pre bs = .instr i) :
    i.wf = true ∧ encode i <+: pre.map prefixByte ++ 0xC5#8 :: bs := by
  unfold decodeVex2 at h
  split at h
  · next b1 op bs =>
    dsimp only at h
    split_ifs at h with hadm hpp h28 hl h29 hl
    all_goals
      obtain ⟨reg, rm, ⟨hrm, hbytes⟩, hk⟩ := withModRM_some h
      have hwf : vexWf pre rm = true := by simp_all [vexWf]
      have hb1 := vex2Byte_of_fields (not_not.1 hpp)
      simp only [hl] at hb1
      subst op
      cases hk
      refine ⟨hwf, ?_⟩
      simpa [-BitVec.getLsbD_eq_getElem, encode, encodeVex2, hb1, List.prefix_append_right_inj] using hbytes
  · cases h

/-- Behind C4h stand the two bytes of the fields read from them (rules R88, R90). -/
theorem decodeVex3_instr {pre : List Prefix} {bs : List Byte} {i : Instr} (h : decodeVex3 pre bs = .instr i) :
    i.wf = true ∧ encode i <+: pre.map prefixByte ++ 0xC4#8 :: bs := by
  unfold decodeVex3 at h
  split at h
  · next b1 b2 op bs =>
    dsimp only at h
    split_ifs at h with hadm hmap h28 hl h29 hl
    all_goals
      obtain ⟨reg, rm, ⟨hrm, hbytes⟩, hk⟩ := withModRM_some h
      have hwf : vexWf pre rm = true := by simp_all [vexWf]
      rw [not_or, not_not, not_not] at hmap
      have hb1 := vex3Byte1_of_fields (b2.getLsbD 7) (b2.extractLsb' 3 4) hmap.1
      have hb2 := vex3Byte2_of_fields (!b1.getLsbD 7) (!b1.getLsbD 6) (!b1.getLsbD 5) hmap.2
      simp only [hl] at hb2
      subst op
      cases hk
      refine ⟨hwf, ?_⟩
      simpa [-BitVec.getLsbD_eq_getElem, encode, encodeVex3, hb1, hb2, List.prefix_append_right_inj] using hbytes
  · cases h

theorem evexListed_iff (p0 p1 op : Byte) :
    evexListed p0 p1 op = true ↔
      p0.extractLsb' 0 2 = 1#2 ∧ p1.extractLsb' 0 2 = 1#2 ∧ p1.getLsbD 7 = true ∧ (op = 0x28#8 ∨ op = 0x29#8) := by
  simp only [evexListed, Bool.and_eq_true, Bool.or_eq_true, beq_iff_eq, and_assoc]

/-- Outside the family the bytes behind 62h are an undefined opcode if the reserved fields are wrong, else unlisted
(rules R102, R117 step 4). -/
theorem decodeEvex_of_not_listed {pre : List Prefix} {p0 p1 op : Byte} (p2 : Byte) (rest : List Byte)
    (hadm : vexPrefixesAdmitted pre = true) (h : evexListed p0 p1 op = false) :
    decodeEvex pre (p0 :: p1 :: p2 :: op :: rest) =
      if evexReservedViolated p0 p1 then .ud (pre.length + 5) else .refuse .unlisted := by
  simp [decodeEvex, hadm, h]

/-- Prefixes that are not admitted before 62h are refused (rule R82). -/
theorem decodeEvex_of_not_admitted {pre : List Prefix} (p0 p1 p2 op : Byte) (rest : List Byte)
    (h : vexPrefixesAdmitted pre = false) : decodeEvex pre (p0 :: p1 :: p2 :: op :: rest) = .refuse .badPrefix := by
  simp [decodeEvex, h]

/-- The bytes behind 62h of an instruction have admitted prefixes before them and are of the family. -/
theorem decodeEvex_instr_listed {pre : List Prefix} {p0 p1 p2 op : Byte} {rest : List Byte} {i : Instr}
    (h : decodeEvex pre (p0 :: p1 :: p2 :: op :: rest) = .instr i) :
    vexPrefixesAdmitted pre = true ∧ evexListed p0 p1 op = true := by
  by_contra hnot
  cases hadm : vexPrefixesAdmitted pre with
  | false => simp [decodeEvex_of_not_admitted p0 p1 p2 op rest hadm] at h
  | true =>
    rw [decodeEvex_of_not_listed p2 rest hadm (by simpa [hadm] using hnot)] at h
    split at h <;> cases h

/-- Behind 62h stand the three bytes of the fields read from them (rules R96 to R100). -/
theorem decodeEvex_instr {pre : List Prefix} {bs : List Byte} {i : Instr} (h : decodeEvex pre bs = .instr i) :
    i.wf = true ∧ encode i <+: pre.map prefixByte ++ 0x62#8 :: bs := by
  match bs with
  | p0 :: p1 :: p2 :: op :: bs =>
    obtain ⟨hadm, hlisted⟩ := decodeEvex_instr_listed h
    obtain ⟨hmm, hpp, hw, hop⟩ := (evexListed_iff p0 p1 op).1 hlisted
    obtain ⟨hp0, hp1, hp2⟩ := evexBytes_of_fields p2 hmm hpp hw
    obtain rfl | rfl := hop
    all_goals
      simp only [decodeEvex, hadm, hlisted, not_true_eq_false, BitVec.reduceEq, if_true, if_false] at h
      obtain ⟨reg, rm, ⟨hrm, hbytes⟩, hk⟩ := withModRM_some h
      have hwf : vexWf pre rm = true := by simp [vexWf, hadm, hrm]
      split_ifs at hk with hll hll hll
      all_goals
        cases hk
        rw [hll] at hp2
        exact ⟨hwf, by simpa [encode, encodeEvex, hp0, hp1, hp2, List.prefix_append_right_inj] using hbytes⟩

/-- Bytes that decode to an instruction begin with its encoding, and it is well-formed (rules R80 to R117). -/
theorem decode_instr {bs : List Byte} {i : Instr} (h : decode bs = .instr i) : i.wf = true ∧ encode i <+: bs := by
  have hscan := map_prefixByte_scanPrefixes bs
  rw [decode] at h
  generalize (scanPrefixes bs).1 = pre at h hscan
  generalize (scanPrefixes bs).2 = rest at h hscan
  subst hscan
  cases rest with
  | nil => cases h
  | cons b rest =>
    simp only [decodeClass] at h
    split_ifs at h with h0F hC5 hC4 h62
    · have hlegacy := decodeLegacy_instr h
      rwa [splitRex_append, ← h0F] at hlegacy
    · exact hC5 ▸ decodeVex2_instr h
    · exact hC4 ▸ decodeVex3_instr h
    · exact h62 ▸ decodeEvex_instr h

/-! ### Decoding and encoding -/

/-- Settles O1: the encoding decodes to its instruction, and more bytes change nothing. -/
theorem decodeEncodeRoundTrip : Obligations.DecodeEncodeRoundTrip := by
  intro i rest hwf
  have hdec := decode_encode hwf
  rw [decode_append rest (by simp [hdec]), hdec]

/-- Settles O2: the bytes are read backwards, part by part. -/
theorem decodedBytesBeginWithEncoding : Obligations.DecodedBytesBeginWithEncoding := by
  intro bs i hdec
  obtain ⟨hwf, rest, hbytes⟩ := decode_instr hdec
  exact ⟨hwf, rest, hbytes.symm⟩

/-- Settles O54: a beginning that were no mere beginning would decode to the instruction itself, and so hold all of
its bytes. -/
theorem encodingBeginningsAreShort : Obligations.EncodingBeginningsAreShort := by
  intro i n hwf hn
  by_contra hlong
  have hdec : decode ((encode i).take n) = .instr i := by
    rw [← decode_append ((encode i).drop n) hlong, List.take_append_drop, decode_encode hwf]
  have hle := (decode_instr hdec).2.length_le
  rw [List.length_take] at hle
  omega

/-- Settles O3: each word is decoded byte by byte. -/
theorem sampleEncodingsDecode : Obligations.SampleEncodingsDecode := by
  refine ⟨?_, ?_, ?_, ?_⟩ <;> rfl

/-! ### Bytes that are no instruction -/

theorem decode_class0F (pre : List Prefix) (rest : List Byte) :
    decode (pre.map prefixByte ++ 0x0F#8 :: rest) = decodeLegacy (splitRex pre).1 (splitRex pre).2 rest :=
  decode_encoded_prefixes pre rfl rest

theorem decode_classC5 (pre : List Prefix) (rest : List Byte) :
    decode (pre.map prefixByte ++ 0xC5#8 :: rest) = decodeVex2 pre rest :=
  decode_encoded_prefixes pre rfl rest

theorem decode_classC4 (pre : List Prefix) (rest : List Byte) :
    decode (pre.map prefixByte ++ 0xC4#8 :: rest) = decodeVex3 pre rest :=
  decode_encoded_prefixes pre rfl rest

theorem decode_class62 (pre : List Prefix) (rest : List Byte) :
    decode (pre.map prefixByte ++ 0x62#8 :: rest) = decodeEvex pre rest :=
  decode_encoded_prefixes pre rfl rest

/-- Admitted legacy prefixes hold no REX byte: the one in the last place has been split off (rule R82). -/
theorem rex_not_mem_of_admitted {pre : List Prefix} (h : legacyPrefixesAdmitted pre = true) (r : Rex) :
    .rex r ∉ pre := by
  intro hmem
  simp only [legacyPrefixesAdmitted, Bool.and_eq_true, List.all_eq_true] at h
  exact absurd (h.1 _ hmem) (by simp [Prefix.legacyAdmitted])

theorem decodeLegacy_unlisted {pre : List Prefix} (rex : Option Rex) {op : Byte} (rest : List Byte)
    (hadm : legacyPrefixesAdmitted pre = true) (h : .opSize ∉ pre ∨ op ≠ 0x28#8 ∧ op ≠ 0x29#8) :
    decodeLegacy pre rex (op :: rest) = .refuse .unlisted := by
  obtain hop | ⟨h28, h29⟩ := h
  · simp [decodeLegacy, hadm, hop]
  · simp [decodeLegacy, hadm, h28, h29]

theorem decodeVex2_unlisted {pre : List Prefix} {a op : Byte} (rest : List Byte)
    (hadm : vexPrefixesAdmitted pre = true) (h : a.extractLsb' 0 2 ≠ 1#2 ∨ op ≠ 0x28#8 ∧ op ≠ 0x29#8) :
    decodeVex2 pre (a :: op :: rest) = .refuse .unlisted := by
  obtain hpp | ⟨h28, h29⟩ := h
  · simp [decodeVex2, hadm, hpp]
  · simp [decodeVex2, hadm, h28, h29]

theorem decodeVex3_unlisted {pre : List Prefix} {a b op : Byte} (rest : List Byte)
    (hadm : vexPrefixesAdmitted pre = true)
    (h : a.extractLsb' 0 5 ≠ 1#5 ∨ b.extractLsb' 0 2 ≠ 1#2 ∨ op ≠ 0x28#8 ∧ op ≠ 0x29#8) :
    decodeVex3 pre (a :: b :: op :: rest) = .refuse .unlisted := by
  obtain hmap | hpp | ⟨h28, h29⟩ := h
  · simp [decodeVex3, hadm, hmap]
  · simp [decodeVex3, hadm, hpp]
  · simp [decodeVex3, hadm, h28, h29]

/-- P0, P1 and the opcode are outside the family as soon as one of their fields is (rules R100, R107). -/
theorem evexListed_eq_false {p0 p1 op : Byte}
    (h : p0.extractLsb' 0 2 ≠ 1#2 ∨ p1.extractLsb' 0 2 ≠ 1#2 ∨ p1.getLsbD 7 = false ∨ op ≠ 0x28#8 ∧ op ≠ 0x29#8) :
    evexListed p0 p1 op = false := by
  rw [Bool.eq_false_iff, ne_eq, evexListed_iff]
  rintro ⟨hmm, hpp, hw, hop⟩
  obtain h | h | h | ⟨h28, h29⟩ := h
  · exact h hmm
  · exact h hpp
  · cases h.symm.trans hw
  · exact hop.elim h28 h29

theorem evexReservedViolated_iff (p0 p1 : Byte) :
    evexReservedViolated p0 p1 = true ↔
      p0.extractLsb' 2 2 ≠ 0#2 ∨ p1.getLsbD 2 = false ∨ p0.extractLsb' 0 2 = 0#2 := by
  simp only [evexReservedViolated, Bool.or_eq_true, bne_iff_ne, beq_iff_eq, Bool.not_eq_true', or_assoc]

/-- Settles O4: in each class the fields that tell its rows come after the prefixes and before ModRM. -/
theorem otherInstructionsAreUnlisted : Obligations.OtherInstructionsAreUnlisted := by
  intro pre x a b c op rest
  refine ⟨fun hadm h => ⟨?_, ?_⟩, fun hadm h => ?_, fun hadm h => ?_, fun hadm hres hmm hfix h => ?_, fun hp hcls => ?_⟩
  · rw [decode_class0F, splitRex_of_no_rex (rex_not_mem_of_admitted hadm)]
    exact decodeLegacy_unlisted none rest hadm h
  · have hbytes : pre.map prefixByte ++ prefixByte (.rex x) :: 0x0F#8 :: op :: rest =
        (pre ++ [Prefix.rex x]).map prefixByte ++ 0x0F#8 :: op :: rest := by simp
    rw [hbytes, decode_class0F, splitRex_append_rex]
    exact decodeLegacy_unlisted (some x) rest hadm h
  · exact (decode_classC5 pre _).trans (decodeVex2_unlisted rest hadm h)
  · exact (decode_classC4 pre _).trans (decodeVex3_unlisted rest hadm h)
  · have hsound : ¬ evexReservedViolated a b = true := by
      rw [evexReservedViolated_iff, hfix]
      simp [hres, hmm]
    rw [decode_class62, decodeEvex_of_not_listed c rest hadm (evexListed_eq_false h), if_neg hsound]
  · rw [decode_encoded_prefixes pre hp]
    simp only [List.mem_cons, List.not_mem_nil, or_false, not_or] at hcls
    obtain ⟨h0F, hC5, hC4, h62⟩ := hcls
    simp [decodeClass, h0F, hC5, hC4, h62]

/-! ### Prefix sequences that are not admitted -/

theorem decodeLegacy_of_not_admitted {pre : List Prefix} (rex : Option Rex) (op : Byte) (rest : List Byte)
    (h : legacyPrefixesAdmitted pre = false) : decodeLegacy pre rex (op :: rest) = .refuse .badPrefix := by
  simp [decodeLegacy, h]

/-- The three VEX and EVEX class bytes are refused alike behind prefixes that are not admitted there (rule R82). -/
theorem decodeVexEvex_of_not_admitted {pre : List Prefix} (a b c op : Byte) (rest : List Byte)
    (h : vexPrefixesAdmitted pre = false) :
    decodeVex2 pre (a :: op :: rest) = .refuse .badPrefix ∧
      decodeVex3 pre (a :: b :: op :: rest) = .refuse .badPrefix ∧
      decodeEvex pre (a :: b :: c :: op :: rest) = .refuse .badPrefix :=
  ⟨by simp [decodeVex2, h], by simp [decodeVex3, h], decodeEvex_of_not_admitted a b c op rest h⟩

/-- One byte that is not admitted, or a second segment override, and the sequence is not (rule R82). -/
theorem legacyPrefixesAdmitted_eq_false {pre : List Prefix}
    (h : (∃ p ∈ pre, p.legacyAdmitted = false) ∨ 2 ≤ pre.countP Prefix.isSeg) : legacyPrefixesAdmitted pre = false := by
  obtain ⟨p, hmem, hp⟩ | hseg := h
  · simp only [legacyPrefixesAdmitted, Bool.and_eq_false_iff]
    exact .inl (List.all_eq_false.2 ⟨p, hmem, by simp [hp]⟩)
  · have hnot : ¬ pre.countP Prefix.isSeg ≤ 1 := by omega
    simp [legacyPrefixesAdmitted, hnot]

/-- A second segment override or a second 67h, and the sequence is not admitted before VEX and EVEX (rule R82). -/
theorem vexPrefixesAdmitted_eq_false {pre : List Prefix}
    (h : 2 ≤ pre.countP Prefix.isSeg ∨ 2 ≤ pre.countP (· == .addrSize)) : vexPrefixesAdmitted pre = false := by
  simp only [vexPrefixesAdmitted, Bool.and_eq_false_iff, decide_eq_false_iff_not]
  omega

/-- Any byte before 0Fh other than REX is still there when the REX byte is split off. -/
theorem mem_splitRex {pre : List Prefix} {p : Prefix} (h : p ∈ pre) (hp : p.isRex = false) : p ∈ (splitRex pre).1 := by
  rw [← splitRex_append pre, List.mem_append] at h
  refine h.resolve_right fun hrex => ?_
  obtain ⟨r, -, rfl⟩ := List.mem_map.1 hrex
  cases hp

theorem countP_isSeg_splitRex (pre : List Prefix) : (splitRex pre).1.countP Prefix.isSeg = pre.countP Prefix.isSeg := by
  conv_rhs => rw [← splitRex_append pre]
  cases (splitRex pre).2 <;> simp [Prefix.isSeg]

/-- A REX byte before another byte of the sequence is not the one split off. -/
theorem rex_mem_splitRex (pre' : List Prefix) (x : Rex) (p : Prefix) (pre : List Prefix) :
    .rex x ∈ (splitRex (pre' ++ .rex x :: p :: pre)).1 := by
  induction pre' with
  | nil => simp [splitRex]
  | cons q pre' ih =>
    rw [List.cons_append, splitRex]
    · exact List.mem_cons_of_mem _ ih
    · simp

/-- Settles O5: whether the prefixes are admitted is decided first in every class. -/
theorem unadmittedPrefixesAreRefused : Obligations.UnadmittedPrefixesAreRefused := by
  intro pre pre' x p a b c op rest
  refine ⟨fun h => ?_, ?_, fun h => ?_⟩
  · rw [decode_class0F]
    refine decodeLegacy_of_not_admitted _ op rest (legacyPrefixesAdmitted_eq_false ?_)
    obtain hrep | hrepne | hseg := h
    · exact .inl ⟨.rep, mem_splitRex hrep rfl, rfl⟩
    · exact .inl ⟨.repne, mem_splitRex hrepne rfl, rfl⟩
    · exact .inr ((countP_isSeg_splitRex pre).symm ▸ hseg)
  · rw [decode_class0F]
    refine decodeLegacy_of_not_admitted _ op rest (legacyPrefixesAdmitted_eq_false ?_)
    exact .inl ⟨.rex x, rex_mem_splitRex pre' x p pre, rfl⟩
  · obtain ⟨hvex2, hvex3, hevex⟩ := decodeVexEvex_of_not_admitted a b c op rest (vexPrefixesAdmitted_eq_false h)
    exact ⟨(decode_classC5 pre _).trans hvex2, (decode_classC4 pre _).trans hvex3, (decode_class62 pre _).trans hevex⟩

/-! ### Undefined opcodes -/

/-- L'L = 11b selects no row of the family: an undefined opcode once its bytes are there (rule R102). -/
theorem decodeEvex_of_ll_three {pre : List Prefix} {p0 p1 p2 op : Byte} {rest : List Byte} {reg : BitVec 3} {rm : RM}
    (hadm : vexPrefixesAdmitted pre = true) (hll : p2.extractLsb' 5 2 = 3#2) (hlisted : evexListed p0 p1 op = true)
    (hrm : takeModRM rest = some (reg, rm)) :
    decodeEvex pre (p0 :: p1 :: p2 :: op :: rest) = .ud (evexLen pre rm) := by
  simp [decodeEvex, hadm, hlisted, hll, withModRM, hrm]

end Sys2Proof
end

section
/-!
PROOF. What an instruction does before and at its operands: the stops that come before any operand (length and #UD),
the segment and the address of a memory operand, and the copies, loads and equivalences of the three classes, from one
equation for every instruction (`exec_eq_moved`).
-/

namespace Sys2Proof.Machine

/-! ### Undefined opcodes -/

/-- A condition of rules R174 to R179 raises #UD once stages 1 and 2 let the instruction through. -/
theorem exec_ud_of_undefined {i : Instr} {s : State} (hadm : Admitted i s) (h : ¬ NoUndefined i s.cfg) :
    exec i s = .fault (.ud s.pc) :=
  exec_ud_of_not_sound hadm fun hsound => h ((noUndefined_iff i s.cfg).2 hsound)

theorem evexFieldsSound_of_evexSound {vl : VL} {store : Bool} {pre : List Prefix} {e : Evex} {rm : RM} {c : Config}
    (h : EvexSound vl store pre e rm c) : EvexFieldsSound e := by
  obtain ⟨-, hfields, -⟩ := h
  exact hfields

/-- Each of the six EVEX rows raises #UD where a field is not at its one value (rules R102, R105). -/
theorem evexRows_ud {e : Evex} (he : ¬ EvexFieldsSound e) (pre : List Prefix) (reg : BitVec 3) (rm : RM) (s : State) :
    ∀ i ∈ [Instr.vmovapdEvex128Load pre e reg rm, .vmovapdEvex256Load pre e reg rm,
        .vmovapdEvex512Load pre e reg rm, .vmovapdEvex128Store pre e reg rm, .vmovapdEvex256Store pre e reg rm,
        .vmovapdEvex512Store pre e reg rm],
      Admitted i s → exec i s = .fault (.ud s.pc) := by
  have hud {vl : VL} {store : Bool} : ¬ EvexSound vl store pre e rm s.cfg := fun h =>
    he (evexFieldsSound_of_evexSound h)
  simp only [List.forall_mem_cons, List.not_mem_nil, false_imp_iff, implies_true, and_true]
  refine ⟨?_, ?_, ?_, ?_, ?_, ?_⟩ <;> exact fun hadm => exec_ud_of_undefined hadm hud

/-- Settles O13: `vvvv` = 1111b is among the conditions of every VEX and EVEX form. -/
theorem vvvvNotOnesRaisesUD : Obligations.VvvvNotOnesRaisesUD := by
  intro pre v w e reg rm s
  have hvex {vvvv : BitVec 4} (hv : vvvv ≠ 15#4) : ¬ VexSound pre vvvv s.cfg := fun ⟨_, hones, _⟩ => hv hones
  refine ⟨fun hv => ?_, fun hw => ?_, fun he => evexRows_ud (fun ⟨hones, _⟩ => he hones) pre reg rm s⟩
  · simp only [List.forall_mem_cons, List.not_mem_nil, false_imp_iff, implies_true, and_true]
    refine ⟨?_, ?_, ?_, ?_⟩ <;> exact fun hadm => exec_ud_of_undefined hadm (hvex hv)
  · simp only [List.forall_mem_cons, List.not_mem_nil, false_imp_iff, implies_true, and_true]
    refine ⟨?_, ?_, ?_, ?_⟩ <;> exact fun hadm => exec_ud_of_undefined hadm (hvex hw)

/-! ### The move of every instruction -/

/-- The state with an instruction's effects but the advance of the pc: its three moves, by opcode and r/m operand
(rules R116, R130 stages 6 and 7). -/
def moved (f : Form) (kind : Access) (s : State) : State :=
  if kind = .read then writeDest f (regNum f.ext f.reg) (rmSource f s) s
  else
    match f.rm with
    | .reg rm => writeDest f (rmNum f.cls f.ext rm) (s.readV (regNum f.ext f.reg)) s
    | .mem m =>
      { s with
        mem := memWriteMasked s.mem (linearAddr f m s) (vlBytes f.vl) (s.readV (regNum f.ext f.reg)) (byteMask f s) }

/-- An instruction is its stop, if it has one, and else its move and the advance of the pc (rule R130). -/
theorem exec_eq_moved (i : Instr) (s : State) :
    exec i s =
      (stopOf (formOf i) (operandAccess i) s).elim
        (advance (formOf i).len (moved (formOf i) (operandAccess i) s)) Stop.out := by
  rw [exec_eq_move]
  by_cases hread : operandAccess i = .read
  · rw [if_pos hread, hread, moveToReg]
    cases stopOf (formOf i) .read s <;> rfl
  · rw [if_neg hread, (operandAccess_eq_write_iff i).2 hread, moveFromReg]
    cases stopOf (formOf i) .write s with
    | some st => rfl
    | none => simp only [Option.elim_none, moved, reduceCtorEq, if_false]; cases (formOf i).rm <;> rfl

@[simp] theorem moved_pc (f : Form) (kind : Access) (s : State) : (moved f kind s).pc = s.pc := by
  unfold moved
  split
  · rfl
  · split <;> rfl

/-- An instruction that completes leaves its move, with the pc past it. -/
theorem eq_moved_of_exec_next {i : Instr} {s t : State} (h : exec i s = .next t) :
    t = { moved (formOf i) (operandAccess i) s with pc := s.pc + BitVec.ofNat 64 (formOf i).len } := by
  rw [exec_eq_moved] at h
  cases hstop : stopOf (formOf i) (operandAccess i) s with
  | some st =>
    rw [hstop] at h
    exact absurd h (out_ne_next st t)
  | none =>
    rw [hstop, Option.elim_none, advance_next_iff, moved_pc] at h
    exact h.2

/-- A fault of an instruction is one of its stops: the move and the advance of the pc raise none. -/
theorem stopOf_of_exec_fault {i : Instr} {s : State} {f : Fault} (h : exec i s = .fault f) :
    stopOf (formOf i) (operandAccess i) s = some (.fault f) := by
  rw [exec_eq_moved] at h
  cases hstop : stopOf (formOf i) (operandAccess i) s with
  | some st =>
    rw [hstop] at h
    cases st <;> cases h
    rfl
  | none =>
    rw [hstop, Option.elim_none, advance] at h
    split at h <;> cases h

/-! ### #UD exactly when -/

/-- No check of a memory operand raises #UD (rule R185 (5) to (8)). -/
theorem accessStop_ne_ud (kind : Access) (addr : Word) (n : Nat) (bm : Nat → Bool) (stack : Bool) (s : State)
    (p : Word) : accessStop kind addr n bm stack s ≠ some (.fault (.ud p)) := by
  intro h
  simp only [accessStop, Option.orElse_eq_orElse, Option.orElse_eq_or, Option.or_eq_some_iff] at h
  obtain h | ⟨-, h | ⟨-, h | ⟨-, h | ⟨-, h⟩⟩⟩⟩ := h
  · unfold alignStop at h; split at h <;> cases h
  · unfold canonicalStop at h; split at h <;> cases stack <;> cases h
  · obtain ⟨e, -, he⟩ := Option.map_eq_some_iff.1 h; cases he
  · unfold mapStop at h; split at h <;> cases h
  · unfold textStop at h; split at h <;> cases h

theorem operandStop_ne_ud (f : Form) (kind : Access) (s : State) (p : Word) :
    operandStop f kind s ≠ some (.fault (.ud p)) := by
  unfold operandStop
  split
  · nofun
  · exact accessStop_ne_ud _ _ _ _ _ _ p

/-- With TS set an instruction that no #UD condition stops raises #NM (rule R180). -/
theorem exec_nm {i : Instr} {s : State} (hadm : Admitted i s) (hdef : NoUndefined i s.cfg) (hts : s.cfg.ts = true) :
    exec i s = .fault (.nm s.pc) := by
  obtain ⟨hmode, hlen⟩ := hadm
  rw [length_encode] at hlen
  obtain ⟨henc, hfeat, hos⟩ := (noUndefined_iff i s.cfg).1 hdef
  refine exec_of_stop (st := raise .nm s) ?_
  simp [stopOf, modeStop, hmode, (lengthStop_none_iff _ s).2 hlen, udStop, henc, hfeat, hos, nmStop, hts]

/-- Settles O14: past stage 3 an instruction raises #NM, or what its operand raises. -/
theorem undefinedOpcodeExactlyWhen : Obligations.UndefinedOpcodeExactlyWhen := by
  refine fun i s hadm => ⟨fun hud hdef => ?_, exec_ud_of_undefined hadm⟩
  cases hts : s.cfg.ts with
  | true => simp [exec_nm hadm hdef hts] at hud
  | false =>
    have hstop := stopOf_of_exec_fault hud
    rw [stopOf_eq_operandStop ⟨hadm, hdef, hts⟩] at hstop
    exact operandStop_ne_ud _ _ _ _ hstop

/-- The bytes of an undefined opcode: #GP(0) for more than 15, else #UD (rules R115, R185). -/
theorem step_of_decode_ud {s : State} {n : Nat} (hmode : s.cfg.mode = .long64) (hend : s.cfg.endAddr ≠ some s.pc)
    (hdec : decode (fetchBytes s).1 = .ud n) : step s = (undefinedStop n s).out := by
  simp [step, stepStop_none hmode hend, fetchDecode, hdec]

/-- Settles O16: the rows raise #UD at stage 3, the decoder's undefined opcodes once they are fetched. -/
theorem reservedEvexFieldsRaiseUD : Obligations.ReservedEvexFieldsRaiseUD := by
  refine ⟨fun pre e reg rm s hbad => ?_, fun pre p0 p1 p2 op rest reg rm hadm => ⟨fun hmm => ?_, fun hres hunl => ?_,
    fun hll hlisted hrm => ?_⟩, fun s n hmode hend hdec => ?_⟩
  · refine evexRows_ud (fun ⟨hvvvv, hvHi, hp0Res, hp1Fix, _⟩ => ?_) pre reg rm s
    simp [hvvvv, hvHi, hp0Res, hp1Fix] at hbad
  · have hunl : evexListed p0 p1 op = false := evexListed_eq_false (.inl (by simp [hmm]))
    rw [decode_class62, decodeEvex_of_not_listed p2 rest hadm hunl,
      if_pos ((evexReservedViolated_iff p0 p1).2 (.inr (.inr hmm)))]
  · rw [decode_class62, decodeEvex_of_not_listed p2 rest hadm hunl,
      if_pos ((evexReservedViolated_iff p0 p1).2 (hres.imp_right .inl))]
  · rw [decode_class62, decodeEvex_of_ll_three hadm hll hlisted hrm]
    rfl
  · rw [step_of_decode_ud hmode hend hdec, undefinedStop, maxLength]
    split <;> rfl

/-! ### Instructions that are too long -/

/-- Settles O17: stage 2 comes right after the mode and the fetch. -/
theorem longInstructionRaisesGP : Obligations.LongInstructionRaisesGP := by
  intro i s hmode hlen
  have hexec : exec i s = .fault (.gp 0 s.pc) := by
    rw [length_encode] at hlen
    refine exec_of_stop (st := raise (.gp 0) s) ?_
    simp [stopOf, modeStop, hmode, lengthStop, maxLength, Nat.not_le.2 hlen]
  exact ⟨fun hwf hend hbs => (stepRunsEncodedInstruction s i hmode hend hwf hbs).trans hexec, hexec⟩

/-! ### The segment and the address of a memory operand -/

@[simp] theorem formOf_pre (i : Instr) : (formOf i).pre = prefixesOf i := by cases i <;> rfl

/-- The numbers of the base and the index register, from B and X (rules R108, R110). -/
theorem baseNum_formOf (i : Instr) (rm : BitVec 3) : baseNum (formOf i).ext rm = BitVec.ofBool (baseExt i) ++ rm := by
  cases i <;> rfl

theorem indexNum_formOf (i : Instr) (ix : BitVec 3) :
    indexNum (formOf i).ext ix = BitVec.ofBool (indexExt i) ++ ix := by
  cases i <;> rfl

/-- RSP and RBP are the registers 4 and 5, whose numbers' high bit is 0. -/
theorem stackBase_iff (b : Bool) (rm : BitVec 3) :
    (BitVec.ofBool b ++ rm = 4#4 ∨ BitVec.ofBool b ++ rm = 5#4) ↔ b = false ∧ (rm = 4#3 ∨ rm = 5#3) := by
  revert b rm
  decide

/-- Settles O21: the segment is decided by the overrides and then by the base register's number. -/
theorem stackSegmentForms : Obligations.StackSegmentForms := by
  intro i rm d sc ix d32
  refine ⟨fun hover m => ?_, fun hfs hgs => ?_⟩
  · have hfsgs : fsGsOverride (formOf i) = true := by simpa [fsGsOverride] using hover
    simp [usesStack, hfsgs]
  · have hfsgs : fsGsOverride (formOf i) = false := by simp [fsGsOverride, hfs, hgs]
    refine ⟨?_, ?_, ?_, ?_⟩
    · simp [usesStack, hfsgs, baseOf, baseNum_formOf, stackBase_iff]
    · simp [usesStack, hfsgs, baseOf, baseNum_formOf, stackBase_iff]
    · simp [usesStack, baseOf]
    · simp [usesStack, baseOf]

/-- The segment base, in the terms of the statements (rule R112). -/
theorem segBase_formOf {i : Instr} {s : State} {seg : Word}
    (h : (.seg .fs ∈ prefixesOf i ∧ seg = s.fsBase) ∨
      (.seg .fs ∉ prefixesOf i ∧ .seg .gs ∈ prefixesOf i ∧ seg = s.gsBase) ∨
      (.seg .fs ∉ prefixesOf i ∧ .seg .gs ∉ prefixesOf i ∧ seg = 0#64)) : segBase (formOf i) s = seg := by
  obtain ⟨hfs, rfl⟩ | ⟨hfs, hgs, rfl⟩ | ⟨hfs, hgs, rfl⟩ := h <;> simp [segBase, *]

theorem twoPow_eq_ofNat (n : Nat) : BitVec.twoPow 64 n = BitVec.ofNat 64 (2 ^ n) :=
  BitVec.eq_of_toNat_eq (by simp [BitVec.toNat_twoPow])

/-- The index register times the scale, or 0 where there is no index (rule R110). -/
theorem indexVal_formOf (i : Instr) (s : State) (sc : BitVec 2) (ix : BitVec 3) :
    indexVal s (formOf i).ext sc ix =
      if BitVec.ofBool (indexExt i) ++ ix = 4#4 then 0#64
      else s.readX (BitVec.ofBool (indexExt i) ++ ix) * BitVec.ofNat 64 (2 ^ sc.toNat) := by
  rw [indexVal, indexNum_formOf, BitVec.shiftLeft_eq_mul_twoPow, twoPow_eq_ofNat]

/-- disp8 is scaled by the operand's size in the EVEX class only (rule R111). -/
theorem dispVal_d8_formOf (i : Instr) (v : BitVec 8) :
    dispVal (formOf i).cls (formOf i).vl (.d8 v) =
      if narrowForm i then v.signExtend 64 else v.signExtend 64 * BitVec.ofNat 64 (operandBytes i) := by
  rw [dispVal, vlBytes_formOf]
  cases hn : narrowForm i with
  | true => exact if_neg ((narrowForm_iff i).1 hn)
  | false => exact if_pos (by by_contra hcls; simp [(narrowForm_iff i).2 hcls] at hn)

/-- Settles O42: the cases of the effective address, with the segment base added. -/
theorem addressOfEachForm : Obligations.AddressOfEachForm := by
  intro i s rm ix sc d8 d32 seg haddr hseg base index disp8
  have heff : ∀ m, operandAddr i m s = seg + effectiveAddr64 (formOf i) m s := fun m => by
    simp [operandAddr, linearAddr, effectiveAddr, haddr, segBase_formOf hseg]
  have hbase : s.readX (baseNum (formOf i).ext rm) = base := by rw [baseNum_formOf]
  have hindex : indexVal s (formOf i).ext sc ix = index := indexVal_formOf i s sc ix
  have hdisp8 : dispVal (formOf i).cls (formOf i).vl (.d8 d8) = disp8 := dispVal_d8_formOf i d8
  have hnone : dispVal (formOf i).cls (formOf i).vl .none = 0#64 := rfl
  have hd32 : dispVal (formOf i).cls (formOf i).vl (.d32 d32) = d32.signExtend 64 := rfl
  simp only [heff, effectiveAddr64, hbase, hindex, hdisp8, hnone, hd32, nextPc, length_encode, BitVec.add_zero,
    and_self]

/-- The low 32 bits of a sign-extended displacement are the displacement sign-extended to 32 bits. -/
theorem setWidth_signExtend {w : Nat} (v : BitVec w) : (v.signExtend 64).setWidth 32 = v.signExtend 32 := by
  apply BitVec.eq_of_getLsbD_eq
  intro i hi
  have h64 : i < 64 := by omega
  simp only [BitVec.getLsbD_setWidth, BitVec.getLsbD_signExtend, hi, h64, decide_true, Bool.true_and]

/-- Settles O43: the low 32 bits of a sum of products are the sum of the products of the low 32 bits. -/
theorem addressSizePrefixUsesLow32Bits : Obligations.AddressSizePrefixUsesLow32Bits := by
  intro i s rm ix sc d d32 seg haddr hseg base index disp next
  have heff : ∀ m, operandAddr i m s = seg + ((effectiveAddr64 (formOf i) m s).setWidth 32).setWidth 64 := fun m => by
    simp [operandAddr, linearAddr, effectiveAddr, haddr, segBase_formOf hseg]
  have hadd : ∀ a b : Word, (a + b).setWidth 32 = a.setWidth 32 + b.setWidth 32 := fun a b =>
    BitVec.setWidth_add a b (by decide)
  have hmul : ∀ (a : Word) (n : Nat), (a * BitVec.ofNat 64 n).setWidth 32 = a.setWidth 32 * BitVec.ofNat 32 n :=
    fun a n => (BitVec.setWidth_mul a _ (by decide)).trans (by rw [BitVec.setWidth_ofNat_of_le (by decide)])
  have hbase : (s.readX (baseNum (formOf i).ext rm)).setWidth 32 = base := by rw [baseNum_formOf]
  have hindex : (indexVal s (formOf i).ext sc ix).setWidth 32 = index := by
    rw [indexVal_formOf, apply_ite (BitVec.setWidth 32), hmul]
    rfl
  have hdisp : (dispVal (formOf i).cls (formOf i).vl d).setWidth 32 = disp := by
    cases d with
    | none => rfl
    | d8 v => rw [dispVal_d8_formOf, apply_ite (BitVec.setWidth 32), hmul, setWidth_signExtend]
    | d32 v => exact (setWidth_signExtend v).trans v.signExtend_eq
  have hd32 : (d32.signExtend 64).setWidth 32 = d32 := (setWidth_signExtend d32).trans d32.signExtend_eq
  have hnext : (nextPc s (formOf i).len).setWidth 32 = next := by rw [← length_encode]; rfl
  simp only [heff, effectiveAddr64, hadd, hbase, hindex, hdisp, hd32, hnext, and_self]

/-! ### Register copies -/

/-- An instruction that completes without a change to its destination's elements changes the pc alone. -/
theorem CompletesWritingReg.next_of_unchanged {i : Instr} {s : State} {d : BitVec 5}
    (h : CompletesWritingReg i s d fun j => lane (s.readV d) j) :
    exec i s = .next { s with pc := s.pc + BitVec.ofNat 64 (encode i).length } := by
  obtain ⟨t, hexec, ⟨hframe, hother⟩, hlane⟩ := h
  have hread : ∀ n, t.readV n = s.readV n := fun n => by
    by_cases hn : n = d
    · exact hn ▸ vec_ext hlane
    · exact hother n hn
  have hv : t.v = s.v := Vector.ext fun n hn => hread (BitVec.ofNatLT n hn)
  rw [hexec, hframe, hv]

/-- A legacy copy of a register onto itself. -/
theorem legacySelfCopy_next {i : Instr} {rm : BitVec 3} {s : State} (hcls : (formOf i).cls = .legacy)
    (hrm : rmOperand i = .reg rm) (hself : copySource i rm = copyDest i rm) (hready : Ready i s) :
    exec i s = .next { s with pc := s.pc + BitVec.ofNat 64 (encode i).length } :=
  ((legacyCopy_completes hcls hrm rfl hself hready).congr fun _ _ => ite_self _).next_of_unchanged

/-- Settles O31: the low elements are the register's own, and the others are kept. -/
theorem legacySelfCopyChangesOnlyPc : Obligations.LegacySelfCopyChangesOnlyPc := by
  intro pre x r s i hform hready
  have hcopy : (formOf i).cls = .legacy ∧ rmOperand i = .reg r ∧ copySource i r = copyDest i r := by
    obtain rfl | rfl | ⟨hx, rfl | rfl⟩ := hform <;>
    exact ⟨rfl, rfl, by
      simp [copySource, copyDest, operandAccess, regOperand, rmRegister_eq, narrowForm, baseExt, *]⟩
  obtain ⟨hcls, hrm, hself⟩ := hcopy
  exact legacySelfCopy_next hcls hrm hself hready

/-- An EVEX register copy: an enabled element is the source's, a masked-off one kept or cleared, the others become 0
(rule R152). -/
theorem evexCopy_completes {i : Instr} {rm : BitVec 3} {s : State} {d src : BitVec 5}
    (hcls : (formOf i).cls = .evex) (hrm : rmOperand i = .reg rm) (hd : copyDest i rm = d)
    (hsrc : copySource i rm = src) (hready : Ready i s) :
    CompletesWritingReg i s d fun j =>
      if j < vlLanes (formOf i).vl then
        (if elemMask (formOf i) s j then lane (s.readV src) j
        else if (formOf i).z then 0#64 else lane (s.readV d) j)
      else 0#64 := by
  subst hd hsrc
  refine (registerCopy_completes hrm hready).congr fun j hj => ?_
  simp only [destValue, hcls]
  exact lane_blend _ _ _ _ _ hj

/-- Settles O36: each of the six forms is an EVEX register copy of its vector length. -/
theorem evexRegisterCopy : Obligations.EvexRegisterCopy := by
  intro pre e reg rm s i d src kl hform hready
  obtain ⟨⟨rfl, rfl⟩ | ⟨rfl, rfl⟩ | ⟨rfl, rfl⟩, rfl, rfl⟩ |
    ⟨⟨rfl, rfl⟩ | ⟨rfl, rfl⟩ | ⟨rfl, rfl⟩, rfl, rfl⟩ := hform <;>
  exact evexCopy_completes (rm := rm) rfl rfl rfl rfl hready

/-! ### EVEX loads -/

/-- An EVEX load puts the enabled elements of the operand into the destination (rules R152, R160). -/
theorem evexLoad_completes {i : Instr} {m : MemOperand} {s : State} {d : BitVec 5} {kl : Nat}
    (hcls : (formOf i).cls = .evex) (hload : operandAccess i = .read) (hrm : rmOperand i = .mem m)
    (hd : regOperand i = d) (hkl : vlLanes (formOf i).vl = kl) (hready : Ready i s)
    (hacc : Accessible .read (operandAddr i m s) (8 * kl) (enabledByte i s) s) :
    CompletesWritingReg i s d fun j =>
      if j < kl then
        (if elemMask (formOf i) s j then quadAt s.mem (operandAddr i m s) j
        else if (formOf i).z then 0#64 else lane (s.readV d) j)
      else 0#64 := by
  subst hd hkl
  rw [← operandBytes_eq] at hacc
  refine (load_completes hload hrm hready hacc).congr fun j hj => ?_
  simp only [destValue, hcls]
  have hquad (hlt : j < vlLanes (formOf i).vl) (hmask : elemMask (formOf i) s j = true) :
      lane (memReadMasked s.mem (operandAddr i m s) (operandBytes i) (enabledByte i s)) j =
        quadAt s.mem (operandAddr i m s) j := by
    refine lane_memReadMasked_enabled _ _ (operandBytes_le i) _ (by rw [operandBytes_eq]; omega) fun b hb => ?_
    have hj8 : (8 * j + b) / 8 = j := by omega
    rwa [enabledByte, byteMask, hj8]
  rw [lane_blend _ _ _ _ _ hj]
  exact ite_congr rfl (fun hlt => ite_congr rfl (hquad hlt) fun _ => rfl) fun _ => rfl

/-- Settles O37: each of the three forms is an EVEX load of its vector length. -/
theorem evexLoad : Obligations.EvexLoad := by
  intro pre e reg m s i d kl hform hd hready hacc
  obtain ⟨rfl, rfl⟩ | ⟨rfl, rfl⟩ | ⟨rfl, rfl⟩ := hform <;>
  exact evexLoad_completes rfl rfl rfl hd.symm rfl hready hacc

/-! ### Equal instructions -/

/-- The move of a register copy. -/
theorem moved_copy {i : Instr} {rm : BitVec 3} (hrm : rmOperand i = .reg rm) (s : State) :
    moved (formOf i) (operandAccess i) s = writeDest (formOf i) (copyDest i rm) (s.readV (copySource i rm)) s := by
  have hform : (formOf i).rm = .reg rm := (formOf_rm i).trans hrm
  unfold moved copyDest copySource
  split
  · rw [rmSource_reg hform, regNum_formOf]
    rfl
  · simp only [hform, regNum_formOf]
    rfl

/-- Of the operand's address only the RIP-relative one depends on the length (rule R109). -/
theorem moved_setLen {f : Form} (hrip : ∀ d, f.rm ≠ .mem (.rip d)) (kind : Access) (s : State) (n : Nat) :
    moved { f with len := n } kind s = moved f kind s := by
  have haddr : ∀ m, f.rm = .mem m → linearAddr { f with len := n } m s = linearAddr f m s := fun m hm => by
    cases m with
    | rip d => exact absurd hm (hrip d)
    | base | sib | sibNoBase => rfl
  obtain ⟨cls, vl, pre, ext, reg, rm, aaa, z, len, bad⟩ := f
  cases rm with
  | reg rm => rfl
  | mem m =>
    have h := haddr m rfl
    unfold moved rmSource
    simp only [h]
    rfl

/-- Two spellings that differ in their length alone lead to states that differ in the pc alone. -/
theorem exec_next_setLen {i j : Instr} {s t u : State} {k : Nat} (hacc : operandAccess j = operandAccess i)
    (hform : formOf j = { formOf i with len := (formOf i).len + k }) (hrip : ∀ d, rmOperand i ≠ .mem (.rip d))
    (hi : exec i s = .next t) (hj : exec j s = .next u) : u = { t with pc := t.pc + BitVec.ofNat 64 k } := by
  rw [eq_moved_of_exec_next hi, eq_moved_of_exec_next hj, hacc, hform,
    moved_setLen (by rwa [formOf_rm]), BitVec.ofNat_add, BitVec.add_assoc]

/-- Settles O35: the three-byte form has one byte more, and the two-byte form implies X = B = 0. -/
theorem twoAndThreeByteVexAgree : Obligations.TwoAndThreeByteVexAgree := by
  intro pre r w vvvv reg rm s t u i j hrip hform
  have hlen : pre.length + 3 + 1 + 1 + rmLen rm = pre.length + 2 + 1 + 1 + rmLen rm + 1 := by omega
  simp only [List.mem_cons, List.not_mem_nil, or_false, Prod.mk.injEq] at hform
  obtain ⟨rfl, rfl⟩ | ⟨rfl, rfl⟩ | ⟨rfl, rfl⟩ | ⟨rfl, rfl⟩ := hform <;>
  exact exec_next_setLen rfl (by simp only [formOf, vexForm, hlen]; rfl) hrip

/-- Without a writemask an EVEX destination is a VEX one: whatever z is, no element is masked off (rules R124,
R151). -/
theorem destValue_unmasked {f : Form} (hcls : f.cls = .evex) (haaa : f.aaa = 0#3) (s : State) (old src : Vec) :
    destValue f s old src = zeroAbove (vlLanes f.vl) src := by
  simp [destValue, hcls, blend, zeroAbove, elemMask, haaa]

/-- An EVEX copy without a writemask and a VEX copy of the same length between the same registers. -/
theorem copy_v_eq {i j : Instr} {rm : BitVec 3} {s t u : State} (hi : (formOf i).cls = .evex)
    (hj : (formOf j).cls = .vex) (haaa : (formOf i).aaa = 0#3) (hvl : (formOf i).vl = (formOf j).vl)
    (hirm : rmOperand i = .reg rm) (hjrm : rmOperand j = .reg rm) (hd : copyDest i rm = copyDest j rm)
    (hsrc : copySource i rm = copySource j rm) (hit : exec i s = .next t) (hju : exec j s = .next u) : t.v = u.v := by
  rw [eq_moved_of_exec_next hit, eq_moved_of_exec_next hju, moved_copy hirm, moved_copy hjrm, hd, hsrc]
  simp only [writeDest, destValue_unmasked hi haaa, hvl]
  simp only [destValue, hj]

/-- Settles O39: with R' = X = 0 the register numbers are those of the VEX form. -/
theorem unmaskedEvexMatchesVex : Obligations.UnmaskedEvexMatchesVex := by
  intro pre e w vvvv reg rm s t u i j haaa hrHi hx hform
  simp only [List.mem_cons, List.not_mem_nil, or_false, Prod.mk.injEq] at hform
  obtain ⟨rfl, rfl⟩ | ⟨rfl, rfl⟩ | ⟨rfl, rfl⟩ | ⟨rfl, rfl⟩ := hform <;>
  exact copy_v_eq (rm := rm) rfl rfl haaa rfl rfl rfl
    (by simp [copyDest, operandAccess, regOperand, rmRegister_eq, narrowForm, baseExt, indexExt, hrHi, hx])
    (by simp [copySource, operandAccess, regOperand, rmRegister_eq, narrowForm, baseExt, indexExt, hrHi, hx])

/-- What stops a register copy does not depend on its registers nor on the opcode's direction: stage 5 checks
nothing. -/
theorem stopOf_setOperands {f : Form} {rm : BitVec 3} (hrm : f.rm = .reg rm) (ext : Ext) (reg rm' : BitVec 3)
    (kind kind' : Access) (s : State) :
    stopOf { f with ext := ext, reg := reg, rm := .reg rm' } kind' s = stopOf f kind s := by
  have hf : operandStop f kind s = none := by simp only [operandStop, hrm]
  unfold stopOf
  rw [hf]
  rfl

/-- Two register copies of one class between the same registers do the same, stops included (rule R124). -/
theorem exec_copy_eq {i j : Instr} {rm rm' : BitVec 3} {ext : Ext} {reg : BitVec 3}
    (hform : formOf j = { formOf i with ext := ext, reg := reg, rm := .reg rm' }) (hrm : rmOperand i = .reg rm)
    (hd : copyDest i rm = copyDest j rm') (hsrc : copySource i rm = copySource j rm') (s : State) :
    exec i s = exec j s := by
  have hi : (formOf i).rm = .reg rm := (formOf_rm i).trans hrm
  have hj : rmOperand j = .reg rm' := by rw [← formOf_rm, hform]
  rw [exec_eq_moved, exec_eq_moved, moved_copy hrm, moved_copy hj, hd, hsrc, hform,
    stopOf_setOperands hi _ _ _ (operandAccess i)]
  rfl

/-- Settles O41: exchanged, ModRM.reg and ModRM.rm name the same registers under the other opcode. -/
theorem bothOpcodesCopyAlike : Obligations.BothOpcodesCopyAlike := by
  intro pre x w e vvvv reg rm s
  refine ⟨?_, ?_, ?_, ?_, ?_, ?_, ?_, ?_, ?_⟩ <;>
  exact exec_copy_eq (rm := rm) (rm' := reg) rfl rfl
    (by simp [copyDest, operandAccess, regOperand, rmRegister_eq, narrowForm, baseExt, indexExt])
    (by simp [copySource, operandAccess, regOperand, rmRegister_eq, narrowForm, baseExt, indexExt]) s

end Sys2Proof.Machine
end

section
/-!
PROOF. A step at bytes that decode to an instruction: the instruction's meaning and nothing around it (rule R130).
-/

namespace Sys2Proof.Machine

/-- Settles O6: nothing stops the step before the fetch, and fetch and decode answer the instruction. -/
theorem stepRunsDecodedInstruction : Obligations.StepRunsDecodedInstruction := by
  intro s i hmode hend hdec
  have hstop : stepStop s = none := stepStop_none hmode hend
  have hrun : fetchDecode s = .run i := (fetchDecode_run_iff s i).2 hdec
  simp only [step, hstop, hrun]

end Sys2Proof.Machine
end

section
/-!
PROOF. EVEX stores: the enabled bytes of the operand are written (rules R156 to R159), and zeroing has no meaning at a
memory destination (rule R104).
-/

namespace Sys2Proof.Machine

/-- Zeroing at a memory destination is an encoding reason for #UD (rules R104, R159). -/
theorem not_evexSound_of_zeroing_mem {e : Evex} (hz : e.z = true) (vl : VL) (pre : List Prefix) (m : MemOperand)
    (c : Config) : ¬ EvexSound vl true pre e (.mem m) c := by
  rintro ⟨-, -, hzeroing, -⟩
  obtain ⟨-, hmem⟩ := hzeroing hz
  exact absurd (hmem rfl) (by simp [rmIsMem])

/-- Settles O38: each of the three forms is a store of its vector length, whose byte t is enabled with element t / 8;
with z = 1 it is not sound. -/
theorem evexStore : Obligations.EvexStore := by
  intro pre e reg m s i n hform
  obtain ⟨rfl, rfl⟩ | ⟨rfl, rfl⟩ | ⟨rfl, rfl⟩ := hform
  all_goals
    constructor
    · exact store_completes rfl rfl
    · exact fun hadm hz => exec_ud_of_undefined hadm (not_evexSound_of_zeroing_mem hz _ pre m s.cfg)

end Sys2Proof.Machine
end

section
/-!
PROOF. The exceptions of the family: LOCK and #UD (rule R179), TS and #NM (R180), and what every fault of a step
records (R170, R172), from one list of the faults that fetch, decoder and meaning raise.
-/

namespace Sys2Proof.Machine

/-! ### LOCK and TS -/

/-- LOCK is a reason for #UD in every class: `LegacySound` names it, and it is no `plainPrefix` of VEX or EVEX
(rule R179). -/
theorem not_noUndefined_of_lock {i : Instr} (hlock : .lock ∈ prefixesOf i) (c : Config) : ¬ NoUndefined i c := by
  cases i with
  | movapdLoad | movapdLoadRex | movapdStore | movapdStoreRex => exact fun ⟨hfree, _⟩ => hfree hlock
  | vmovapdVex128LoadC5 | vmovapdVex128LoadC4 | vmovapdVex128StoreC5 | vmovapdVex128StoreC4
  | vmovapdVex256LoadC5 | vmovapdVex256LoadC4 | vmovapdVex256StoreC5 | vmovapdVex256StoreC4
  | vmovapdEvex128Load | vmovapdEvex256Load | vmovapdEvex512Load
  | vmovapdEvex128Store | vmovapdEvex256Store | vmovapdEvex512Store =>
    exact fun ⟨hplain, _⟩ => absurd (hplain .lock hlock) (by simp [plainPrefix])

/-- Settles O15: LOCK is among the conditions of every form, whatever its operand. -/
theorem lockPrefixRaisesUD : Obligations.LockPrefixRaisesUD :=
  fun _ s hadm hlock => exec_ud_of_undefined hadm (not_noUndefined_of_lock hlock s.cfg)

/-- Settles O18: stage 4 comes right after the #UD conditions. -/
theorem taskSwitchedRaisesNM : Obligations.TaskSwitchedRaisesNM :=
  fun _ _ hadm hdef hts => exec_nm hadm hdef hts

/-! ### The faults of a step -/

/-- The exceptions as the family raises them in a state: with the pc, and #SS and #GP with code 0 (rule R172). -/
inductive Fault.RaisedAt (s : State) : Fault → Prop where
  | ud : RaisedAt s (.ud s.pc)
  | nm : RaisedAt s (.nm s.pc)
  | ss : RaisedAt s (.ss 0 s.pc)
  | gp : RaisedAt s (.gp 0 s.pc)
  | pf (code : ErrCode) (addr : Word) : RaisedAt s (.pf code addr s.pc)

/-- A check stops with no other fault than one raised in the state. -/
def FaultsAt (s : State) (check : Option Stop) : Prop := ∀ f, check = some (.fault f) → f.RaisedAt s

theorem faultsAt_none (s : State) : FaultsAt s none := nofun

theorem faultsAt_refuse (r : Refusal) (s : State) : FaultsAt s (some (.refuse r)) := nofun

theorem faultsAt_raise {exc : Word → Fault} {s : State} (h : (exc s.pc).RaisedAt s) :
    FaultsAt s (some (raise exc s)) := by
  intro f hf
  cases hf
  exact h

/-- Of two checks in a row, the first that stops is the answer. -/
theorem FaultsAt.orElse {s : State} {a b : Option Stop} (ha : FaultsAt s a) (hb : FaultsAt s b) :
    FaultsAt s (a <|> b) := by
  cases a with
  | none => exact hb
  | some st => exact ha

theorem FaultsAt.ite {s : State} {p : Prop} [Decidable p] {a b : Option Stop} (ha : FaultsAt s a)
    (hb : FaultsAt s b) : FaultsAt s (if p then a else b) := by
  split
  · exact ha
  · exact hb

theorem faultsAt_canonicalStop (bytes : List Word) (stack : Bool) (s : State) :
    FaultsAt s (canonicalStop bytes stack s) := by
  refine .ite (faultsAt_none s) (faultsAt_raise ?_)
  cases stack with
  | true => exact .ss
  | false => exact .gp

theorem faultsAt_pageStop (kind : Access) (bytes : List Word) (s : State) : FaultsAt s (pageStop kind bytes s) := by
  unfold pageStop
  cases firstPageFault s.cfg kind bytes with
  | none => exact faultsAt_none s
  | some e => exact faultsAt_raise (.pf e.1 e.2)

theorem faultsAt_mapStop (bytes : List Word) (s : State) : FaultsAt s (mapStop bytes s) :=
  .ite (faultsAt_none s) (faultsAt_refuse _ s)

/-- The checks of a memory operand raise #GP(0), #SS(0) and #PF (rule R185 (5) to (8)). -/
theorem faultsAt_accessStop (kind : Access) (addr : Word) (n : Nat) (bm : Nat → Bool) (stack : Bool) (s : State) :
    FaultsAt s (accessStop kind addr n bm stack s) := by
  have halign : FaultsAt s (alignStop addr n s) := .ite (faultsAt_none s) (faultsAt_raise .gp)
  have htext : FaultsAt s (textStop kind (accessed addr n bm) s) := .ite (faultsAt_refuse _ s) (faultsAt_none s)
  exact halign.orElse <| (faultsAt_canonicalStop _ stack s).orElse <| (faultsAt_pageStop kind _ s).orElse <|
    (faultsAt_mapStop _ s).orElse htext

theorem faultsAt_operandStop (f : Form) (kind : Access) (s : State) : FaultsAt s (operandStop f kind s) := by
  unfold operandStop
  cases f.rm with
  | reg rm => exact faultsAt_none s
  | mem m => exact faultsAt_accessStop _ _ _ _ _ s

theorem faultsAt_modeStop (s : State) : FaultsAt s (modeStop s) := .ite (faultsAt_none s) (faultsAt_refuse _ s)

/-- Stages 2 to 5 of an instruction (rule R130). -/
theorem faultsAt_stopOf (f : Form) (kind : Access) (s : State) : FaultsAt s (stopOf f kind s) := by
  have hlength : FaultsAt s (lengthStop f s) := .ite (faultsAt_none s) (faultsAt_raise .gp)
  have hud : FaultsAt s (udStop f s) := .ite (faultsAt_raise .ud) (faultsAt_none s)
  have hnm : FaultsAt s (nmStop s) := .ite (faultsAt_raise .nm) (faultsAt_none s)
  exact (faultsAt_modeStop s).orElse <| hlength.orElse <| hud.orElse <| hnm.orElse <| faultsAt_operandStop f kind s

theorem faultsAt_stepStop (s : State) : FaultsAt s (stepStop s) :=
  (faultsAt_modeStop s).orElse (.ite (faultsAt_refuse _ s) (faultsAt_none s))

theorem faultsAt_fetchByte (s : State) (a : Word) : FaultsAt s (fetchByte s a) :=
  (faultsAt_canonicalStop [a] false s).orElse ((faultsAt_pageStop .fetch [a] s).orElse (faultsAt_mapStop [a] s))

/-- The stop of a fetch is that of one of its bytes. -/
theorem faultsAt_fetchBytes (s : State) : FaultsAt s (fetchBytes s).2 := by
  obtain ⟨k, -, -, -, ⟨-, hnone⟩ | ⟨-, st, hst, hsome⟩⟩ := fetchFrom_spec (fetchWindow s) s.pc s
  · rw [fetchBytes, hnone]
    exact faultsAt_none s
  · rw [fetchBytes, hsome, ← hst]
    exact faultsAt_fetchByte s _

theorem faultsAt_undefinedStop (len : Nat) (s : State) : FaultsAt s (some (undefinedStop len s)) := by
  unfold undefinedStop
  split
  · exact faultsAt_raise .ud
  · exact faultsAt_raise .gp

/-- A stop of fetch and decode is the decoder's or that of a byte that cannot be fetched (rules R117, R130, R182). -/
theorem faultsAt_of_fetchDecode_stop {s : State} {st : Stop} (h : fetchDecode s = .stop st) : FaultsAt s (some st) := by
  unfold fetchDecode at h
  split at h
  · cases h
  · cases h; exact faultsAt_undefinedStop _ s
  · cases h; exact faultsAt_refuse _ s
  · have hfetch := faultsAt_fetchBytes s
    split at h
    · next hsome => cases h; exact hsome ▸ hfetch
    · cases h; exact faultsAt_raise .gp

/-- A fault that is a stop's outcome is the fault the check stopped with. -/
theorem FaultsAt.raisedAt_of_out {s : State} {st : Stop} {f : Fault} (hst : FaultsAt s (some st))
    (h : st.out = .fault f) : f.RaisedAt s := by
  cases st with
  | fault g => cases h; exact hst _ rfl
  | refuse r => cases h

/-- A fault of a step comes before the fetch, from fetch and decode, or from the instruction's meaning. -/
theorem raisedAt_of_step_fault {s : State} {f : Fault} (h : step s = .fault f) : f.RaisedAt s := by
  unfold step at h
  split at h
  · next st hstop => exact (hstop ▸ faultsAt_stepStop s).raisedAt_of_out h
  · split at h
    · next st hfetch => exact (faultsAt_of_fetchDecode_stop hfetch).raisedAt_of_out h
    · next i hrun => exact faultsAt_stopOf (formOf i) (operandAccess i) s f (stopOf_of_exec_fault h)

/-- Settles O25: each of the five exceptions is raised with the pc, and #SS and #GP with code 0. -/
theorem faultRecordsInstructionAddress : Obligations.FaultRecordsInstructionAddress := by
  intro s f h
  cases raisedAt_of_step_fault h with
  | ud | nm | ss | gp | pf => simp [Fault.faultingPc, Fault.vector, Fault.errorCode]

end Sys2Proof.Machine
end

section
/-!
PROOF. Runs (rules R203, R207): a run moves the pc up by at least the shortest encoding per step, so its length is
bounded by the address space; the launch of a program; and END_ADDR, where nothing is fetched.
-/

namespace Sys2Proof.Machine

/-! ### The length of a run -/

/-- A run gains at least 4 bytes of pc per step, the length of the shortest encoding (rule R207). -/
theorem reaches_advances_pc {k : Nat} {s t : State} (hrun : Reaches k s t) : s.pc.toNat + 4 * k ≤ t.pc.toNat := by
  induction k generalizing s with
  | zero => simp [(reaches_zero_iff s t).1 hrun]
  | succ k ih =>
    obtain ⟨u, hstep, hrest⟩ := (reaches_succ_iff k s t).1 hrun
    obtain ⟨hfirst, -⟩ := stepAdvancesPc s u hstep
    have := ih hrest
    omega

/-- Settles O52: the pc, which a run only moves up, is below 2^64. -/
theorem runsCannotHang : Obligations.RunsCannotHang := by
  intro k s t hrun
  have hgain := reaches_advances_pc hrun
  have hbound := t.pc.isLt
  exact ⟨hgain, by omega⟩

/-! ### The launch of a program -/

/-- The address of an offset that does not pass 2^64. -/
theorem toNat_byteAddr {a : Word} {t : Nat} (h : a.toNat + t < 2 ^ 64) : (byteAddr a t).toNat = a.toNat + t := by
  rw [byteAddr, BitVec.toNat_add, BitVec.toNat_ofNat]
  omega

/-- A region that does not pass 2^64 has each of its bytes. -/
theorem inRegion_byteAddr {a : Word} {n t : Nat} (hn : a.toNat + n ≤ 2 ^ 64) (ht : t < n) :
    inRegion (byteAddr a t) ⟨a.toNat, n⟩ = true := by
  simp only [inRegion, toNat_byteAddr (show a.toNat + t < 2 ^ 64 by omega), Bool.and_eq_true, decide_eq_true_eq]
  omega

@[simp] theorem launch_pc (s : State) (base : Word) (program : List Byte) : (s.launch base program).pc = base := rfl

@[simp] theorem launch_mem (s : State) (base : Word) (program : List Byte) :
    (s.launch base program).mem = placeBytes base program s.mem := rfl

@[simp] theorem launch_endAddr (s : State) (base : Word) (program : List Byte) :
    (s.launch base program).cfg.endAddr = some (base + BitVec.ofNat 64 program.length) := rfl

/-- MAPPED after a launch is the program's region and what was mapped before (rule R203). -/
theorem isMapped_launch (s : State) (base : Word) (program : List Byte) (a : Word) :
    isMapped (s.launch base program).cfg a = (inRegion a ⟨base.toNat, program.length⟩ || isMapped s.cfg a) := rfl

/-- The program text after a launch is the program's region alone (rule R203). -/
theorem isText_launch (s : State) (base : Word) (program : List Byte) (a : Word) :
    isText (s.launch base program).cfg a = inRegion a ⟨base.toNat, program.length⟩ := by
  simp [isText, State.launch]

/-- Settles O11: each byte of the program is read where it was placed, and its address is in the launched region. -/
theorem launchPlacesProgram : Obligations.LaunchPlacesProgram := by
  intro s base program hwf hfits
  refine ⟨launch_pc s base program, launch_endAddr s base program, fun t ht => ?_⟩
  have hregion := inRegion_byteAddr hfits ht
  refine ⟨?_, ?_, ?_⟩
  · rw [launch_mem]
    exact readAt_placeBytes base hwf (by omega) ht
  · rw [isMapped_launch, hregion, Bool.true_or]
  · rw [isText_launch, hregion]

/-! ### The end of a run -/

/-- In 64-bit mode the end of the run stops a step before any fetch. -/
theorem stepStop_of_over {s : State} (hmode : s.cfg.mode = .long64) (hover : s.over) :
    stepStop s = some (.refuse .runOver) := by
  unfold State.over at hover
  simp [stepStop, modeStop, hmode, hover]

/-- Settles O9: at END_ADDR the step is the stop that comes before the fetch. -/
theorem stepAtEndAddrIsOver : Obligations.StepAtEndAddrIsOver := by
  intro s hmode hover
  simp [step, stepStop_of_over hmode hover]

end Sys2Proof.Machine
end
